-- ==== Sys2Proof/Word.lean ====
section
/-! DEFINITION. The word types of the spec (00 R9, R10): unsigned words of a stated width and byte strings.
Addition, subtraction, exclusive or and the logical shifts are those of `BitVec`, which are the modular ones of 00 R17 to R19. -/

namespace Sys2Proof

/-- A byte: an 8-bit word (00 R10). -/
abbrev Byte := BitVec 8
/-- A 4-bit word: one entry of an S-box table. -/
abbrev Nibble := BitVec 4
/-- A 32-bit word (00 R9). -/
abbrev Word := BitVec 32
/-- A byte string (00 R10): element 0 is the first byte the caller supplies. -/
abbrev Bytes := List Byte

end Sys2Proof
end

