-- ==== Sys2Proof/Syntax.lean ====
section
/-! DEFINITION. The commands (30 R105: one constructor per row of spec/opcode_table.json), the parts of a mnemonic (30 R109),
and what the host can do to the block: accesses through the map (10 R37, 20 R78) and a reset from outside (70 R310). -/

namespace Sys2Proof

/-- The six units of 30 R102. -/
inductive CipherUnit where
  | fei
  | spn
  | tea
  | xtea
  | xxt
  | str
deriving DecidableEq, Repr

/-- The six operations of 30 R103. -/
inductive Op where
  | init
  | encb
  | decb
  | enc
  | dec
  | ksb
deriving DecidableEq, Repr

/-- The four chaining modes of 30 R104. -/
inductive Mode where
  | ecb
  | cbc
  | cfb
  | ctr
deriving DecidableEq, Repr

/-- A unit, an operation and a mode put together; most such triples are no command (30 R107). -/
structure Form where
  unit : CipherUnit
  op : Op
  mode : Mode
deriving DecidableEq, Repr

/-- The 31 commands, in the order of 30 R105. -/
inductive Instr where
  | feiInit
  | feiEncb
  | feiDecb
  | feiEncEcb
  | feiEncCbc
  | feiEncCfb
  | feiEncCtr
  | feiDecEcb
  | feiDecCbc
  | feiDecCfb
  | feiDecCtr
  | spnInit
  | spnEncb
  | spnDecb
  | spnEncEcb
  | spnEncCbc
  | spnDecEcb
  | spnDecCbc
  | teaInit
  | teaEnc
  | teaDec
  | xteaInit
  | xteaEnc
  | xteaDec
  | xxtInit
  | xxtEnc
  | xxtDec
  | strInit
  | strEnc
  | strDec
  | strKsb
deriving DecidableEq, Repr

/-- The parts of each mnemonic (30 R109); the mode is `ecb`, numbered 0, where the mnemonic names none (30 R104). -/
def Instr.form : Instr → Form
  | .feiInit => ⟨.fei, .init, .ecb⟩
  | .feiEncb => ⟨.fei, .encb, .ecb⟩
  | .feiDecb => ⟨.fei, .decb, .ecb⟩
  | .feiEncEcb => ⟨.fei, .enc, .ecb⟩
  | .feiEncCbc => ⟨.fei, .enc, .cbc⟩
  | .feiEncCfb => ⟨.fei, .enc, .cfb⟩
  | .feiEncCtr => ⟨.fei, .enc, .ctr⟩
  | .feiDecEcb => ⟨.fei, .dec, .ecb⟩
  | .feiDecCbc => ⟨.fei, .dec, .cbc⟩
  | .feiDecCfb => ⟨.fei, .dec, .cfb⟩
  | .feiDecCtr => ⟨.fei, .dec, .ctr⟩
  | .spnInit => ⟨.spn, .init, .ecb⟩
  | .spnEncb => ⟨.spn, .encb, .ecb⟩
  | .spnDecb => ⟨.spn, .decb, .ecb⟩
  | .spnEncEcb => ⟨.spn, .enc, .ecb⟩
  | .spnEncCbc => ⟨.spn, .enc, .cbc⟩
  | .spnDecEcb => ⟨.spn, .dec, .ecb⟩
  | .spnDecCbc => ⟨.spn, .dec, .cbc⟩
  | .teaInit => ⟨.tea, .init, .ecb⟩
  | .teaEnc => ⟨.tea, .enc, .ecb⟩
  | .teaDec => ⟨.tea, .dec, .ecb⟩
  | .xteaInit => ⟨.xtea, .init, .ecb⟩
  | .xteaEnc => ⟨.xtea, .enc, .ecb⟩
  | .xteaDec => ⟨.xtea, .dec, .ecb⟩
  | .xxtInit => ⟨.xxt, .init, .ecb⟩
  | .xxtEnc => ⟨.xxt, .enc, .ecb⟩
  | .xxtDec => ⟨.xxt, .dec, .ecb⟩
  | .strInit => ⟨.str, .init, .ecb⟩
  | .strEnc => ⟨.str, .enc, .ecb⟩
  | .strDec => ⟨.str, .dec, .ecb⟩
  | .strKsb => ⟨.str, .ksb, .ecb⟩

/-! ## The host's side -/

/-- The four operand spaces of 20 R70. -/
inductive Space where
  | key
  | iv
  | din
  | dout
deriving DecidableEq, Repr

/-- The six control registers of 10 R34 to R36, numbered 0 to 5. -/
inductive Register where
  | cmd
  | status
  | keyLen
  | ivLen
  | dinLen
  | doutLen
deriving DecidableEq, Repr

/-- The width of a host access: one byte, two bytes, or four (log 17). -/
inductive AccessSize where
  | byte
  | half
  | word
deriving DecidableEq, Repr

/-- How many bytes an access of this width covers. -/
def AccessSize.bytes : AccessSize → Nat
  | .byte => 1
  | .half => 2
  | .word => 4

/-- One host access, at a byte offset from the base of the block (10 R37). -/
inductive HostAccess where
  | read (size : AccessSize) (offset : Nat)
  | write (size : AccessSize) (offset : Nat) (value : Word)
deriving DecidableEq, Repr

/-- What reaches the block from outside: a host access, or a reset (70 R310). -/
inductive Input where
  | access (a : HostAccess)
  | reset
deriving DecidableEq, Repr

end Sys2Proof
end

