-- ==== Sys2Proof/WellFormed.lean ====
section
/-! DEFINITION. Which triples of unit, operation and mode are commands (30 R103, R104, R107), and which host accesses have the
width and alignment the interface asks for (20 R73). -/

namespace Sys2Proof

/-- 30 R103: `ENCB` and `DECB` exist for `FEI` and `SPN` only, `KSB` for `STR` only. -/
def Form.opExists (f : Form) : Bool :=
  match f.op with
  | .encb | .decb => f.unit == .fei || f.unit == .spn
  | .ksb => f.unit == .str
  | .init | .enc | .dec => true

/-- 30 R104: the mode counts only for `ENC` and `DEC` of `FEI` (all four) and of `SPN` (`ECB`, `CBC`); elsewhere it is 0. -/
def Form.modeAllowed (f : Form) : Bool :=
  match f.op, f.unit with
  | .enc, .fei | .dec, .fei => true
  | .enc, .spn | .dec, .spn => f.mode == .ecb || f.mode == .cbc
  | _, _ => f.mode == .ecb

/-- A form that is one of the 31 commands. -/
def Form.wellFormed (f : Form) : Bool := f.opExists && f.modeAllowed

/-- An instruction is well formed when its parts are a command. -/
def Instr.wellFormed (i : Instr) : Bool := i.form.wellFormed

/-- 20 R73: an access that a control register accepts, one naturally aligned 32-bit value. -/
def registerAccessOk (size : AccessSize) (offset : Nat) : Bool := size == .word && offset % 4 == 0

/-- 20 R73: an access that a buffer window accepts, one byte, at its reserved offsets too. -/
def bufferAccessOk (size : AccessSize) : Bool := size == .byte

end Sys2Proof
end

