-- ==== Sys2Proof/Decode.lean ====
section
/-! DEFINITION. The decoder of the 32-bit command word (30 R100 to R107), total and rejecting by name, and the encoder. -/

namespace Sys2Proof

/-- Why a value written to `CMD` is no command (30 R107). -/
inductive Illegal where
  /-- A nonzero bit in 31:8. -/
  | zeroField
  /-- `UNIT` 6 or 7. -/
  | reservedUnit
  /-- `OP` 6 or 7. -/
  | reservedOp
  /-- `ENCB`, `DECB` or `KSB` of a unit that has none. -/
  | noSuchOperation
  /-- A `MODE` the operation and the unit do not have. -/
  | noSuchMode
deriving DecidableEq, Repr

/-- 30 R100: bits 31:8. -/
def zeroField (w : Word) : BitVec 24 := w.extractLsb' 8 24
/-- 30 R100: bits 7:5. -/
def unitField (w : Word) : BitVec 3 := w.extractLsb' 5 3
/-- 30 R100: bits 4:2. -/
def opField (w : Word) : BitVec 3 := w.extractLsb' 2 3
/-- 30 R100: bits 1:0. -/
def modeField (w : Word) : BitVec 2 := w.extractLsb' 0 2

/-- 30 R102. -/
def decodeUnit (u : BitVec 3) : Option CipherUnit :=
  match u.toNat with
  | 0 => some .fei
  | 1 => some .spn
  | 2 => some .tea
  | 3 => some .xtea
  | 4 => some .xxt
  | 5 => some .str
  | _ => none

/-- 30 R103. -/
def decodeOp (o : BitVec 3) : Option Op :=
  match o.toNat with
  | 0 => some .init
  | 1 => some .encb
  | 2 => some .decb
  | 3 => some .enc
  | 4 => some .dec
  | 5 => some .ksb
  | _ => none

/-- 30 R104. -/
def decodeMode (m : BitVec 2) : Mode :=
  match m.toNat with
  | 0 => .ecb
  | 1 => .cbc
  | 2 => .cfb
  | _ => .ctr

/-- 30 R105: the command a form names. A form that is no command gives none. -/
def instrOfForm (f : Form) : Option Instr :=
  match f.unit, f.op, f.mode with
  | .fei, .init, .ecb => some .feiInit
  | .fei, .encb, .ecb => some .feiEncb
  | .fei, .decb, .ecb => some .feiDecb
  | .fei, .enc, .ecb => some .feiEncEcb
  | .fei, .enc, .cbc => some .feiEncCbc
  | .fei, .enc, .cfb => some .feiEncCfb
  | .fei, .enc, .ctr => some .feiEncCtr
  | .fei, .dec, .ecb => some .feiDecEcb
  | .fei, .dec, .cbc => some .feiDecCbc
  | .fei, .dec, .cfb => some .feiDecCfb
  | .fei, .dec, .ctr => some .feiDecCtr
  | .spn, .init, .ecb => some .spnInit
  | .spn, .encb, .ecb => some .spnEncb
  | .spn, .decb, .ecb => some .spnDecb
  | .spn, .enc, .ecb => some .spnEncEcb
  | .spn, .enc, .cbc => some .spnEncCbc
  | .spn, .dec, .ecb => some .spnDecEcb
  | .spn, .dec, .cbc => some .spnDecCbc
  | .tea, .init, .ecb => some .teaInit
  | .tea, .enc, .ecb => some .teaEnc
  | .tea, .dec, .ecb => some .teaDec
  | .xtea, .init, .ecb => some .xteaInit
  | .xtea, .enc, .ecb => some .xteaEnc
  | .xtea, .dec, .ecb => some .xteaDec
  | .xxt, .init, .ecb => some .xxtInit
  | .xxt, .enc, .ecb => some .xxtEnc
  | .xxt, .dec, .ecb => some .xxtDec
  | .str, .init, .ecb => some .strInit
  | .str, .enc, .ecb => some .strEnc
  | .str, .dec, .ecb => some .strDec
  | .str, .ksb, .ecb => some .strKsb
  | _, _, _ => none

/-- 30 R101 (2), R107, R108: the command a value written to `CMD` names, or why it names none. -/
def decode (w : Word) : Except Illegal Instr :=
  if zeroField w ≠ 0 then .error .zeroField
  else
    match decodeUnit (unitField w), decodeOp (opField w) with
    | none, _ => .error .reservedUnit
    | some _, none => .error .reservedOp
    | some u, some o =>
      let f : Form := ⟨u, o, decodeMode (modeField w)⟩
      if f.opExists = false then .error .noSuchOperation
      else
        match instrOfForm f with
        | none => .error .noSuchMode
        | some i => .ok i

/-- 30 R102: the number of a unit. -/
def CipherUnit.code : CipherUnit → BitVec 3
  | .fei => 0
  | .spn => 1
  | .tea => 2
  | .xtea => 3
  | .xxt => 4
  | .str => 5

/-- 30 R103: the number of an operation. -/
def Op.code : Op → BitVec 3
  | .init => 0
  | .encb => 1
  | .decb => 2
  | .enc => 3
  | .dec => 4
  | .ksb => 5

/-- 30 R104: the number of a mode. -/
def Mode.code : Mode → BitVec 2
  | .ecb => 0
  | .cbc => 1
  | .cfb => 2
  | .ctr => 3

/-- 30 R100: the four fields put together. -/
def encodeForm (f : Form) : Word := 0#24 ++ f.unit.code ++ f.op.code ++ f.mode.code

/-- 30 R105: the value of a command. -/
def encode (i : Instr) : Word := encodeForm i.form

/-- The command in an instruction of `nbits` bits, `w` (bit 0 the least significant): a command is one 32-bit value and is
written to `CMD` whole, so no byte order enters (20 R72, R73). -/
def decodeTableWord (nbits w : Nat) : Option Instr :=
  match decode (BitVec.ofNat 32 (w % 2 ^ nbits)) with
  | .ok i => some i
  | .error _ => none

end Sys2Proof
end

