-- ==== Sys2Proof/Config.lean ====
section
/-! DEFINITION. What is fixed for the life of the hardware (10 R52, 70 R311): the constants the source fixes (00 R7), the shape
of the parameters the source leaves open (00 R8), and the open values themselves as constants without a body. -/

namespace Sys2Proof.Config

/-! ## 00 R7: constants -/

abbrev feiKeyBytes : Nat := 32
abbrev feiBlockBytes : Nat := 8
abbrev feiRounds : Nat := 32
abbrev feiRot : Nat := 11
/-- 00 R7 `SPN_KEY_BYTES`: the admissible key lengths of `SPN`. -/
abbrev spnKeyBytes : List Nat := [16, 24, 32]
/-- 43 R183, D23: the length of a random `SPN` key. -/
abbrev spnRandomKeyBytes : Nat := 32
abbrev spnBlockBytes : Nat := 16
abbrev spnRounds : Nat := 32
abbrev spnRoundKeys : Nat := 33
abbrev spnPrekeyWords : Nat := 140
abbrev phi : Word := 0x9e3779b9#32
abbrev spnKsRot : Nat := 11
abbrev arxKeyBytes : Nat := 16
abbrev arxBlockBytes : Nat := 8
abbrev xxtDelta : Word := 0x9e3779b9#32
abbrev xxtMinWords : Nat := 2
abbrev strKeyBytes : Nat := 16
abbrev strBlockBytes : Nat := 16
abbrev strSetupCycles : Nat := 2

/-! ## Capacities and IV lengths -/

/-- 10 R31: the capacity of `KEYBUF`. -/
abbrev keyCap : Nat := 64
/-- 10 R31: the capacity of `IVBUF`. -/
abbrev ivCap : Nat := 32
/-- 10 R31: `DOUTBUF` holds this many bytes more than `DINBUF`. -/
abbrev doutExtra : Nat := 32
/-- 42 R151: the IV of `FEI` CBC and CFB is one block. -/
abbrev feiIvBytes : Nat := 8
/-- 42 R151, D15: the nonce of `FEI` CTR is half a block. -/
abbrev feiNonceBytes : Nat := 4
/-- 43 R203: the IV of `SPN` CBC is one block. -/
abbrev spnIvBytes : Nat := 16

/-! ## 00 R8: the parameters -/

/-- The two byte orders of 20 R72. -/
inductive ByteOrder where
  | big
  | little
deriving DecidableEq, Repr

/-- The state of one `TEA` or `XTEA` block in transformation (44 R223, R224): the two halves and the accumulator. -/
structure ArxState where
  v0 : Word
  v1 : Word
  sum : Word
deriving DecidableEq, Repr

/-- 00 R8 `TEA_MIX`, `XTEA_MIX`: one encryption round and one decryption round, as functions of DELTA and the subkeys. -/
structure ArxMix where
  enc : Word → Vector Word 4 → ArxState → ArxState
  dec : Word → Vector Word 4 → ArxState → ArxState

/-- The key-derived registers of the `STR` context (10 R46): X, A, C and the carry. -/
structure StreamState where
  x : Vector Word 8
  a : Vector Word 8
  c : Vector Word 8
  carry : BitVec 1
deriving DecidableEq, Repr

/-- 00 R8: every value and function the source leaves open, and the two round counts of 00 R7 that a model keeps changeable.
The machine's own choice is `Sys2Proof.Machine.params` (Machine/Params.lean); the rules below take any `Params`. -/
structure Params where
  /-- `FEI_SBOX`: eight tables of sixteen entries (41 R133). -/
  feiSbox : Fin 8 → Nibble → Nibble
  /-- `FEI_NIBBLE_ORDER`: the table that serves the nibble at bits 4j+3 to 4j. -/
  feiNibbleOrder : Fin 8 → Fin 8
  /-- `FEI_HALF_ORDER`. -/
  feiHalfOrder : ByteOrder
  /-- `FEI_FINAL_SWAP`. -/
  feiFinalSwap : Bool
  /-- `SPN_SBOX`: eight permutations of 0 to 15; `SPN_SBOXINV` is the inverse (43 R184). -/
  spnSbox : Fin 8 → Equiv.Perm Nibble
  /-- `SPN_IP`: a permutation of 0 to 127; `SPN_FP` is its inverse (43 R187). -/
  spnIp : Equiv.Perm (Fin 128)
  /-- `SPN_WORD_ORDER`. -/
  spnWordOrder : ByteOrder
  /-- `SPN_LINV`: under no law (43 R191). -/
  spnLinv : Word → Word
  /-- `TEA_DELTA`. -/
  teaDelta : Word
  /-- `TEA_ROUNDS`. -/
  teaRounds : Nat
  /-- `XTEA_ROUNDS`. -/
  xteaRounds : Nat
  /-- `TEA_MIX`. -/
  teaMix : ArxMix
  /-- `XTEA_MIX`. -/
  xteaMix : ArxMix
  /-- `ARX_HALF_ORDER`. -/
  arxHalfOrder : ByteOrder
  /-- `XXT_WORD_ORDER`. -/
  xxtWordOrder : ByteOrder
  /-- `XXT_E`: `e` as a function of `sum` (45 R244). -/
  xxtE : Word → BitVec 2
  /-- `XXT_NEIGHBOURS`: for n words and position p, the positions of `y` and of `z`. -/
  xxtNeighbours : Nat → Nat → Nat × Nat
  /-- `STR_SETUP`, the part before the setup cycles (46 R261, R263). -/
  strSetup : Bytes → StreamState
  /-- `STR_SETUP`, the final step after the setup cycles (46 R261, R263). -/
  strSetupFinal : StreamState → StreamState
  /-- `STR_CYCLE` (46 R264). -/
  strCycle : StreamState → StreamState
  /-- `STR_EXTRACT` (46 R265). -/
  strExtract : Vector Word 8 → Vector Word 4
  /-- `BUF_CAP`. -/
  bufCap : Nat
  /-- 00 R8: `BUF_CAP` is at least 32. -/
  bufCap_ge : 32 ≤ bufCap
  /-- 00 R8, 10 R37: `BUF_CAP` is at most 65504. -/
  bufCap_le : bufCap ≤ 65504

/-! ## Values without a default, and free values -/

/-- `FEI_SBOX` of this hardware: open, no default (D10, log 8). Nothing is known of it. -/
opaque feiSbox : Fin 8 → Nibble → Nibble
/-- `SPN_SBOX` of this hardware: open, no default, each a permutation (D20, log 9). -/
opaque spnSbox : Fin 8 → Equiv.Perm Nibble
/-- `SPN_IP` of this hardware: open, no default, a permutation (D21, log 9). -/
opaque spnIp : Equiv.Perm (Fin 128)
/-- `SPN_LINV` of this hardware: open, no default, under no law (D24, log 10). -/
opaque spnLinv : Word → Word
/-- The bytes `RNG` gives (10 R51, 93 U3, log 5): the free value of the n-th byte drawn since the start of the run. -/
opaque rngByte : Nat → Byte
/-- What a host read of a `DOUTBUF` byte at or beyond `DOUTLEN` returns (10 R32, 93 U1, log 6): the free value of the
n-th such read since the start of the run. -/
opaque staleByte : Nat → Byte

end Sys2Proof.Config
end

