-- ==== Sys2Proof/Machine/Bits.lean ====
section
/-! DEFINITION. The BitWord primitives (00 R15 to R20), the packing of bytes and words in either byte order (20 R72), the nibble
substitution both block units share, and exclusive or of byte strings (00 R10). -/

namespace Sys2Proof.Machine

open Config (ByteOrder)

/-- 00 R15: `rotl_n(x, r)`, the bits moved left by `r mod n` and those shifted out brought in below. -/
def rotl {n : Nat} (x : BitVec n) (r : Nat) : BitVec n :=
  BitVec.ofNat n (x.toNat * 2 ^ (r % n) % 2 ^ n + x.toNat / 2 ^ (n - r % n))

/-- 00 R16: `rotr_n(x, r)`. -/
def rotr {n : Nat} (x : BitVec n) (r : Nat) : BitVec n := rotl x (n - r % n)

/-- 00 R18: `shl_32`. -/
def shl (x : Word) (r : Nat) : Word := x <<< r

/-- 00 R18: `shr_32`, logical. -/
def shr (x : Word) (r : Nat) : Word := x >>> r

/-- Byte i of a byte string; a position beyond its end is not read by any rule. -/
def byteAt (b : Bytes) (i : Nat) : Byte := b.getD i 0

/-- 00 R20: `be32` of the first four bytes. -/
def be32 (b : Bytes) : Word := byteAt b 0 ++ byteAt b 1 ++ byteAt b 2 ++ byteAt b 3

/-- 00 R20: `le32` of the first four bytes. -/
def le32 (b : Bytes) : Word := byteAt b 3 ++ byteAt b 2 ++ byteAt b 1 ++ byteAt b 0

/-- 00 R20: `le16` of the first two bytes. -/
def le16 (b : Bytes) : BitVec 16 := byteAt b 1 ++ byteAt b 0

/-- 00 R20: `to_be32`. -/
def toBe32 (w : Word) : Bytes :=
  [w.extractLsb' 24 8, w.extractLsb' 16 8, w.extractLsb' 8 8, w.extractLsb' 0 8]

/-- 00 R20: `to_le32`. -/
def toLe32 (w : Word) : Bytes :=
  [w.extractLsb' 0 8, w.extractLsb' 8 8, w.extractLsb' 16 8, w.extractLsb' 24 8]

/-- 20 R72: four bytes as a word, in the byte order of the unit. -/
def packWord : ByteOrder → Bytes → Word
  | .big => be32
  | .little => le32

/-- 20 R72: a word as four bytes, in the byte order of the unit. -/
def unpackWord : ByteOrder → Word → Bytes
  | .big => toBe32
  | .little => toLe32

/-- Word j of a byte string: its bytes 4j to 4j+3 packed. -/
def wordAt (o : ByteOrder) (b : Bytes) (j : Nat) : Word := packWord o (b.drop (4 * j))

/-- A sequence of words as bytes, first word first. -/
def wordsToBytes (o : ByteOrder) (ws : List Word) : Bytes := ws.flatMap (unpackWord o)

/-- 00 R10: the bytewise exclusive or of two byte strings of equal length. -/
def xorBytes (a b : Bytes) : Bytes := List.zipWith (· ^^^ ·) a b

/-- Nibble j of a word: bits 4j+3 to 4j. -/
def nibbleAt (x : Word) (j : Nat) : Nibble := x.extractLsb' (4 * j) 4

/-- 41 R133, 43 R184: every nibble j of a word replaced through the table t j. -/
def subNibbles (t : Fin 8 → Nibble → Nibble) (x : Word) : Word :=
  t 7 (nibbleAt x 7) ++ t 6 (nibbleAt x 6) ++ t 5 (nibbleAt x 5) ++ t 4 (nibbleAt x 4) ++
  t 3 (nibbleAt x 3) ++ t 2 (nibbleAt x 2) ++ t 1 (nibbleAt x 1) ++ t 0 (nibbleAt x 0)

/-- The element of a four-word array at a two-bit index (44 R229 `sum and 3`, 45 R244 `(p and 3) xor e`). -/
def pick4 (k : Vector Word 4) (i : BitVec 2) : Word := k[i.toNat]'i.isLt

end Sys2Proof.Machine
end

