-- ==== Sys2Proof/Machine/Chaining.lean ====
section
/-! DEFINITION. The chaining layer (42 R150), over any block function: each mode takes the blocks of a message and gives the bytes of
its output. The chaining state lives inside one command only (10 R50). -/

namespace Sys2Proof.Machine

/-- 42 R152, 43 R201: every block transformed on its own. -/
def ecb (f : Bytes → Bytes) (bs : List Bytes) : Bytes := bs.flatMap f

/-- 42 R155, 43 R204: each block is combined with `PREV`, then encrypted; the ciphertext is the next `PREV`. -/
def cbcEnc (e : Bytes → Bytes) : Bytes → List Bytes → Bytes
  | _, [] => []
  | prev, b :: bs => e (xorBytes b prev) ++ cbcEnc e (e (xorBytes b prev)) bs

/-- 42 R156, 43 R205: each block is decrypted, then combined with `PREV`; the block itself is the next `PREV`. -/
def cbcDec (d : Bytes → Bytes) : Bytes → List Bytes → Bytes
  | _, [] => []
  | prev, c :: cs => xorBytes (d c) prev ++ cbcDec d c cs

/-- A block combined with the first bytes of a keystream block (42 R157, 46 R268): a short last block is truncated. -/
def xorKeystream (b ks : Bytes) : Bytes := xorBytes b (ks.take b.length)

/-- 42 R158: `PREV` is encrypted to a keystream block; the output block is the next `PREV`. -/
def cfbEnc (e : Bytes → Bytes) : Bytes → List Bytes → Bytes
  | _, [] => []
  | prev, b :: bs => xorKeystream b (e prev) ++ cfbEnc e (xorKeystream b (e prev)) bs

/-- 42 R159: as encryption, but the input block is the next `PREV`. -/
def cfbDec (e : Bytes → Bytes) : Bytes → List Bytes → Bytes
  | _, [] => []
  | prev, c :: cs => xorKeystream c (e prev) ++ cfbDec e c cs

/-- 42 R160, R163: keystream block i is the encryption of the nonce followed by the 32-bit counter, big-endian, which goes up
by 1 per block and wraps. -/
def ctrMode (e : Bytes → Bytes) (nonce : Bytes) : Word → List Bytes → Bytes
  | _, [] => []
  | ctr, b :: bs => xorKeystream b (e (nonce ++ toBe32 ctr)) ++ ctrMode e nonce (ctr + 1) bs

end Sys2Proof.Machine
end

