-- ==== Sys2Proof/Machine/Feistel.lean ====
section
/-! DEFINITION. The round machinery and the block functions of `FEI` (41 R132 to R137), for any parameters. -/

namespace Sys2Proof.Machine

open Config (Params)

/-- 41 R131: the eight subkeys of a 32-byte key. -/
def feiSchedule (key : Bytes) : Vector Word 8 := Vector.ofFn fun j => wordAt .big key j.val

/-- 41 R132: the index of the subkey of round i: forward for the first 24 rounds, then reversed. -/
def feiKeyIndex (i : Nat) : Fin 8 :=
  if i < 24 then ⟨i % 8, Nat.mod_lt _ (by decide)⟩ else ⟨7 - i % 8, by omega⟩

/-- 41 R132: `FEI_RK(i)`. -/
def feiRoundKey (sk : Vector Word 8) (i : Nat) : Word := sk[feiKeyIndex i]

/-- 41 R133: `FEI_SUB`. -/
def feiSub (P : Params) (x : Word) : Word := subNibbles (fun j => P.feiSbox (P.feiNibbleOrder j)) x

/-- 41 R134: `FEI_F`. -/
def feiF (P : Params) (r k : Word) : Word := rotl (feiSub P (r + k)) Config.feiRot

/-- 41 R136: one encryption round on (L, R). -/
def feiEncRound (P : Params) (k : Word) (h : Word × Word) : Word × Word := (h.2, h.1 ^^^ feiF P h.2 k)

/-- 41 R137: one decryption round on (L, R). -/
def feiDecRound (P : Params) (k : Word) (h : Word × Word) : Word × Word := (h.2 ^^^ feiF P h.1 k, h.1)

/-- 41 R136: the two halves of a block. -/
def feiSplit (P : Params) (b : Bytes) : Word × Word :=
  (wordAt P.feiHalfOrder b 0, wordAt P.feiHalfOrder b 1)

/-- 41 R136: the block of two halves. -/
def feiJoin (P : Params) (h : Word × Word) : Bytes :=
  unpackWord P.feiHalfOrder h.1 ++ unpackWord P.feiHalfOrder h.2

/-- 41 R136, R137: the exchange that `FEI_FINAL_SWAP` asks for. -/
def feiSwap (P : Params) (h : Word × Word) : Word × Word := if P.feiFinalSwap then (h.2, h.1) else h

/-- 41 R136: the rounds of `FEI_E`. -/
def feiEncRounds (P : Params) (sk : Vector Word 8) (h : Word × Word) : Word × Word :=
  (List.range Config.feiRounds).foldl (fun h i => feiEncRound P (feiRoundKey sk i) h) h

/-- 41 R137: the rounds of `FEI_D`, round i with the subkey of encryption round 31 - i. -/
def feiDecRounds (P : Params) (sk : Vector Word 8) (h : Word × Word) : Word × Word :=
  (List.range Config.feiRounds).foldl (fun h i => feiDecRound P (feiRoundKey sk (31 - i)) h) h

/-- 41 R136: `FEI_E(B)`. -/
def feiE (P : Params) (sk : Vector Word 8) (b : Bytes) : Bytes :=
  feiJoin P (feiSwap P (feiEncRounds P sk (feiSplit P b)))

/-- 41 R137: `FEI_D(B)`. -/
def feiD (P : Params) (sk : Vector Word 8) (b : Bytes) : Bytes :=
  feiJoin P (feiDecRounds P sk (feiSwap P (feiSplit P b)))

end Sys2Proof.Machine
end

