-- ==== Sys2Proof/Machine/State.lean ====
section
/-! DEFINITION. The state of the hardware (10 R30: the list there is complete), plus the model's own four fields; the state after
reset (10 R55); and why a step can stop. -/

namespace Sys2Proof.Machine

open Config (StreamState)

/-- One operand space (20 R70): the bytes at rising offsets that differ from `unlistedByte`. -/
abbrev Memory := List Host.Cell

/-- What an offset that a `Memory` does not list holds: the zero byte that 10 R55 gives `KEYBUF`, `IVBUF` and `DINBUF`
(DESIGN CHOICE for `DOUTBUF`, log 4). -/
abbrev unlistedByte : Byte := 0#8

/-- The one canonical form of a memory: offsets strictly rising, no cell equal to what an unlisted offset holds. -/
abbrev Memory.wf (m : Memory) : Prop :=
  m.Pairwise (fun c d => c.1 < d.1) ∧ ∀ c ∈ m, c.2 ≠ unlistedByte

/-- A memory that lists nothing at or beyond a capacity. -/
abbrev Memory.within (m : Memory) (cap : Nat) : Prop := ∀ c ∈ m, c.1 < cap

/-- 10 R41: the `FEI` context, with its `KEYED` flag (10 R40). -/
structure FeiContext where
  keyed : Bool
  sk : Vector Word 8
deriving DecidableEq, Repr

/-- 10 R42: the `SPN` context. -/
structure SpnContext where
  keyed : Bool
  rk : Vector (Vector Word 4) 33
deriving DecidableEq, Repr

/-- 10 R43 to R45: the context of `TEA`, of `XTEA` and of `XXT`, one each. -/
structure ArxContext where
  keyed : Bool
  k : Vector Word 4
deriving DecidableEq, Repr

/-- 10 R46: the `STR` context. -/
structure StrContext where
  keyed : Bool
  st : StreamState
deriving DecidableEq, Repr

/-- 10 R30: the complete state of the hardware, and four fields of the model's own. -/
structure State where
  /-- 10 R34: the last value written to `CMD`. -/
  cmd : Word
  /-- 10 R35: `STATUS.ERR`, bits 3:0. -/
  err : BitVec 4
  /-- 10 R36: `KEYLEN`. -/
  keyLen : Nat
  /-- 10 R36: `IVLEN`. -/
  ivLen : Nat
  /-- 10 R36: `DINLEN`. -/
  dinLen : Nat
  /-- 10 R36: `DOUTLEN`. -/
  doutLen : Nat
  /-- 10 R31: `KEYBUF`. -/
  keyBuf : Memory
  /-- 10 R31: `IVBUF`. -/
  ivBuf : Memory
  /-- 10 R31: `DINBUF`. -/
  dinBuf : Memory
  /-- 10 R31: `DOUTBUF`. -/
  doutBuf : Memory
  /-- 10 R41 and `STATUS.KEYED[0]`. -/
  fei : FeiContext
  /-- 10 R42 and `STATUS.KEYED[1]`. -/
  spn : SpnContext
  /-- 10 R43 and `STATUS.KEYED[2]`. -/
  tea : ArxContext
  /-- 10 R44 and `STATUS.KEYED[3]`. -/
  xtea : ArxContext
  /-- 10 R45 and `STATUS.KEYED[4]`. -/
  xxt : ArxContext
  /-- 10 R46 and `STATUS.KEYED[5]`. -/
  str : StrContext
  /-- The model's own: what the host is yet to do, oldest first (20 R80, log 1). -/
  pending : List Input
  /-- The model's own: what the access just made returned to the host (log 2). -/
  response : Option Word
  /-- The model's own: how many bytes `RNG` has given (10 R51, log 5). -/
  draws : Nat
  /-- The model's own: how many `DOUTBUF` bytes at or beyond `DOUTLEN` were read (10 R32, log 6). -/
  staleReads : Nat
deriving DecidableEq, Repr

/-- Why the machine stops with a fault: it never does, so there is no constructor. An error of 60 R281 is a next state (60 R284),
and a host access outside the interface is refused (20 R73). -/
inductive Fault
deriving DecidableEq, Repr

/-- Why a step has no meaning. -/
inductive Refusal where
  /-- Raised by `exec` for a command that has no meaning yet. Safe: no next state. -/
  | notModelled (mnemonic : String)
  /-- Raised by a host access that 20 R73 puts outside the interface ("a model refuses it", 92 D1, 93 U4): by its width or
  alignment, or because it lies in no window of the map (log 18). Safe: no next state. -/
  | outsideInterface (size : AccessSize) (offset : Nat)
deriving DecidableEq, Repr

/-- How a step of this machine ends. -/
abbrev Outcome := Host.Outcome State Fault Refusal

/-- Four words of zero: a context register of which 10 R55 says nothing (log 3). -/
def zeroWords4 : Vector Word 4 := #v[0, 0, 0, 0]

/-- Eight words of zero (log 3). -/
def zeroWords8 : Vector Word 8 := #v[0, 0, 0, 0, 0, 0, 0, 0]

/-- 10 R55, 70 R310: the machine right after reset. `CMD`, `STATUS`, the lengths and the three input buffers are the spec's;
`DOUTBUF` and the contexts' words are DESIGN CHOICE (logs 3, 4); the last four fields are the model's (log 7). -/
def State.reset : State where
  cmd := 0
  err := 0
  keyLen := 0
  ivLen := 0
  dinLen := 0
  doutLen := 0
  keyBuf := []
  ivBuf := []
  dinBuf := []
  doutBuf := []
  fei := { keyed := false, sk := zeroWords8 }
  spn := { keyed := false, rk := Vector.replicate 33 zeroWords4 }
  tea := { keyed := false, k := zeroWords4 }
  xtea := { keyed := false, k := zeroWords4 }
  xxt := { keyed := false, k := zeroWords4 }
  str := { keyed := false, st := { x := zeroWords8, a := zeroWords8, c := zeroWords8, carry := 0 } }
  pending := []
  response := none
  draws := 0
  staleReads := 0

end Sys2Proof.Machine
end

