-- ==== Sys2Proof/Machine/Flags.lean ====
section
/-! DEFINITION. The error causes and their codes (60 R281), the `KEYED` flags, and the `STATUS` word (10 R35): `ERR` is the only
flag of the hardware. -/

namespace Sys2Proof.Machine

/-- The six errors a command can raise (00 R13, 60 R281). -/
inductive ErrorKind where
  /-- 60 R282. -/
  | keyLength
  /-- 60 R283. -/
  | blockAlignment
  /-- 60 R285. -/
  | ivLength
  /-- 60 R288. -/
  | illegalCommand
  /-- 60 R289. -/
  | notKeyed
  /-- 60 R287. -/
  | padding
deriving DecidableEq, Repr

/-- 60 R281: the code of an error. -/
def errorCode : ErrorKind → BitVec 4
  | .keyLength => 1
  | .blockAlignment => 2
  | .ivLength => 3
  | .illegalCommand => 4
  | .notKeyed => 5
  | .padding => 6

/-- 10 R35: `KEYED[u]`. -/
def keyedFlag (s : State) : CipherUnit → Bool
  | .fei => s.fei.keyed
  | .spn => s.spn.keyed
  | .tea => s.tea.keyed
  | .xtea => s.xtea.keyed
  | .xxt => s.xxt.keyed
  | .str => s.str.keyed

/-- 10 R35: `KEYED[5..0]`, bits 13:8 of `STATUS`. -/
def keyedBits (s : State) : BitVec 6 :=
  BitVec.ofBool (keyedFlag s .str) ++ BitVec.ofBool (keyedFlag s .xxt) ++ BitVec.ofBool (keyedFlag s .xtea) ++
  BitVec.ofBool (keyedFlag s .tea) ++ BitVec.ofBool (keyedFlag s .spn) ++ BitVec.ofBool (keyedFlag s .fei)

/-- 10 R35: `STATUS` as the host reads it; bits 31:14 and 7:4 read as 0. -/
def statusWord (s : State) : Word := 0#18 ++ keyedBits s ++ 0#4 ++ s.err

end Sys2Proof.Machine
end

