-- ==== Sys2Proof/Machine/Ops.lean ====
section
/-! DEFINITION. The named operations over the operand spaces and the registers: bytes of a memory, `MemRead` and `MemWrite`
(00 R12), the draw (10 R51), what `raise` does (60 R284) and what completing a command does (30 R101). The hardware has no
handler and no return from one (60 R284, R294), so nothing stands beside `raise`. -/

namespace Sys2Proof.Machine

/-! ## Bytes of one memory -/

/-- The byte at an offset. -/
def Memory.read : Memory → Nat → Byte
  | [], _ => unlistedByte
  | (k, b) :: m, a => if k = a then b else Memory.read m a

/-- Store a byte at an offset, keeping the canonical form. -/
def Memory.write : Memory → Nat → Byte → Memory
  | [], a, b => if b = unlistedByte then [] else [(a, b)]
  | (k, c) :: m, a, b =>
    if a < k then (if b = unlistedByte then (k, c) :: m else (a, b) :: (k, c) :: m)
    else if a = k then (if b = unlistedByte then m else (a, b) :: m)
    else (k, c) :: Memory.write m a b

/-- The n bytes from an offset on. -/
def Memory.readBytes (m : Memory) (o n : Nat) : Bytes := (List.range n).map fun i => m.read (o + i)

/-- Store a byte string from an offset on. -/
def Memory.writeBytes : Memory → Nat → Bytes → Memory
  | m, _, [] => m
  | m, o, b :: bs => Memory.writeBytes (m.write o b) (o + 1) bs

/-! ## The four operand spaces -/

/-- The buffer of an operand space (10 R31). -/
def bufOf (s : State) : Space → Memory
  | .key => s.keyBuf
  | .iv => s.ivBuf
  | .din => s.dinBuf
  | .dout => s.doutBuf

/-- The length register of an operand space (10 R31). -/
def lenOf (s : State) : Space → Nat
  | .key => s.keyLen
  | .iv => s.ivLen
  | .din => s.dinLen
  | .dout => s.doutLen

/-- The capacity of an operand space (10 R31). -/
def capOf (P : Config.Params) : Space → Nat
  | .key => Config.keyCap
  | .iv => Config.ivCap
  | .din => P.bufCap
  | .dout => P.bufCap + Config.doutExtra

/-- Replace the buffer of an operand space. -/
def setBuf (s : State) (sp : Space) (m : Memory) : State :=
  match sp with
  | .key => { s with keyBuf := m }
  | .iv => { s with ivBuf := m }
  | .din => { s with dinBuf := m }
  | .dout => { s with doutBuf := m }

/-- Write the length register of an operand space. -/
def setLen (s : State) (sp : Space) (n : Nat) : State :=
  match sp with
  | .key => { s with keyLen := n }
  | .iv => { s with ivLen := n }
  | .din => { s with dinLen := n }
  | .dout => { s with doutLen := n }

/-- 00 R12: `MemRead(S, o, n)`. -/
def memRead (s : State) (sp : Space) (o n : Nat) : Bytes := (bufOf s sp).readBytes o n

/-- 00 R12: `MemWrite(S, o, len(v), v)`. -/
def memWrite (s : State) (sp : Space) (o : Nat) (v : Bytes) : State :=
  setBuf s sp ((bufOf s sp).writeBytes o v)

/-- Give an operand register a value: its bytes from offset 0, and its length register. -/
def putOperand (sp : Space) (v : Bytes) (s : State) : State := setLen (memWrite s sp 0 v) sp v.length

/-! ## The draw -/

/-- 10 R51: the n bytes `RNG(n)` gives when `d` bytes have been drawn before; a free value (log 5). -/
def rngBytes (d n : Nat) : Bytes := (List.range n).map fun i => Config.rngByte (d + i)

/-- 41 R131, 42 R151: an empty `KEY` or `IV` asks for `n` random bytes, which become its value. -/
def resolveOperand (sp : Space) (n : Nat) (s : State) : State :=
  if lenOf s sp = 0 then putOperand sp (rngBytes s.draws n) { s with draws := s.draws + n } else s

/-! ## How a command ends -/

/-- 60 R284: `raise E`. The code is recorded, there is no output, and nothing else changes. -/
def raise (e : ErrorKind) (s : State) : State := { s with err := errorCode e, doutLen := 0 }

/-- 30 R101 (4): a command that did not raise sets `STATUS.ERR` to 0. -/
def complete (s : State) : State := { s with err := 0 }

/-- A data command that completes with the output `out`. -/
def deliver (out : Bytes) (s : State) : State := complete (putOperand .dout out s)

end Sys2Proof.Machine
end

