-- ==== Sys2Proof/Machine/Operands.lean ====
section
/-! DEFINITION. The operand forms: the value of an operand register (10 R31), the blocks of a message (20 R77), and the place a
host access names in the map (10 R37, 20 R73). A command has no other operands (30 R100, R106). -/

namespace Sys2Proof.Machine

/-- 10 R31: the value of an operand register, the first `length` bytes of its buffer. -/
def operand (s : State) (sp : Space) : Bytes := memRead s sp 0 (lenOf s sp)

/-- 20 R77: the number of blocks of a message of `len` bytes, `ceil(len / B)`. -/
def blockCount (B len : Nat) : Nat := (len + (B - 1)) / B

/-- 20 R77: the blocks of a message for block size B, in ascending order; the last may be short. -/
def blocks (B : Nat) (msg : Bytes) : List Bytes :=
  (List.range (blockCount B msg.length)).map fun i => (msg.drop (B * i)).take B

/-! ## Host addressing -/

/-- 10 R34 to R36: the register at a number. -/
def registerOfNumber : Nat → Option Register
  | 0 => some .cmd
  | 1 => some .status
  | 2 => some .keyLen
  | 3 => some .ivLen
  | 4 => some .dinLen
  | 5 => some .doutLen
  | _ => none

/-- What a single byte offset of the map belongs to (10 R37). -/
inductive Region where
  | register (r : Register)
  | buffer (sp : Space) (o : Nat)
  /-- A reserved offset of a buffer window, above its buffer. -/
  | aboveBuffer
  /-- A reserved offset in no buffer window. -/
  | reserved
  | outside
deriving DecidableEq, Repr

/-- 10 R37: the map. The windows of `DINBUF` and of `DOUTBUF` are 0x10000 offsets each, and the offsets above the buffer are
reserved; an offset at or above 0x30000 is in no window (log 18). -/
def regionOf (P : Config.Params) (a : Nat) : Region :=
  if a < 0x40 then
    match registerOfNumber (a / 4) with
    | some r => .register r
    | none => .reserved
  else if a < 0x80 then .buffer .key (a - 0x40)
  else if a < 0xA0 then .buffer .iv (a - 0x80)
  else if a < 0x10000 then .reserved
  else if a < 0x20000 then (if a - 0x10000 < P.bufCap then .buffer .din (a - 0x10000) else .aboveBuffer)
  else if a < 0x30000 then (if a - 0x20000 < P.bufCap + Config.doutExtra then .buffer .dout (a - 0x20000) else .aboveBuffer)
  else .outside

/-- What a host access reaches. -/
inductive Target where
  /-- A control register, as one aligned 32-bit value. -/
  | register (r : Register)
  /-- A buffer byte. -/
  | buffer (sp : Space) (o : Nat)
  /-- Reserved offsets only: read as 0, write ignored. -/
  | reserved
  /-- Outside the interface (20 R73). -/
  | unsupported
deriving DecidableEq, Repr

/-- The offsets an access covers. -/
def coveredOffsets (size : AccessSize) (offset : Nat) : List Nat := (List.range size.bytes).map (offset + ·)

/-- 10 R37, 20 R73: where an access of a width at an offset goes. A control register takes an aligned 32-bit value, a buffer window,
its reserved offsets included, one byte; reserved offsets in no window have no width of their own (log 17). -/
def targetOf (P : Config.Params) (size : AccessSize) (offset : Nat) : Target :=
  if (coveredOffsets size offset).all fun a => regionOf P a = .reserved then .reserved
  else
    match regionOf P offset with
    | .register r => if registerAccessOk size offset then .register r else .unsupported
    | .buffer sp o => if bufferAccessOk size then .buffer sp o else .unsupported
    | .aboveBuffer => if bufferAccessOk size then .reserved else .unsupported
    | .reserved | .outside => .unsupported

end Sys2Proof.Machine
end

