-- ==== Sys2Proof/Machine/Arx.lean ====
section
/-! DEFINITION. The fixed-block ARX units `TEA` and `XTEA` (44 R222 to R229): the default mixes and, for any parameters, the block
functions. -/

namespace Sys2Proof.Machine

open Config (Params ArxState ArxMix)

/-- 44 R221, R227: the four subkeys of a 16-byte key, big-endian. -/
def arxSchedule (key : Bytes) : Vector Word 4 := Vector.ofFn fun j => wordAt .big key j.val

/-- 44 R224: what an update adds to or subtracts from a half: `((w << 4) + a) xor (w + sum) xor ((w >> 5) + b)`. -/
def teaTerm (w sum a b : Word) : Word := (shl w 4 + a) ^^^ (w + sum) ^^^ (shr w 5 + b)

/-- 44 R224: one encryption round of the default `TEA_MIX`. -/
def teaEncRound (delta : Word) (k : Vector Word 4) (s : ArxState) : ArxState :=
  let sum := s.sum + delta
  let v0 := s.v0 + teaTerm s.v1 sum k[0] k[1]
  { v0 := v0, v1 := s.v1 + teaTerm v0 sum k[2] k[3], sum := sum }

/-- 44 R224: one decryption round of the default `TEA_MIX`. -/
def teaDecRound (delta : Word) (k : Vector Word 4) (s : ArxState) : ArxState :=
  let v1 := s.v1 - teaTerm s.v0 s.sum k[2] k[3]
  { v0 := s.v0 - teaTerm v1 s.sum k[0] k[1], v1 := v1, sum := s.sum - delta }

/-- 44 R224: the default `TEA_MIX` (D31). -/
def teaMixDefault : ArxMix := { enc := teaEncRound, dec := teaDecRound }

/-- 44 R229: what an update adds to or subtracts from a half: `(((w << 4) xor (w >> 5)) + w) xor (sum + K[i])`. -/
def xteaTerm (w sum ki : Word) : Word := ((shl w 4 ^^^ shr w 5) + w) ^^^ (sum + ki)

/-- 44 R229: the index `sum and 3`. -/
def xteaIndexLow (sum : Word) : BitVec 2 := sum.extractLsb' 0 2

/-- 44 R229: the index `(sum >> 11) and 3`. -/
def xteaIndexHigh (sum : Word) : BitVec 2 := (shr sum 11).extractLsb' 0 2

/-- 44 R229: one encryption round of the default `XTEA_MIX`. -/
def xteaEncRound (delta : Word) (k : Vector Word 4) (s : ArxState) : ArxState :=
  let v0 := s.v0 + xteaTerm s.v1 s.sum (pick4 k (xteaIndexLow s.sum))
  let sum := s.sum + delta
  { v0 := v0, v1 := s.v1 + xteaTerm v0 sum (pick4 k (xteaIndexHigh sum)), sum := sum }

/-- 44 R229: one decryption round of the default `XTEA_MIX`. -/
def xteaDecRound (delta : Word) (k : Vector Word 4) (s : ArxState) : ArxState :=
  let v1 := s.v1 - xteaTerm s.v0 s.sum (pick4 k (xteaIndexHigh s.sum))
  let sum := s.sum - delta
  { v0 := s.v0 - xteaTerm v1 sum (pick4 k (xteaIndexLow sum)), v1 := v1, sum := sum }

/-- 44 R229: the default `XTEA_MIX` (D31). -/
def xteaMixDefault : ArxMix := { enc := xteaEncRound, dec := xteaDecRound }

/-- 44 R223: a block as two halves, with the accumulator at a start value. -/
def arxSplit (P : Params) (sum : Word) (b : Bytes) : ArxState :=
  { v0 := wordAt P.arxHalfOrder b 0, v1 := wordAt P.arxHalfOrder b 1, sum := sum }

/-- 44 R223: the block of two halves. -/
def arxJoin (P : Params) (s : ArxState) : Bytes := unpackWord P.arxHalfOrder s.v0 ++ unpackWord P.arxHalfOrder s.v1

/-- n passes of a round. -/
def arxRounds (f : ArxState → ArxState) (n : Nat) (s : ArxState) : ArxState := (List.range n).foldl (fun s _ => f s) s

/-- 44 R224, R229: the value of the accumulator after n rounds, from which decryption starts. -/
def arxFinalSum (delta : Word) (n : Nat) : Word := BitVec.ofNat 32 n * delta

/-- 44 R224: `TEA_E(B)`. -/
def teaE (P : Params) (k : Vector Word 4) (b : Bytes) : Bytes :=
  arxJoin P (arxRounds (P.teaMix.enc P.teaDelta k) P.teaRounds (arxSplit P 0 b))

/-- 44 R224: `TEA_D(B)`. -/
def teaD (P : Params) (k : Vector Word 4) (b : Bytes) : Bytes :=
  arxJoin P (arxRounds (P.teaMix.dec P.teaDelta k) P.teaRounds (arxSplit P (arxFinalSum P.teaDelta P.teaRounds) b))

/-- 44 R229: `XTEA_E(B)`. -/
def xteaE (P : Params) (k : Vector Word 4) (b : Bytes) : Bytes :=
  arxJoin P (arxRounds (P.xteaMix.enc P.teaDelta k) P.xteaRounds (arxSplit P 0 b))

/-- 44 R229: `XTEA_D(B)`. -/
def xteaD (P : Params) (k : Vector Word 4) (b : Bytes) : Bytes :=
  arxJoin P (arxRounds (P.xteaMix.dec P.teaDelta k) P.xteaRounds (arxSplit P (arxFinalSum P.teaDelta P.xteaRounds) b))

end Sys2Proof.Machine
end

