-- ==== Sys2Proof/Machine/Stream.lean ====
section
/-! DEFINITION. The word-stream unit `STR`: the default functions (46 R263 to R266) and, for any parameters, the key setup and the
keystream (46 R261, R267, R268). -/

namespace Sys2Proof.Machine

open Config (Params StreamState)

/-- 46 R263: the 16-bit subkey k[i mod 8]. -/
def strSubkey (key : Bytes) (i : Nat) : BitVec 16 := le16 (key.drop (2 * (i % 8)))

/-- 46 R263: the eight constants of A. -/
def strAConstants : Vector Word 8 :=
  #v[0x4D34D34D, 0xD34D34D3, 0x34D34D34, 0x4D34D34D, 0xD34D34D3, 0x34D34D34, 0x4D34D34D, 0xD34D34D3]

/-- 46 R263: X[j] before the setup cycles. -/
def strSetupX (key : Bytes) (j : Nat) : Word :=
  if j % 2 = 0 then strSubkey key (j + 1) ++ strSubkey key j else strSubkey key (j + 5) ++ strSubkey key (j + 4)

/-- 46 R263: C[j] before the setup cycles. -/
def strSetupC (key : Bytes) (j : Nat) : Word :=
  if j % 2 = 0 then strSubkey key (j + 4) ++ strSubkey key (j + 5) else strSubkey key j ++ strSubkey key (j + 1)

/-- 46 R263: the default `STR_SETUP` up to the cycles. -/
def strSetupDefault (key : Bytes) : StreamState where
  x := Vector.ofFn fun j => strSetupX key j.val
  a := strAConstants
  c := Vector.ofFn fun j => strSetupC key j.val
  carry := 0

/-- 46 R263: the default final step: `C[j] <- C[j] xor X[(j+4) mod 8]`. -/
def strSetupFinalDefault (s : StreamState) : StreamState :=
  { s with c := Vector.ofFn fun j => s.c[j] ^^^ s.x[(j.val + 4) % 8]'(Nat.mod_lt _ (by decide)) }

/-- 46 R264: the 33-bit sum of counter j, given the carry into it. -/
def strCounterSum (s : StreamState) (j : Fin 8) (b : Nat) : Nat := s.c[j].toNat + s.a[j].toNat + b

/-- 46 R264: the carry into counter j, `CARRY` for j = 0 and the overflow of the sum before it otherwise. -/
def strCarryInto (s : StreamState) : Nat → Nat
  | 0 => s.carry.toNat
  | j + 1 => strCounterSum s ⟨j % 8, Nat.mod_lt _ (by decide)⟩ (strCarryInto s j) / 2 ^ 32

/-- 46 R264: the new counters. -/
def strNextC (s : StreamState) : Vector Word 8 :=
  Vector.ofFn fun j => BitVec.ofNat 32 (strCounterSum s j (strCarryInto s j.val))

/-- 46 R264: the g-value, the exclusive or of the two halves of a 64-bit square. -/
def strG (u : Word) : Word := BitVec.ofNat 32 (u.toNat * u.toNat % 2 ^ 32) ^^^ BitVec.ofNat 32 (u.toNat * u.toNat / 2 ^ 32)

/-- 46 R264: the new X from the eight g-values. -/
def strMixG (g : Vector Word 8) : Vector Word 8 :=
  #v[g[0] + rotl g[7] 16 + rotl g[6] 16,
     g[1] + rotl g[0] 8 + g[7],
     g[2] + rotl g[1] 16 + rotl g[0] 16,
     g[3] + rotl g[2] 8 + g[1],
     g[4] + rotl g[3] 16 + rotl g[2] 16,
     g[5] + rotl g[4] 8 + g[3],
     g[6] + rotl g[5] 16 + rotl g[4] 16,
     g[7] + rotl g[6] 8 + g[5]]

/-- 46 R264: the default `STR_CYCLE`; A is not changed. -/
def strCycleDefault (s : StreamState) : StreamState :=
  let next := strNextC s
  { x := strMixG (Vector.ofFn fun j => strG (s.x[j] + next[j]))
    a := s.a
    c := next
    carry := BitVec.ofNat 1 (strCarryInto s 8) }

/-- 46 R265: the default `STR_EXTRACT`. -/
def strExtractDefault (x : Vector Word 8) : Vector Word 4 :=
  #v[x[0] ^^^ shr x[5] 16 ^^^ shl x[3] 16,
     x[2] ^^^ shr x[7] 16 ^^^ shl x[5] 16,
     x[4] ^^^ shr x[1] 16 ^^^ shl x[7] 16,
     x[6] ^^^ shr x[3] 16 ^^^ shl x[1] 16]

/-- n cycles. -/
def strCycles (P : Params) (n : Nat) (s : StreamState) : StreamState := (List.range n).foldl (fun s _ => P.strCycle s) s

/-- 46 R261: the context `STR.INIT` leaves for a 16-byte key. -/
def strSchedule (P : Params) (key : Bytes) : StreamState :=
  P.strSetupFinal (strCycles P Config.strSetupCycles (P.strSetup key))

/-- 46 R266, R267: the 16 keystream bytes of a state, taken after its cycle. -/
def strKeystream (P : Params) (s : StreamState) : Bytes := wordsToBytes .little (P.strExtract s.x).toList

/-- 46 R268: the output for the blocks of a message: one cycle a block, the last block truncated. -/
def strCrypt (P : Params) : StreamState → List Bytes → Bytes
  | _, [] => []
  | s, b :: bs =>
    xorKeystream b (strKeystream P (P.strCycle s)) ++ strCrypt P (P.strCycle s) bs

end Sys2Proof.Machine
end

