-- ==== Sys2Proof/Machine/Xxt.lean ====
section
/-! DEFINITION. The variable-word ARX unit `XXT` (45 R241 to R244). A pass updates the words in place, so the word before position p
is read in its new value and the word after it in its old one, as 45 R244 says of its carried `y` and `z` (log 14). -/

namespace Sys2Proof.Machine

open Config (Params)

/-- 45 R241: the four key words of a 16-byte key. -/
def xxtSchedule (P : Params) (key : Bytes) : Vector Word 4 := Vector.ofFn fun j => wordAt P.xxtWordOrder key j.val

/-- 45 R242: `XXT_PAD`. -/
def xxtPad (m : Bytes) : Bytes := m ++ List.replicate ((4 - m.length % 4) % 4) 0

/-- 45 R242: the words of a buffer whose length is a multiple of 4. -/
def xxtWords (P : Params) (m : Bytes) : List Word := (List.range (m.length / 4)).map fun p => wordAt P.xxtWordOrder m p

/-- 45 R243: the round count for n words. -/
def xxtRoundCount (n : Nat) : Nat := 6 + 52 / n

/-- 45 R244: the index `(p and 3) xor e`. -/
def xxtKeyIndex (p : Nat) (e : BitVec 2) : BitVec 2 := BitVec.ofNat 2 p ^^^ e

/-- 45 R244: `MX(sum, y, z, p, e)`. -/
def xxtMx (k : Vector Word 4) (sum y z : Word) (p : Nat) (e : BitVec 2) : Word :=
  ((shr z 5 ^^^ shl y 2) + (shr y 3 ^^^ shl z 4)) ^^^ ((sum ^^^ y) + (pick4 k (xxtKeyIndex p e) ^^^ z))

/-- The mix of position p of an array, with the neighbours and the `e` the parameters give. -/
def xxtMixAt (P : Params) (k : Vector Word 4) (sum : Word) (v : List Word) (p : Nat) : Word :=
  xxtMx k sum (v.getD (P.xxtNeighbours v.length p).1 0) (v.getD (P.xxtNeighbours v.length p).2 0) p (P.xxtE sum)

/-- 45 R244: one pass of encryption, positions 0 to n-1. -/
def xxtEncPass (P : Params) (k : Vector Word 4) (sum : Word) (v : List Word) : List Word :=
  (List.range v.length).foldl (fun v p => v.set p (v.getD p 0 + xxtMixAt P k sum v p)) v

/-- 45 R244: one pass of decryption, positions n-1 down to 0. -/
def xxtDecPass (P : Params) (k : Vector Word 4) (sum : Word) (v : List Word) : List Word :=
  (List.range v.length).reverse.foldl (fun v p => v.set p (v.getD p 0 - xxtMixAt P k sum v p)) v

/-- 45 R244: `XXT_E(v)`: pass i (from 0) has `sum = (i + 1) * XXT_DELTA`. -/
def xxtEncWords (P : Params) (k : Vector Word 4) (v : List Word) : List Word :=
  ((List.range (xxtRoundCount v.length)).foldl
    (fun st _ => (st.1 + Config.xxtDelta, xxtEncPass P k (st.1 + Config.xxtDelta) st.2)) ((0 : Word), v)).2

/-- 45 R244: `XXT_D(v)`: `sum` starts at `q * XXT_DELTA` and goes down after each pass. -/
def xxtDecWords (P : Params) (k : Vector Word 4) (v : List Word) : List Word :=
  ((List.range (xxtRoundCount v.length)).foldl
    (fun st _ => (st.1 - Config.xxtDelta, xxtDecPass P k st.1 st.2))
    (BitVec.ofNat 32 (xxtRoundCount v.length) * Config.xxtDelta, v)).2

/-- 45 R245: the buffer transformed; fewer than two words are a no-op. -/
def xxtE (P : Params) (k : Vector Word 4) (m : Bytes) : Bytes :=
  let v := xxtWords P m
  wordsToBytes P.xxtWordOrder (if Config.xxtMinWords ≤ v.length then xxtEncWords P k v else v)

/-- 45 R247: the buffer transformed back; fewer than two words are a no-op. -/
def xxtD (P : Params) (k : Vector Word 4) (m : Bytes) : Bytes :=
  let v := xxtWords P m
  wordsToBytes P.xxtWordOrder (if Config.xxtMinWords ≤ v.length then xxtDecWords P k v else v)

/-- 45 R244: the default `XXT_E`: `(sum >> 2) and 3` (D41). -/
def xxtEDefault (sum : Word) : BitVec 2 := (shr sum 2).extractLsb' 0 2

/-- 45 R244: the default `XXT_NEIGHBOURS`: `y` the next word and `z` the previous one, cyclically (D41). -/
def xxtNeighboursDefault (n p : Nat) : Nat × Nat := ((p + 1) % n, (p + (n - 1)) % n)

end Sys2Proof.Machine
end

