-- ==== Sys2Proof/Machine/Params.lean ====
section
/-! DEFINITION. The parameters of this machine (00 R8): the open constants where the spec takes no default, the spec's default
elsewhere (logs 8 to 15). -/

namespace Sys2Proof.Machine

/-- 00 R8: each parameter at its default, each one without a default at the open constant of `Config`. -/
def params : Config.Params where
  feiSbox := Config.feiSbox
  feiNibbleOrder := fun j => j
  feiHalfOrder := .big
  feiFinalSwap := false
  spnSbox := Config.spnSbox
  spnIp := Config.spnIp
  spnWordOrder := .little
  spnLinv := Config.spnLinv
  teaDelta := 0x9e3779b9
  teaRounds := 32
  xteaRounds := 64
  teaMix := teaMixDefault
  xteaMix := xteaMixDefault
  arxHalfOrder := .big
  xxtWordOrder := .little
  xxtE := xxtEDefault
  xxtNeighbours := xxtNeighboursDefault
  strSetup := strSetupDefault
  strSetupFinal := strSetupFinalDefault
  strCycle := strCycleDefault
  strExtract := strExtractDefault
  bufCap := 4096
  bufCap_ge := by decide
  bufCap_le := by decide

end Sys2Proof.Machine
end

