-- ==== Sys2Proof/Machine/FeiBlock.lean ====
section
/-! DEFINITION. Key load, shared by all units (60 R282), and the commands of 41_feistel.md: `FEI.INIT`, `FEI.ENCB`, `FEI.DECB`. -/

namespace Sys2Proof.Machine

open Config (Params)

/-- The frame of every `INIT` (41 R131, 43 R183, 44 R221, 45 R241, 46 R261): an empty key is drawn, the length is checked,
the context is loaded from the key, and there is no output. -/
def initUnit (randomLen : Nat) (lengths : List Nat) (load : Bytes → State → State) (s : State) : State :=
  let r := resolveOperand .key randomLen s
  if r.keyLen ∈ lengths then complete { load (operand r .key) r with doutLen := 0 } else raise .keyLength r

/-- The frame of the single-block commands (41 R135, 43 R190). -/
def singleBlock (keyed : Bool) (blockBytes : Nat) (f : Bytes → Bytes) (s : State) : State :=
  if keyed = false then raise .notKeyed s
  else if s.dinLen ≠ blockBytes then raise .blockAlignment s
  else deliver (f (memRead s .din 0 blockBytes)) s

/-- Load the `FEI` context (41 R131). -/
def loadFei (key : Bytes) (s : State) : State := { s with fei := { keyed := true, sk := feiSchedule key } }

/-- 41 R131: `FEI.INIT`. -/
def feiInit (s : State) : State := initUnit Config.feiKeyBytes [Config.feiKeyBytes] loadFei s

/-- 41 R135: `FEI.ENCB`. -/
def feiEncb (P : Params) (s : State) : State := singleBlock s.fei.keyed Config.feiBlockBytes (feiE P s.fei.sk) s

/-- 41 R138: `FEI.DECB`. -/
def feiDecb (P : Params) (s : State) : State := singleBlock s.fei.keyed Config.feiBlockBytes (feiD P s.fei.sk) s

/-- 41 R131, as a step of this machine. -/
def execFeiInit (s : State) : Outcome := .next (feiInit s)

/-- 41 R135, as a step of this machine. -/
def execFeiEncb (s : State) : Outcome := .next (feiEncb params s)

/-- 41 R138, as a step of this machine. -/
def execFeiDecb (s : State) : Outcome := .next (feiDecb params s)

end Sys2Proof.Machine
end

