-- ==== Sys2Proof/Machine/FeiModes.lean ====
section
/-! DEFINITION. The chaining commands of 42_feistel_modes.md. The checks come in the order of 42 R167; a random IV is drawn only when
all have passed. -/

namespace Sys2Proof.Machine

open Config (Params)

/-- The frame of the commands that transform whole blocks without an IV (42 R152, 44 R225). -/
def blockwise (keyed : Bool) (blockBytes : Nat) (f : Bytes → Bytes) (s : State) : State :=
  if keyed = false then raise .notKeyed s
  else if s.dinLen % blockBytes ≠ 0 then raise .blockAlignment s
  else deliver (ecb f (blocks blockBytes (operand s .din))) s

/-- 42 R151: the IV of an encrypting command is empty or has n bytes. -/
def ivAcceptedEnc (n : Nat) (s : State) : Bool := s.ivLen == 0 || s.ivLen == n

/-- 42 R151: the IV of a decrypting command has n bytes. -/
def ivAcceptedDec (n : Nat) (s : State) : Bool := s.ivLen == n

/-- The frame of the commands that take an IV (42 R167): the checks, then the IV resolved, then the data transformed from the IV and
the blocks of the message. `aligned` says whether the mode asks for whole blocks. -/
def chained (keyed ivOk aligned : Bool) (ivBytes blockBytes : Nat) (f : Bytes → List Bytes → Bytes) (s : State) : State :=
  if keyed = false then raise .notKeyed s
  else if ivOk = false then raise .ivLength s
  else if aligned = true ∧ s.dinLen % blockBytes ≠ 0 then raise .blockAlignment s
  else
    let r := resolveOperand .iv ivBytes s
    deliver (f (memRead r .iv 0 ivBytes) (blocks blockBytes (operand r .din))) r

/-- 42 R152: `FEI.ENC.ECB`. -/
def feiEncEcb (P : Params) (s : State) : State := blockwise s.fei.keyed Config.feiBlockBytes (feiE P s.fei.sk) s

/-- 42 R153: `FEI.DEC.ECB`. -/
def feiDecEcb (P : Params) (s : State) : State := blockwise s.fei.keyed Config.feiBlockBytes (feiD P s.fei.sk) s

/-- 42 R155: `FEI.ENC.CBC`. -/
def feiEncCbc (P : Params) (s : State) : State :=
  chained s.fei.keyed (ivAcceptedEnc Config.feiIvBytes s) true Config.feiIvBytes Config.feiBlockBytes (cbcEnc (feiE P s.fei.sk)) s

/-- 42 R156: `FEI.DEC.CBC`. -/
def feiDecCbc (P : Params) (s : State) : State :=
  chained s.fei.keyed (ivAcceptedDec Config.feiIvBytes s) true Config.feiIvBytes Config.feiBlockBytes (cbcDec (feiD P s.fei.sk)) s

/-- 42 R158: `FEI.ENC.CFB`. -/
def feiEncCfb (P : Params) (s : State) : State :=
  chained s.fei.keyed (ivAcceptedEnc Config.feiIvBytes s) false Config.feiIvBytes Config.feiBlockBytes (cfbEnc (feiE P s.fei.sk)) s

/-- 42 R159: `FEI.DEC.CFB`. -/
def feiDecCfb (P : Params) (s : State) : State :=
  chained s.fei.keyed (ivAcceptedDec Config.feiIvBytes s) false Config.feiIvBytes Config.feiBlockBytes (cfbDec (feiE P s.fei.sk)) s

/-- 42 R163: `FEI.ENC.CTR`; the counter starts at 0. -/
def feiEncCtr (P : Params) (s : State) : State :=
  chained s.fei.keyed (ivAcceptedEnc Config.feiNonceBytes s) false Config.feiNonceBytes Config.feiBlockBytes
    (fun nonce bs => ctrMode (feiE P s.fei.sk) nonce 0 bs) s

/-- 42 R164: `FEI.DEC.CTR`. -/
def feiDecCtr (P : Params) (s : State) : State :=
  chained s.fei.keyed (ivAcceptedDec Config.feiNonceBytes s) false Config.feiNonceBytes Config.feiBlockBytes
    (fun nonce bs => ctrMode (feiE P s.fei.sk) nonce 0 bs) s

/-- 42 R152, as a step of this machine. -/
def execFeiEncEcb (s : State) : Outcome := .next (feiEncEcb params s)

/-- 42 R153, as a step of this machine. -/
def execFeiDecEcb (s : State) : Outcome := .next (feiDecEcb params s)

/-- 42 R155, as a step of this machine. -/
def execFeiEncCbc (s : State) : Outcome := .next (feiEncCbc params s)

/-- 42 R156, as a step of this machine. -/
def execFeiDecCbc (s : State) : Outcome := .next (feiDecCbc params s)

/-- 42 R158, as a step of this machine. -/
def execFeiEncCfb (s : State) : Outcome := .next (feiEncCfb params s)

/-- 42 R159, as a step of this machine. -/
def execFeiDecCfb (s : State) : Outcome := .next (feiDecCfb params s)

/-- 42 R163, as a step of this machine. -/
def execFeiEncCtr (s : State) : Outcome := .next (feiEncCtr params s)

/-- 42 R164, as a step of this machine. -/
def execFeiDecCtr (s : State) : Outcome := .next (feiDecCtr params s)

end Sys2Proof.Machine
end

