-- ==== Sys2Proof/Machine/ArxCommands.lean ====
section
/-! DEFINITION. The commands of 44_arx_fixed.md (`TEA`, `XTEA`) and of 45_arx_variable.md (`XXT`). -/

namespace Sys2Proof.Machine

open Config (Params)

/-- Load the `TEA` context (44 R221). -/
def loadTea (key : Bytes) (s : State) : State := { s with tea := { keyed := true, k := arxSchedule key } }

/-- Load the `XTEA` context (44 R227). -/
def loadXtea (key : Bytes) (s : State) : State := { s with xtea := { keyed := true, k := arxSchedule key } }

/-- Load the `XXT` context (45 R241). -/
def loadXxt (P : Params) (key : Bytes) (s : State) : State := { s with xxt := { keyed := true, k := xxtSchedule P key } }

/-- 44 R221: `TEA.INIT`. -/
def teaInit (s : State) : State := initUnit Config.arxKeyBytes [Config.arxKeyBytes] loadTea s

/-- 44 R225: `TEA.ENC`; every block on its own, with `sum` restarted (D34). -/
def teaEnc (P : Params) (s : State) : State := blockwise s.tea.keyed Config.arxBlockBytes (teaE P s.tea.k) s

/-- 44 R226: `TEA.DEC`. -/
def teaDec (P : Params) (s : State) : State := blockwise s.tea.keyed Config.arxBlockBytes (teaD P s.tea.k) s

/-- 44 R227: `XTEA.INIT`. -/
def xteaInit (s : State) : State := initUnit Config.arxKeyBytes [Config.arxKeyBytes] loadXtea s

/-- 44 R230: `XTEA.ENC`. -/
def xteaEnc (P : Params) (s : State) : State := blockwise s.xtea.keyed Config.arxBlockBytes (xteaE P s.xtea.k) s

/-- 44 R231: `XTEA.DEC`. -/
def xteaDec (P : Params) (s : State) : State := blockwise s.xtea.keyed Config.arxBlockBytes (xteaD P s.xtea.k) s

/-- 45 R241: `XXT.INIT`. -/
def xxtInit (P : Params) (s : State) : State := initUnit Config.arxKeyBytes [Config.arxKeyBytes] (loadXxt P) s

/-- 45 R245: `XXT.ENC`; every length is accepted. -/
def xxtEnc (P : Params) (s : State) : State :=
  if s.xxt.keyed = false then raise .notKeyed s
  else deliver (xxtE P s.xxt.k (xxtPad (operand s .din))) s

/-- 45 R247: `XXT.DEC`; the padding is not removed. -/
def xxtDec (P : Params) (s : State) : State :=
  if s.xxt.keyed = false then raise .notKeyed s
  else if s.dinLen % 4 ≠ 0 then raise .blockAlignment s
  else deliver (xxtD P s.xxt.k (operand s .din)) s

/-- 44 R221, as a step of this machine. -/
def execTeaInit (s : State) : Outcome := .next (teaInit s)

/-- 44 R225, as a step of this machine. -/
def execTeaEnc (s : State) : Outcome := .next (teaEnc params s)

/-- 44 R226, as a step of this machine. -/
def execTeaDec (s : State) : Outcome := .next (teaDec params s)

/-- 44 R227, as a step of this machine. -/
def execXteaInit (s : State) : Outcome := .next (xteaInit s)

/-- 44 R230, as a step of this machine. -/
def execXteaEnc (s : State) : Outcome := .next (xteaEnc params s)

/-- 44 R231, as a step of this machine. -/
def execXteaDec (s : State) : Outcome := .next (xteaDec params s)

/-- 45 R241, as a step of this machine. -/
def execXxtInit (s : State) : Outcome := .next (xxtInit params s)

/-- 45 R245, as a step of this machine. -/
def execXxtEnc (s : State) : Outcome := .next (xxtEnc params s)

/-- 45 R247, as a step of this machine. -/
def execXxtDec (s : State) : Outcome := .next (xxtDec params s)

end Sys2Proof.Machine
end

