-- ==== Sys2Proof/Machine/Spn.lean ====
section
/-! DEFINITION. The key schedule, the block functions and the padding of `SPN` (43 R181 to R192, R200), for any parameters. -/

namespace Sys2Proof.Machine

open Config (Params)

/-- 43 R181: `SPN_PADKEY`. -/
def spnPadKey (key : Bytes) : Bytes :=
  if key.length = 32 then key else key ++ [0x01#8] ++ List.replicate (31 - key.length) 0

/-- 43 R182: prekey word i from the words before it. -/
def spnNextPrekey (w : List Word) (i : Nat) : Word :=
  rotl (w.getD (i - 8) 0 ^^^ w.getD (i - 5) 0 ^^^ w.getD (i - 3) 0 ^^^ w.getD (i - 1) 0 ^^^ Config.phi ^^^ BitVec.ofNat 32 (i - 8))
    Config.spnKsRot

/-- 43 R182: the prekey words W[0] to W[139] of a padded key. -/
def spnPrekeys (padded : Bytes) : List Word :=
  (List.range (Config.spnPrekeyWords - 8)).foldl (fun w i => w ++ [spnNextPrekey w (i + 8)])
    ((List.range 8).map fun j => wordAt .little padded j)

/-- The table of round r: `r mod 8` (43 R185, R189). -/
def spnTable (r : Nat) : Fin 8 := ⟨r % 8, Nat.mod_lt _ (by decide)⟩

/-- 43 R184: `SPN_NIB`. -/
def spnNib (P : Params) (s : Fin 8) (x : Word) : Word := subNibbles (fun _ => P.spnSbox s) x

/-- 43 R184: `SPN_NIBINV`. -/
def spnNibInv (P : Params) (s : Fin 8) (x : Word) : Word := subNibbles (fun _ => (P.spnSbox s).symm) x

/-- 43 R185: the 33 round keys of a key. -/
def spnSchedule (P : Params) (key : Bytes) : Vector (Vector Word 4) 33 :=
  let w := spnPrekeys (spnPadKey key)
  Vector.ofFn fun r => Vector.ofFn fun j => spnNib P (spnTable r.val) (w.getD (8 + 4 * r.val + j.val) 0)

/-- 43 R186: bit i of a block. -/
def blockBit (b : Bytes) (i : Nat) : Bool := (byteAt b (i / 8)).getLsbD (i % 8)

/-- The byte of eight bits, bit 0 the least significant. -/
def byteOfBits (f : Fin 8 → Bool) : Byte :=
  BitVec.ofBool (f 7) ++ BitVec.ofBool (f 6) ++ BitVec.ofBool (f 5) ++ BitVec.ofBool (f 4) ++
  BitVec.ofBool (f 3) ++ BitVec.ofBool (f 2) ++ BitVec.ofBool (f 1) ++ BitVec.ofBool (f 0)

/-- 43 R186: `PERM(T, B)`, whose bit i is bit T[i] of B. -/
def permBits (t : Fin 128 → Fin 128) (b : Bytes) : Bytes :=
  (List.finRange 16).map fun k => byteOfBits fun j => blockBit b (t ⟨8 * k.val + j.val, by omega⟩).val

/-- 43 R188: `SPN_L`. -/
def spnL (x : Word) : Word := x ^^^ rotl x 13 ^^^ rotl x 3 ^^^ rotl x 1 ^^^ rotl x 7 ^^^ rotl x 5

/-- 43 R189: the four words of a block. -/
def spnSplit (P : Params) (b : Bytes) : Vector Word 4 := Vector.ofFn fun j => wordAt P.spnWordOrder b j.val

/-- 43 R189: the block of four words. -/
def spnJoin (P : Params) (x : Vector Word 4) : Bytes := wordsToBytes P.spnWordOrder x.toList

/-- 43 R189: the exclusive or of a round key. -/
def addRoundKey (k x : Vector Word 4) : Vector Word 4 := Vector.ofFn fun j => x[j] ^^^ k[j]

/-- A function applied to each of the four words. -/
def mapWords (f : Word → Word) (x : Vector Word 4) : Vector Word 4 := Vector.ofFn fun j => f x[j]

/-- Round key r; r is at most 32 wherever it is read. -/
def spnRoundKey (rk : Vector (Vector Word 4) 33) (r : Nat) : Vector Word 4 := rk[r % 33]'(Nat.mod_lt _ (by decide))

/-- 43 R189: round r of encryption. -/
def spnEncRound (P : Params) (rk : Vector (Vector Word 4) 33) (r : Nat) (x : Vector Word 4) : Vector Word 4 :=
  mapWords spnL (mapWords (spnNib P (spnTable r)) (addRoundKey (spnRoundKey rk r) x))

/-- 43 R192: round r of decryption. -/
def spnDecRound (P : Params) (rk : Vector (Vector Word 4) 33) (r : Nat) (x : Vector Word 4) : Vector Word 4 :=
  addRoundKey (spnRoundKey rk r) (mapWords (spnNibInv P (spnTable r)) (mapWords P.spnLinv x))

/-- 43 R189: the rounds of `SPN_E`, and the 33rd round key. -/
def spnEncWords (P : Params) (rk : Vector (Vector Word 4) 33) (x : Vector Word 4) : Vector Word 4 :=
  addRoundKey (spnRoundKey rk 32) ((List.range Config.spnRounds).foldl (fun x r => spnEncRound P rk r x) x)

/-- 43 R192: the 33rd round key, then the rounds 31 down to 0. -/
def spnDecWords (P : Params) (rk : Vector (Vector Word 4) 33) (x : Vector Word 4) : Vector Word 4 :=
  (List.range Config.spnRounds).foldl (fun x i => spnDecRound P rk (31 - i) x) (addRoundKey (spnRoundKey rk 32) x)

/-- 43 R189: `SPN_E(B)`. -/
def spnE (P : Params) (rk : Vector (Vector Word 4) 33) (b : Bytes) : Bytes :=
  permBits P.spnIp.symm (spnJoin P (spnEncWords P rk (spnSplit P (permBits P.spnIp b))))

/-- 43 R192: `SPN_D(B)`. -/
def spnD (P : Params) (rk : Vector (Vector Word 4) 33) (b : Bytes) : Bytes :=
  permBits P.spnIp.symm (spnJoin P (spnDecWords P rk (spnSplit P (permBits P.spnIp b))))

/-- 43 R200: how many padding bytes a message of `len` bytes gets. -/
def padCount (len : Nat) : Nat := 16 - len % 16

/-- 43 R200: `PAD16`. -/
def pad16 (m : Bytes) : Bytes := m ++ List.replicate (padCount m.length) (BitVec.ofNat 8 (padCount m.length))

/-- 43 R200: `UNPAD16` of a nonempty message; none where the padding is invalid. -/
def unpad16 (m : Bytes) : Option Bytes :=
  let p := (byteAt m (m.length - 1)).toNat
  if p = 0 ∨ 16 < p ∨ (m.drop (m.length - p)).any (fun b => b.toNat ≠ p) then none
  else some (m.take (m.length - p))

end Sys2Proof.Machine
end

