-- ==== Sys2Proof/Machine/SpnCommands.lean ====
section
/-! DEFINITION. The commands of 43_spn.md. The checks come in the order of 43 R206. -/

namespace Sys2Proof.Machine

open Config (Params)

/-- Load the `SPN` context (43 R183). -/
def loadSpn (P : Params) (key : Bytes) (s : State) : State := { s with spn := { keyed := true, rk := spnSchedule P key } }

/-- 43 R183: `SPN.INIT`. -/
def spnInit (P : Params) (s : State) : State := initUnit Config.spnRandomKeyBytes Config.spnKeyBytes (loadSpn P) s

/-- 43 R190: `SPN.ENCB`. -/
def spnEncb (P : Params) (s : State) : State := singleBlock s.spn.keyed Config.spnBlockBytes (spnE P s.spn.rk) s

/-- 43 R193: `SPN.DECB`. -/
def spnDecb (P : Params) (s : State) : State := singleBlock s.spn.keyed Config.spnBlockBytes (spnD P s.spn.rk) s

/-- 43 R201: `SPN.ENC.ECB`. -/
def spnEncEcb (P : Params) (s : State) : State :=
  if s.spn.keyed = false then raise .notKeyed s
  else deliver (ecb (spnE P s.spn.rk) (blocks Config.spnBlockBytes (pad16 (operand s .din)))) s

/-- 43 R202: `SPN.DEC.ECB`. -/
def spnDecEcb (P : Params) (s : State) : State :=
  if s.spn.keyed = false then raise .notKeyed s
  else if s.dinLen = 0 ∨ s.dinLen % Config.spnBlockBytes ≠ 0 then raise .blockAlignment s
  else
    match unpad16 (ecb (spnD P s.spn.rk) (blocks Config.spnBlockBytes (operand s .din))) with
    | none => raise .padding s
    | some p => deliver p s

/-- 43 R204: `SPN.ENC.CBC`: the padded message chained from the IV, with the IV before it. -/
def spnEncCbc (P : Params) (s : State) : State :=
  if s.spn.keyed = false then raise .notKeyed s
  else if ivAcceptedEnc Config.spnIvBytes s = false then raise .ivLength s
  else
    let r := resolveOperand .iv Config.spnIvBytes s
    let iv := memRead r .iv 0 Config.spnIvBytes
    deliver (iv ++ cbcEnc (spnE P s.spn.rk) iv (blocks Config.spnBlockBytes (pad16 (operand r .din)))) r

/-- 43 R205: `SPN.DEC.CBC`: the IV is the first block of the input; on success it is written to `IV`. -/
def spnDecCbc (P : Params) (s : State) : State :=
  if s.spn.keyed = false then raise .notKeyed s
  else if s.dinLen < 32 ∨ s.dinLen % Config.spnBlockBytes ≠ 0 then raise .blockAlignment s
  else
    let iv := memRead s .din 0 Config.spnIvBytes
    match unpad16 (cbcDec (spnD P s.spn.rk) iv (blocks Config.spnBlockBytes ((operand s .din).drop Config.spnIvBytes))) with
    | none => raise .padding s
    | some p => deliver p (putOperand .iv iv s)

/-- 43 R183, as a step of this machine. -/
def execSpnInit (s : State) : Outcome := .next (spnInit params s)

/-- 43 R190, as a step of this machine. -/
def execSpnEncb (s : State) : Outcome := .next (spnEncb params s)

/-- 43 R193, as a step of this machine. -/
def execSpnDecb (s : State) : Outcome := .next (spnDecb params s)

/-- 43 R201, as a step of this machine. -/
def execSpnEncEcb (s : State) : Outcome := .next (spnEncEcb params s)

/-- 43 R202, as a step of this machine. -/
def execSpnDecEcb (s : State) : Outcome := .next (spnDecEcb params s)

/-- 43 R204, as a step of this machine. -/
def execSpnEncCbc (s : State) : Outcome := .next (spnEncCbc params s)

/-- 43 R205, as a step of this machine. -/
def execSpnDecCbc (s : State) : Outcome := .next (spnDecCbc params s)

end Sys2Proof.Machine
end

