-- ==== Sys2Proof/Machine/StrCommands.lean ====
section
/-! DEFINITION. The commands of 46_stream.md. `STR` is the one unit whose data commands change its context (10 R40). -/

namespace Sys2Proof.Machine

open Config (Params)

/-- Load the `STR` context (46 R261). -/
def loadStr (P : Params) (key : Bytes) (s : State) : State := { s with str := { keyed := true, st := strSchedule P key } }

/-- 46 R261: `STR.INIT`. -/
def strInit (P : Params) (s : State) : State := initUnit Config.strKeyBytes [Config.strKeyBytes] (loadStr P) s

/-- Advance the `STR` context by n cycles (46 R267, R268). -/
def advanceStr (P : Params) (n : Nat) (s : State) : State := { s with str := { s.str with st := strCycles P n s.str.st } }

/-- 46 R267: `STR.KSB`: one cycle, then the keystream block of the state after it. -/
def strKsb (P : Params) (s : State) : State :=
  if s.str.keyed = false then raise .notKeyed s
  else deliver (strKeystream P (strCycles P 1 s.str.st)) (advanceStr P 1 s)

/-- 46 R268, the pseudocode `STR.ENC` and `STR.DEC` share: one cycle a block, `ceil(DINLEN / 16)` in all; the unused tail of
the last keystream block is discarded. -/
def strApply (P : Params) (s : State) : State :=
  if s.str.keyed = false then raise .notKeyed s
  else
    deliver (strCrypt P s.str.st (blocks Config.strBlockBytes (operand s .din)))
      (advanceStr P (blockCount Config.strBlockBytes s.dinLen) s)

/-- 46 R268: `STR.ENC`. -/
def strEnc (P : Params) (s : State) : State := strApply P s

/-- 46 R269: `STR.DEC`; it does not rewind the stream. -/
def strDec (P : Params) (s : State) : State := strApply P s

/-- 46 R261, as a step of this machine. -/
def execStrInit (s : State) : Outcome := .next (strInit params s)

/-- 46 R268, as a step of this machine. -/
def execStrEnc (s : State) : Outcome := .next (strEnc params s)

/-- 46 R269, as a step of this machine. -/
def execStrDec (s : State) : Outcome := .next (strDec params s)

/-- 46 R267, as a step of this machine. -/
def execStrKsb (s : State) : Outcome := .next (strKsb params s)

end Sys2Proof.Machine
end

