-- ==== Sys2Proof/Machine/Dispatch.lean ====
section
/-! DEFINITION. One arm per command: the meaning of each. -/

namespace Sys2Proof.Machine

-- 30 R101 (3), (4): the effect of a legal command, `CMD` being stored already.
def exec (i : Instr) (s : State) : Host.Outcome State Fault Refusal :=
  match i with
  | .feiInit => Sys2Proof.Machine.execFeiInit s
  | .feiEncb => Sys2Proof.Machine.execFeiEncb s
  | .feiDecb => Sys2Proof.Machine.execFeiDecb s
  | .feiEncEcb => Sys2Proof.Machine.execFeiEncEcb s
  | .feiEncCbc => Sys2Proof.Machine.execFeiEncCbc s
  | .feiEncCfb => Sys2Proof.Machine.execFeiEncCfb s
  | .feiEncCtr => Sys2Proof.Machine.execFeiEncCtr s
  | .feiDecEcb => Sys2Proof.Machine.execFeiDecEcb s
  | .feiDecCbc => Sys2Proof.Machine.execFeiDecCbc s
  | .feiDecCfb => Sys2Proof.Machine.execFeiDecCfb s
  | .feiDecCtr => Sys2Proof.Machine.execFeiDecCtr s
  | .spnInit => Sys2Proof.Machine.execSpnInit s
  | .spnEncb => Sys2Proof.Machine.execSpnEncb s
  | .spnDecb => Sys2Proof.Machine.execSpnDecb s
  | .spnEncEcb => Sys2Proof.Machine.execSpnEncEcb s
  | .spnEncCbc => Sys2Proof.Machine.execSpnEncCbc s
  | .spnDecEcb => Sys2Proof.Machine.execSpnDecEcb s
  | .spnDecCbc => Sys2Proof.Machine.execSpnDecCbc s
  | .teaInit => Sys2Proof.Machine.execTeaInit s
  | .teaEnc => Sys2Proof.Machine.execTeaEnc s
  | .teaDec => Sys2Proof.Machine.execTeaDec s
  | .xteaInit => Sys2Proof.Machine.execXteaInit s
  | .xteaEnc => Sys2Proof.Machine.execXteaEnc s
  | .xteaDec => Sys2Proof.Machine.execXteaDec s
  | .xxtInit => Sys2Proof.Machine.execXxtInit s
  | .xxtEnc => Sys2Proof.Machine.execXxtEnc s
  | .xxtDec => Sys2Proof.Machine.execXxtDec s
  | .strInit => Sys2Proof.Machine.execStrInit s
  | .strEnc => Sys2Proof.Machine.execStrEnc s
  | .strDec => Sys2Proof.Machine.execStrDec s
  | .strKsb => Sys2Proof.Machine.execStrKsb s

end Sys2Proof.Machine
end

