-- ==== Sys2Proof/Machine/HostPort.lean ====
section
/-! DEFINITION. What a host access does (10 R32 to R38, 20 R73, R78): reading and writing a register or a buffer byte, the write to
`CMD` that executes a command (30 R101), and a reset from outside (70 R310); the host macros of 30 R109. -/

namespace Sys2Proof.Machine

/-- 10 R34 to R36: what a register reads as. A read has no side effect (10 R38). -/
def registerValue (s : State) : Register → Word
  | .cmd => s.cmd
  | .status => statusWord s
  | .keyLen => BitVec.ofNat 32 s.keyLen
  | .ivLen => BitVec.ofNat 32 s.ivLen
  | .dinLen => BitVec.ofNat 32 s.dinLen
  | .doutLen => BitVec.ofNat 32 s.doutLen

/-- The access just made returned the value v. -/
def respond (v : Word) (s : State) : State := { s with response := some v }

/-- The access just made returned nothing. -/
def noResponse (s : State) : State := { s with response := none }

/-- 20 R78: "read byte o of space S". A byte of `DOUTBUF` at or beyond `DOUTLEN` reads as any byte (10 R32, 93 U1, log 6); a
byte is widened with zeros (00 R14). -/
def readBufferByte (sp : Space) (o : Nat) (s : State) : State :=
  if sp = .dout ∧ s.doutLen ≤ o then
    respond ((Config.staleByte s.staleReads).setWidth 32) { s with staleReads := s.staleReads + 1 }
  else respond (((bufOf s sp).read o).setWidth 32) s

/-- 10 R32: the host may write `KEY`, `IV` and `DIN`; `DOUT` is read-only to it. -/
def hostWritable : Space → Bool
  | .dout => false
  | .key | .iv | .din => true

/-- 20 R78: "write byte o of space S with b". A write to `DOUTBUF` is ignored (93 U5). -/
def writeBufferByte (sp : Space) (o : Nat) (b : Byte) (s : State) : State :=
  if hostWritable sp then memWrite s sp o [b] else s

/-- 10 R32, R36: a length above the capacity is ignored (93 U6), and so is a write to `DOUTLEN` (93 U5). -/
def writeLength (P : Config.Params) (sp : Space) (v : Word) (s : State) : State :=
  if hostWritable sp ∧ v.toNat ≤ capOf P sp then setLen s sp v.toNat else s

/-- 30 R101: the write to `CMD`: store, decode, then execute, or raise `IllegalCommand` (60 R288). -/
def writeCommand (c : Word) (s : State) : Outcome :=
  match decode c with
  | .ok i => exec i { s with cmd := c }
  | .error _ => .next (raise .illegalCommand { s with cmd := c })

/-- 20 R78: "write register r with v". A write to `STATUS` is ignored (10 R35). -/
def writeRegister (P : Config.Params) (r : Register) (v : Word) (s : State) : Outcome :=
  match r with
  | .cmd => writeCommand v s
  | .status => .next s
  | .keyLen => .next (writeLength P .key v s)
  | .ivLen => .next (writeLength P .iv v s)
  | .dinLen => .next (writeLength P .din v s)
  | .doutLen => .next (writeLength P .dout v s)

/-- A host read. Reserved offsets read as 0 (10 R37). -/
def hostRead (P : Config.Params) (size : AccessSize) (offset : Nat) (s : State) : Outcome :=
  match targetOf P size offset with
  | .register r => .next (respond (registerValue s r) s)
  | .buffer sp o => .next (readBufferByte sp o s)
  | .reserved => .next (respond 0 s)
  | .unsupported => .refused (.outsideInterface size offset)

/-- A host write; of a byte write the low eight bits of the value count (log 19). A write to reserved offsets is ignored (10 R37). -/
def hostWrite (P : Config.Params) (size : AccessSize) (offset : Nat) (v : Word) (s : State) : Outcome :=
  match targetOf P size offset with
  | .register r => writeRegister P r v (noResponse s)
  | .buffer sp o => .next (writeBufferByte sp o (v.setWidth 8) (noResponse s))
  | .reserved => .next (noResponse s)
  | .unsupported => .refused (.outsideInterface size offset)

/-- 70 R310: a reset from outside. What is still to come from outside, and the counters of the free values, are not the
hardware's and go on (log 16). -/
def applyReset (s : State) : State :=
  { State.reset with pending := s.pending, draws := s.draws, staleReads := s.staleReads }

/-- What one input does. -/
def applyInput (P : Config.Params) (i : Input) (s : State) : Outcome :=
  match i with
  | .access (.read size offset) => hostRead P size offset s
  | .access (.write size offset v) => hostWrite P size offset v s
  | .reset => .next (applyReset s)

/-! ## The map as the host's software writes it, and the host macros of 30 R109 -/

/-- 10 R37: the offset of a register. -/
def registerOffset : Register → Nat
  | .cmd => 0x00
  | .status => 0x04
  | .keyLen => 0x08
  | .ivLen => 0x0C
  | .dinLen => 0x10
  | .doutLen => 0x14

/-- 10 R37: the offset of byte 0 of a buffer. -/
def bufferOffset : Space → Nat
  | .key => 0x40
  | .iv => 0x80
  | .din => 0x10000
  | .dout => 0x20000

/-- 10 R31: the length register of an operand space. -/
def lengthRegister : Space → Register
  | .key => .keyLen
  | .iv => .ivLen
  | .din => .dinLen
  | .dout => .doutLen

/-- "Read register r". -/
def readReg (r : Register) : Input := .access (.read .word (registerOffset r))

/-- "Write register r with v". -/
def writeReg (r : Register) (v : Word) : Input := .access (.write .word (registerOffset r) v)

/-- "Read byte o of space S". -/
def readByte (sp : Space) (o : Nat) : Input := .access (.read .byte (bufferOffset sp + o))

/-- "Write byte o of space S with b". -/
def writeByte (sp : Space) (o : Nat) (b : Byte) : Input := .access (.write .byte (bufferOffset sp + o) (b.setWidth 32))

/-- The writes of the bytes of b to a space from offset o on. -/
def writeByteString (sp : Space) : Nat → Bytes → List Input
  | _, [] => []
  | o, b :: bs => writeByte sp o b :: writeByteString sp (o + 1) bs

/-- 30 R109: `SETKEY`, `SETIV`, `SETDIN`: the bytes, then the length. -/
def setOperandMacro (sp : Space) (b : Bytes) : List Input :=
  writeByteString sp 0 b ++ [writeReg (lengthRegister sp) (BitVec.ofNat 32 b.length)]

/-- 30 R109: `CMD m`. -/
def cmdMacro (i : Instr) : List Input := [writeReg .cmd (encode i)]

/-- 30 R109: `GETDOUT`, `GETKEY`, `GETIV`, for the length n that the read of the length register returns (log 21). -/
def getOperandMacro (sp : Space) (n : Nat) : List Input :=
  readReg (lengthRegister sp) :: (List.range n).map fun o => readByte sp o

/-- 30 R109: `GETERR` reads `STATUS`; the host takes bits 3:0 of the response. -/
def getErrMacro : List Input := [readReg .status]

/-- 30 R109: `MOVDIN`: `GETDOUT`, then `SETDIN` of the bytes b that it returned (log 21). -/
def movDinMacro (b : Bytes) : List Input := getOperandMacro .dout b.length ++ setOperandMacro .din b

end Sys2Proof.Machine
end

