-- ==== Sys2Proof/Machine/Step.lean ====
section
/-! DEFINITION. One step of the machine: one host access, or a reset from outside, taken whole (00 R6, 20 R80). The hardware fetches
nothing (10 R33): what runs next is what the host does next. -/

namespace Sys2Proof.Machine

/-- One step. While the host does nothing the hardware waits (30 R111, 60 R284), and nothing changes. -/
def step (s : State) : Host.Outcome State Fault Refusal :=
  match s.pending with
  | [] => .next s
  | i :: rest => applyInput params i { s with pending := rest }

/-- The state in which the host's next access writes this command to `CMD` (log 1). -/
def State.withFetchWord (s : State) (nbits w : Nat) : State :=
  { s with pending := writeReg .cmd (BitVec.ofNat 32 (w % 2 ^ nbits)) :: s.pending }

end Sys2Proof.Machine
end

