-- ==== Sys2Proof/Safety.lean ====
section
/-! DEFINITION. The terms the statements use: the invariants of the machine, what a command leaves as it was, which errors apply to a
command (60 R282 to R292) as tables, the opcode map (30 R105) as a table, and what can be observed of a state. -/

namespace Sys2Proof.Machine

open Config (Params)

/-! ## Invariants -/

/-- 10 R31, R36: every length register is within the capacity of its buffer, and no buffer holds anything beyond its capacity. -/
abbrev Fits (P : Params) (s : State) : Prop :=
  (s.keyLen ≤ 64 ∧ s.ivLen ≤ 32 ∧ s.dinLen ≤ P.bufCap ∧ s.doutLen ≤ P.bufCap + 32) ∧
  s.keyBuf.within 64 ∧ s.ivBuf.within 32 ∧ s.dinBuf.within P.bufCap ∧ s.doutBuf.within (P.bufCap + 32)

/-- The four memories are in the canonical form of the model (log 20). -/
abbrev Canonical (s : State) : Prop := s.keyBuf.wf ∧ s.ivBuf.wf ∧ s.dinBuf.wf ∧ s.doutBuf.wf

/-- 60 R281: the codes 7 to 15 are never produced. -/
abbrev LegalErr (s : State) : Prop := s.err.toNat ≤ 6

/-- What every step keeps. -/
abbrev Inv (P : Params) (s : State) : Prop := Fits P s ∧ Canonical s ∧ LegalErr s

/-! ## What is left as it was -/

/-- Every byte of every operand space, but for the first `stored sp` bytes of each, reads in t as in s. -/
def BytesKept (stored : Space → Nat) (s t : State) : Prop :=
  ∀ sp a, stored sp ≤ a → (bufOf t sp).read a = (bufOf s sp).read a

/-- The first n bytes of one operand space, and none of the others. -/
def firstBytes (sp : Space) (n : Nat) : Space → Nat := fun sp' => if sp' = sp then n else 0

/-- A command that completed with an output of n bytes and changed nothing else: the code is 0, `DOUTLEN` is n, every register and
context is as before, and so is every byte but the first n of `DOUTBUF`. -/
def OutputOnly (n : Nat) (s t : State) : Prop :=
  t.err = 0 ∧ t.doutLen = n ∧
  t = { s with err := t.err, doutLen := t.doutLen, doutBuf := t.doutBuf } ∧
  BytesKept (firstBytes .dout n) s t

/-- As `OutputOnly`, and the output is `out`. -/
def Delivers (out : Bytes) (s t : State) : Prop := OutputOnly out.length s t ∧ memRead t .dout 0 out.length = out

/-- 60 R284: the state after a command that raised the error of code c. -/
def rejected (c : BitVec 4) (s : State) : State := { s with err := c, doutLen := 0 }

/-- 41 R131: r is s with an empty `KEY` replaced by n bytes drawn; a key that is not empty is left as it is. -/
def KeyResolved (n : Nat) (s r : State) : Prop :=
  (s.keyLen ≠ 0 → r = s) ∧
  (s.keyLen = 0 →
    r = { s with keyBuf := r.keyBuf, keyLen := n, draws := s.draws + n } ∧
    memRead r .key 0 n = (List.range n).map (fun i => Config.rngByte (s.draws + i)) ∧
    BytesKept (firstBytes .key n) s r)

/-- 42 R151: r is s with an empty `IV` replaced by n bytes drawn; an IV that is not empty is left as it is. -/
def IvResolved (n : Nat) (s r : State) : Prop :=
  (s.ivLen ≠ 0 → r = s) ∧
  (s.ivLen = 0 →
    r = { s with ivBuf := r.ivBuf, ivLen := n, draws := s.draws + n } ∧
    memRead r .iv 0 n = (List.range n).map (fun i => Config.rngByte (s.draws + i)) ∧
    BytesKept (firstBytes .iv n) s r)

/-! ## Contexts -/

/-- The two states hold the same context of a unit, its `KEYED` flag included. -/
def SameContext (u : CipherUnit) (s t : State) : Prop :=
  match u with
  | .fei => s.fei = t.fei
  | .spn => s.spn = t.spn
  | .tea => s.tea = t.tea
  | .xtea => s.xtea = t.xtea
  | .xxt => s.xxt = t.xxt
  | .str => s.str = t.str

/-- s with the context of a unit replaced by the one x holds. -/
def withContextOf (u : CipherUnit) (x s : State) : State :=
  match u with
  | .fei => { s with fei := x.fei }
  | .spn => { s with spn := x.spn }
  | .tea => { s with tea := x.tea }
  | .xtea => { s with xtea := x.xtea }
  | .xxt => { s with xxt := x.xxt }
  | .str => { s with str := x.str }

/-! ## Observation -/

/-- s without what 10 R32, R48, R55 call unspecified and unobservable: the contexts of units that hold no key are replaced by those
of the reset state, and the storage of `DOUTBUF` is left out. -/
def observable (s : State) : State :=
  { s with
    fei := if s.fei.keyed then s.fei else State.reset.fei
    spn := if s.spn.keyed then s.spn else State.reset.spn
    tea := if s.tea.keyed then s.tea else State.reset.tea
    xtea := if s.xtea.keyed then s.xtea else State.reset.xtea
    xxt := if s.xxt.keyed then s.xxt else State.reset.xxt
    str := if s.str.keyed then s.str else State.reset.str
    doutBuf := [] }

/-- The two states differ only in unspecified, unobservable parts: contexts without a key, and bytes of `DOUTBUF` at or beyond
`DOUTLEN`. -/
def ObservablyEqual (s s' : State) : Prop := observable s = observable s' ∧ operand s .dout = operand s' .dout

/-- Two steps end alike, as far as can be observed. -/
def SameEnd : Outcome → Outcome → Prop
  | .next t, .next t' => ObservablyEqual t t'
  | .fault a, .fault b => a = b
  | .refused a, .refused b => a = b
  | _, _ => False

/-! ## The pseudocode of 45 R244, with its carried y and z -/

/-- 45 R244: `((((z >> 5) xor (y << 2)) + ((y >> 3) xor (z << 4))) xor ((sum xor y) + (K[(p and 3) xor e] xor z)))`, the index as a
natural number. -/
def mixPseudocode (k : Vector Word 4) (sum y z : Word) (p e : Nat) : Word :=
  (((z >>> 5) ^^^ (y <<< 2)) + ((y >>> 3) ^^^ (z <<< 4))) ^^^ ((sum ^^^ y) + (k.toList.getD ((p &&& 3) ^^^ e) 0 ^^^ z))

/-- One pass of `XXT_E`: the array and z in, the array and z out. -/
def encPassPseudocode (k : Vector Word 4) (sum : Word) (st : List Word × Word) : List Word × Word :=
  let n := st.1.length
  let e := ((sum >>> 2) &&& 3).toNat
  let inner := (List.range (n - 1)).foldl (fun (vz : List Word × Word) p =>
    let x := vz.1.getD p 0 + mixPseudocode k sum (vz.1.getD (p + 1) 0) vz.2 p e
    (vz.1.set p x, x)) st
  let x := inner.1.getD (n - 1) 0 + mixPseudocode k sum (inner.1.getD 0 0) inner.2 (n - 1) e
  (inner.1.set (n - 1) x, x)

/-- 45 R244: `XXT_E(v)`. -/
def xxtEncPseudocode (k : Vector Word 4) (v : List Word) : List Word :=
  ((List.range (6 + 52 / v.length)).foldl (fun st i => encPassPseudocode k (BitVec.ofNat 32 (i + 1) * 0x9e3779b9#32) st)
    (v, v.getD (v.length - 1) 0)).1

/-- One pass of `XXT_D`: the array and y in, the array and y out. -/
def decPassPseudocode (k : Vector Word 4) (sum : Word) (st : List Word × Word) : List Word × Word :=
  let n := st.1.length
  let e := ((sum >>> 2) &&& 3).toNat
  let inner := (List.range (n - 1)).foldl (fun (vy : List Word × Word) i =>
    let p := n - 1 - i
    let x := vy.1.getD p 0 - mixPseudocode k sum vy.2 (vy.1.getD (p - 1) 0) p e
    (vy.1.set p x, x)) st
  let x := inner.1.getD 0 0 - mixPseudocode k sum inner.2 (inner.1.getD (n - 1) 0) 0 e
  (inner.1.set 0 x, x)

/-- 45 R244: `XXT_D(v)`. -/
def xxtDecPseudocode (k : Vector Word 4) (v : List Word) : List Word :=
  ((List.range (6 + 52 / v.length)).foldl
    (fun st i => decPassPseudocode k (BitVec.ofNat 32 (6 + 52 / v.length - i) * 0x9e3779b9#32) st) (v, v.getD 0 0)).1

/-! ## Tables of the spec -/

/-- 30 R105: the opcode map as the spec writes it. -/
def opcodeMap : List (Instr × Word) :=
  [(.feiInit, 0x00), (.feiEncb, 0x04), (.feiDecb, 0x08), (.feiEncEcb, 0x0C), (.feiEncCbc, 0x0D), (.feiEncCfb, 0x0E),
   (.feiEncCtr, 0x0F), (.feiDecEcb, 0x10), (.feiDecCbc, 0x11), (.feiDecCfb, 0x12), (.feiDecCtr, 0x13)] ++
  [(.spnInit, 0x20), (.spnEncb, 0x24), (.spnDecb, 0x28), (.spnEncEcb, 0x2C), (.spnEncCbc, 0x2D), (.spnDecEcb, 0x30),
   (.spnDecCbc, 0x31)] ++
  [(.teaInit, 0x40), (.teaEnc, 0x4C), (.teaDec, 0x50), (.xteaInit, 0x60), (.xteaEnc, 0x6C), (.xteaDec, 0x70)] ++
  [(.xxtInit, 0x80), (.xxtEnc, 0x8C), (.xxtDec, 0x90), (.strInit, 0xA0), (.strEnc, 0xAC), (.strDec, 0xB0), (.strKsb, 0xB4)]

/-- 60 R289: `NotKeyed` applies to a command. -/
def notKeyedApplies (i : Instr) (s : State) : Bool := i.form.op != .init && !keyedFlag s i.form.unit

/-- 60 R282: `KeyLengthError` applies to a command. -/
def keyLengthApplies (i : Instr) (s : State) : Bool :=
  match i with
  | .feiInit => s.keyLen != 0 && s.keyLen != 32
  | .spnInit => s.keyLen != 0 && s.keyLen != 16 && s.keyLen != 24 && s.keyLen != 32
  | .teaInit | .xteaInit | .xxtInit | .strInit => s.keyLen != 0 && s.keyLen != 16
  | _ => false

/-- 60 R285: `IVLengthError` applies to a command. -/
def ivLengthApplies (i : Instr) (s : State) : Bool :=
  match i with
  | .feiEncCbc | .feiEncCfb => s.ivLen != 0 && s.ivLen != 8
  | .feiDecCbc | .feiDecCfb => s.ivLen != 8
  | .feiEncCtr => s.ivLen != 0 && s.ivLen != 4
  | .feiDecCtr => s.ivLen != 4
  | .spnEncCbc => s.ivLen != 0 && s.ivLen != 16
  | _ => false

/-- 60 R283: `BlockAlignmentError` applies to a command. -/
def blockAlignmentApplies (i : Instr) (s : State) : Bool :=
  match i with
  | .feiEncb | .feiDecb => s.dinLen != 8
  | .spnEncb | .spnDecb => s.dinLen != 16
  | .feiEncEcb | .feiDecEcb | .feiEncCbc | .feiDecCbc | .teaEnc | .teaDec | .xteaEnc | .xteaDec => s.dinLen % 8 != 0
  | .spnDecEcb => s.dinLen == 0 || s.dinLen % 16 != 0
  | .spnDecCbc => decide (s.dinLen < 32) || s.dinLen % 16 != 0
  | .xxtDec => s.dinLen % 4 != 0
  | _ => false

/-- 60 R287: the two commands that can find invalid padding. -/
def checksPadding (i : Instr) : Bool := i == .spnDecEcb || i == .spnDecCbc

/-- 60 R292: the code of the first error that applies to a legal command before its data is transformed, 0 if none does. -/
def firstErrorCode (i : Instr) (s : State) : BitVec 4 :=
  if notKeyedApplies i s then 5
  else if keyLengthApplies i s then 1
  else if ivLengthApplies i s then 3
  else if blockAlignmentApplies i s then 2
  else 0

/-- 20 R71: the commands that may replace an empty `IV`. -/
def resolvesIv (i : Instr) : Bool := i == .feiEncCbc || i == .feiEncCfb || i == .feiEncCtr || i == .spnEncCbc

end Sys2Proof.Machine
end

