-- ==== Sys2Proof/Certificates/Slice0/Obligations.lean ====
section
/-! DEFINITION. The statements for the provers. Each docstring names the rule of spec/ the statement formalises. -/

open Sys2Proof Sys2Proof.Machine
open Sys2Proof.Config (Params)

/-! ## Commands and their encoding -/

/-- 30 R105: the words that decode are the 31 of the opcode map, each to its command; every command is well formed, and the word the
encoder gives it is its word in the map, of value `UNIT*32 + OP*4 + MODE`, and decodes back to it. -/
def Obligations.DecodeAndEncodeAgreeWithTheOpcodeMap : Prop :=
  (∀ w i, decode w = .ok i ↔ (i, w) ∈ opcodeMap) ∧
  ∀ i : Instr, i.wellFormed = true ∧ (i, encode i) ∈ opcodeMap ∧ decode (encode i) = .ok i ∧
    (encode i).toNat = i.form.unit.code.toNat * 32 + i.form.op.code.toNat * 4 + i.form.mode.code.toNat

/-- 95 V-DEC-1 to V-DEC-9: sample words, legal and illegal. -/
def Obligations.SampleWordsDecode : Prop :=
  decodeTableWord 32 0x00 = some .feiInit ∧ decodeTableWord 32 0x0D = some .feiEncCbc ∧
  decodeTableWord 32 0x31 = some .spnDecCbc ∧ decodeTableWord 32 0xB4 = some .strKsb ∧
  [0x01, 0x05, 0x14, 0x1C, 0x2E, 0x32, 0x44, 0x4D, 0x94, 0xC0, 0xFF, 0x100, 0x8000000C, 0xFFFFFFFF].all
    (fun w => decodeTableWord 32 w = none)

/-- 60 R288: a write to `CMD` of a value outside the opcode map raises `IllegalCommand`, whatever the state; the value
stays in `CMD`. That the access leaves `pending` and that `response` is empty after it is the model's own (logs 1, 2). -/
def Obligations.IllegalWordRaisesIllegalCommand : Prop :=
  ∀ (s : State) (w : Word) (rest : List Input), (∀ i, (i, w) ∉ opcodeMap) → s.pending = writeReg .cmd w :: rest →
    step s = .next { s with pending := rest, response := none, cmd := w, err := 4, doutLen := 0 }

/-- 30 R101: a write to `CMD` of a word that decodes to i stores the word and runs i; the model moves past the access
(logs 1, 2). -/
def Obligations.StepRunsTheDecodedCommand : Prop :=
  ∀ (s : State) (w : Word) (i : Instr) (rest : List Input), i.wellFormed = true → decode w = .ok i →
    s.pending = writeReg .cmd w :: rest →
    step s = exec i { s with pending := rest, response := none, cmd := w }

/-- 30 R111 ("the hardware waits for the next write to CMD"), log 1: a step changes nothing while the host does nothing, and no
command changes what the host is yet to do. -/
def Obligations.HardwareWaitsForTheHost : Prop :=
  (∀ s : State, s.pending = [] → step s = .next s) ∧
  ∀ (i : Instr) (s t : State), exec i s = .next t → t.pending = s.pending

/-! ## Reset and invariants -/

/-- 10 R55, 70 R310: what a reset from outside leaves, and that the model starts in it; the values the spec gives. -/
def Obligations.ResetLeavesTheSpecifiedValues : Prop :=
  (∀ (s : State) (rest : List Input), s.pending = .reset :: rest → ∃ t, step s = .next t ∧ t.pending = rest ∧
    t.cmd = 0 ∧ statusWord t = 0 ∧ t.keyLen = 0 ∧ t.ivLen = 0 ∧ t.dinLen = 0 ∧ t.doutLen = 0 ∧
    (∀ u, keyedFlag t u = false) ∧ ∀ a, t.keyBuf.read a = 0 ∧ t.ivBuf.read a = 0 ∧ t.dinBuf.read a = 0) ∧
  State.reset.cmd = 0 ∧ statusWord State.reset = 0 ∧ State.reset.keyLen = 0 ∧ State.reset.ivLen = 0 ∧
  State.reset.dinLen = 0 ∧ State.reset.doutLen = 0 ∧
  ∀ a, State.reset.keyBuf.read a = 0 ∧ State.reset.ivBuf.read a = 0 ∧ State.reset.dinBuf.read a = 0

/-- The state after reset meets the invariant (10 R31, R55; 60 R281). -/
def Obligations.ResetMeetsTheInvariant : Prop := Inv params State.reset

/-- 10 R31, R36: from every state within the capacities, a step leads to one. -/
def Obligations.EveryStepKeepsTheCapacities : Prop :=
  ∀ s t : State, Fits params s → step s = .next t → Fits params t

/-- The model's own (log 20): from every state whose memories are in canonical form, a step leads to one. -/
def Obligations.EveryStepKeepsMemoriesCanonical : Prop :=
  ∀ s t : State, Canonical s → step s = .next t → Canonical t

/-- 60 R281: the codes 7 to 15 of `STATUS.ERR` are never produced. -/
def Obligations.EveryStepKeepsErrorCodesLegal : Prop :=
  ∀ s t : State, LegalErr s → step s = .next t → LegalErr t

/-- 10 R55: "Reset is the only way KEYED[u] returns to 0." -/
def Obligations.OnlyResetClearsKeyed : Prop :=
  ∀ (s t : State) (u : CipherUnit), step s = .next t → s.pending.head? ≠ some .reset → keyedFlag s u = true →
    keyedFlag t u = true

/-! ## Errors -/

/-- 60 R284: a command that raises changes `STATUS.ERR` and `DOUTLEN` (to 0) and nothing else. -/
def Obligations.FailedCommandChangesOnlyErrAndDoutLen : Prop :=
  ∀ (i : Instr) (s t : State), exec i s = .next t → t.err ≠ 0 → t = { s with err := t.err, doutLen := 0 }

/-- 60 R292: of the errors that apply to a legal command, the first in the order `NotKeyed`, `KeyLengthError`, `IVLengthError`,
`BlockAlignmentError`, `PaddingError` is reported, and 0 where none applies. -/
def Obligations.ErrorReportedIsTheFirstInPriority : Prop :=
  ∀ (i : Instr) (s : State), ∃ t, exec i s = .next t ∧
    (firstErrorCode i s ≠ 0 → t.err = firstErrorCode i s) ∧
    (firstErrorCode i s = 0 → checksPadding i = false → t.err = 0) ∧
    (firstErrorCode i s = 0 → checksPadding i = true → t.err = 0 ∨ t.err = 6)

/-- 60 R280, 10 R38: a host access other than a write to `CMD` raises nothing and runs nothing: `CMD`, `STATUS.ERR`, the output, the
contexts and the draws are as before. -/
def Obligations.OnlyAWriteToCmdExecutes : Prop :=
  ∀ (s t : State) (a : HostAccess) (rest : List Input), s.pending = .access a :: rest →
    (∀ size v, a ≠ .write size 0 v) → step s = .next t →
    t.cmd = s.cmd ∧ t.err = s.err ∧ t.doutLen = s.doutLen ∧ t.doutBuf = s.doutBuf ∧ t.draws = s.draws ∧
    ∀ u, SameContext u s t

/-! ## Who touches what -/

/-- 10 R40: a command writes no context but its own unit's, and that one only if it is `INIT` or the unit is `STR`. -/
def Obligations.CommandsKeepContextsOfOtherUnits : Prop :=
  ∀ (i : Instr) (s t : State) (u : CipherUnit), exec i s = .next t →
    (u ≠ i.form.unit ∨ (i.form.op ≠ .init ∧ u ≠ .str)) → SameContext u s t

/-- 10 R40: "no command of one unit reads or writes the context of another unit": with another unit's context replaced, a
command does the same. -/
def Obligations.CommandsIgnoreContextsOfOtherUnits : Prop :=
  ∀ (i : Instr) (s x t : State) (u : CipherUnit), u ≠ i.form.unit → exec i s = .next t →
    exec i (withContextOf u x s) = .next (withContextOf u x t)

/-- 20 R71: what a command leaves as it was: `CMD`, what the host sees and is yet to do, `DIN`, `KEY` unless an `INIT` finds it
empty, and `IV` unless an encrypting command finds it empty or the command is `SPN.DEC.CBC`. -/
def Obligations.CommandsTouchOnlyTheirSpaces : Prop :=
  ∀ (i : Instr) (s t : State), exec i s = .next t →
    t.cmd = s.cmd ∧ t.pending = s.pending ∧ t.response = s.response ∧ t.staleReads = s.staleReads ∧
    (t.dinLen = s.dinLen ∧ ∀ a, t.dinBuf.read a = s.dinBuf.read a) ∧
    ((i.form.op ≠ .init ∨ s.keyLen ≠ 0) → t.keyLen = s.keyLen ∧ ∀ a, t.keyBuf.read a = s.keyBuf.read a) ∧
    ((resolvesIv i = false ∨ s.ivLen ≠ 0) → i ≠ .spnDecCbc →
      t.ivLen = s.ivLen ∧ ∀ a, t.ivBuf.read a = s.ivBuf.read a) ∧
    ((i.form.op ≠ .init ∨ s.keyLen ≠ 0) → (resolvesIv i = false ∨ s.ivLen ≠ 0) → t.draws = s.draws)

/-- 42 R168, 41 R140, 43 R195: the code and the output of a data command are a function of the context of its unit, of `IV` and of
`DIN`, unless the command draws an IV. -/
def Obligations.OutputDependsOnContextIvAndDinOnly : Prop :=
  ∀ (i : Instr) (s s' : State), i.form.op ≠ .init → s.doutBuf.wf → s'.doutBuf.wf → (resolvesIv i = true → s.ivLen ≠ 0) →
    SameContext i.form.unit s s' → operand s .iv = operand s' .iv → operand s .din = operand s' .din →
    ∃ t t', exec i s = .next t ∧ exec i s' = .next t' ∧ t.err = t'.err ∧ operand t .dout = operand t' .dout

/-- 10 R32, R48 (93 U1, U2): contexts of units without a key, and bytes of `DOUTBUF` at or beyond `DOUTLEN`, are never observable:
two states that differ in nothing else make steps that differ in nothing else. -/
def Obligations.UnspecifiedStateIsNeverObservable : Prop :=
  ∀ s s' : State, s.doutBuf.wf → s'.doutBuf.wf → ObservablyEqual s s' → SameEnd (step s) (step s')

/-! ## `FEI` -/

/-- 41 R131: `FEI.INIT`. The bytes drawn for an empty key and their count are the model's free values (log 5). -/
def Obligations.FeiInitRule : Prop :=
  encode .feiInit = 0x00#32 ∧
  ∀ s : State, Canonical s →
    (s.keyLen = 0 ∨ s.keyLen = 32 → ∃ r t, KeyResolved 32 s r ∧ exec .feiInit s = .next t ∧
      t = { r with fei := t.fei, err := 0, doutLen := 0 } ∧ t.fei.keyed = true ∧
      ∀ j : Fin 8, t.fei.sk[j] = be32 (memRead r .key (4 * j.val) 4)) ∧
    (s.keyLen ≠ 0 → s.keyLen ≠ 32 → exec .feiInit s = .next (rejected 1 s))

/-- 41 R132: the subkey indices in round order, and the round key at each. -/
def Obligations.FeiRoundKeyOrder : Prop :=
  (List.range 32).map (fun i => (feiKeyIndex i).val) =
    [0, 1, 2, 3, 4, 5, 6, 7] ++ [0, 1, 2, 3, 4, 5, 6, 7] ++ [0, 1, 2, 3, 4, 5, 6, 7] ++ [7, 6, 5, 4, 3, 2, 1, 0] ∧
  ∀ (sk : Vector Word 8) (i : Fin 32),
    feiRoundKey sk i.val = if i.val < 24 then sk[i.val % 8]'(by omega) else sk[7 - i.val % 8]'(by omega)

/-- 41 R135, R138: `FEI.ENCB` and `FEI.DECB`. -/
def Obligations.FeiSingleBlockRules : Prop :=
  (encode .feiEncb = 0x04#32 ∧ encode .feiDecb = 0x08#32) ∧
  ∀ s : State, Canonical s →
    (s.fei.keyed = false → exec .feiEncb s = .next (rejected 5 s) ∧ exec .feiDecb s = .next (rejected 5 s)) ∧
    (s.fei.keyed = true → s.dinLen ≠ 8 → exec .feiEncb s = .next (rejected 2 s) ∧ exec .feiDecb s = .next (rejected 2 s)) ∧
    (s.fei.keyed = true → s.dinLen = 8 →
      (∃ t, exec .feiEncb s = .next t ∧ Delivers (feiE params s.fei.sk (memRead s .din 0 8)) s t) ∧
      ∃ t, exec .feiDecb s = .next t ∧ Delivers (feiD params s.fei.sk (memRead s .din 0 8)) s t)

/-- 41 R139: decryption inverts encryption and encryption inverts decryption, for every S-box and both values of
`FEI_FINAL_SWAP`. The rule is an inference of the spec. -/
def Obligations.FeiDecryptionInvertsEncryption : Prop :=
  ∀ (P : Params) (sk : Vector Word 8) (b : Bytes), b.length = 8 →
    feiD P sk (feiE P sk b) = b ∧ feiE P sk (feiD P sk b) = b

/-- 42 R152, R153: `FEI.ENC.ECB` and `FEI.DEC.ECB`. -/
def Obligations.FeiEcbRules : Prop :=
  (encode .feiEncEcb = 0x0C#32 ∧ encode .feiDecEcb = 0x10#32) ∧
  ∀ s : State, Canonical s →
    (s.fei.keyed = false → exec .feiEncEcb s = .next (rejected 5 s) ∧ exec .feiDecEcb s = .next (rejected 5 s)) ∧
    (s.fei.keyed = true → s.dinLen % 8 ≠ 0 →
      exec .feiEncEcb s = .next (rejected 2 s) ∧ exec .feiDecEcb s = .next (rejected 2 s)) ∧
    (s.fei.keyed = true → s.dinLen % 8 = 0 →
      (∃ t, exec .feiEncEcb s = .next t ∧ OutputOnly s.dinLen s t ∧
        ∀ i < s.dinLen / 8, memRead t .dout (8 * i) 8 = feiE params s.fei.sk (memRead s .din (8 * i) 8)) ∧
      ∃ t, exec .feiDecEcb s = .next t ∧ OutputOnly s.dinLen s t ∧
        ∀ i < s.dinLen / 8, memRead t .dout (8 * i) 8 = feiD params s.fei.sk (memRead s .din (8 * i) 8))

/-- 42 R155, R156: `FEI.ENC.CBC` and `FEI.DEC.CBC`. The bytes drawn for an empty IV and their count are the model's free values
(log 5). -/
def Obligations.FeiCbcRules : Prop :=
  (encode .feiEncCbc = 0x0D#32 ∧ encode .feiDecCbc = 0x11#32) ∧
  ∀ s : State, Canonical s →
    (s.fei.keyed = false → exec .feiEncCbc s = .next (rejected 5 s)) ∧
    (s.fei.keyed = true → s.ivLen ≠ 0 → s.ivLen ≠ 8 → exec .feiEncCbc s = .next (rejected 3 s)) ∧
    (s.fei.keyed = true → (s.ivLen = 0 ∨ s.ivLen = 8) → s.dinLen % 8 ≠ 0 → exec .feiEncCbc s = .next (rejected 2 s)) ∧
    (s.fei.keyed = true → (s.ivLen = 0 ∨ s.ivLen = 8) → s.dinLen % 8 = 0 →
      ∃ r t, IvResolved 8 s r ∧ exec .feiEncCbc s = .next t ∧ OutputOnly s.dinLen r t ∧
        ∀ i < s.dinLen / 8, memRead t .dout (8 * i) 8 =
          feiE params s.fei.sk (xorBytes (memRead s .din (8 * i) 8)
            (if i = 0 then memRead r .iv 0 8 else memRead t .dout (8 * (i - 1)) 8))) ∧
    (s.fei.keyed = false → exec .feiDecCbc s = .next (rejected 5 s)) ∧
    (s.fei.keyed = true → s.ivLen ≠ 8 → exec .feiDecCbc s = .next (rejected 3 s)) ∧
    (s.fei.keyed = true → s.ivLen = 8 → s.dinLen % 8 ≠ 0 → exec .feiDecCbc s = .next (rejected 2 s)) ∧
    (s.fei.keyed = true → s.ivLen = 8 → s.dinLen % 8 = 0 →
      ∃ t, exec .feiDecCbc s = .next t ∧ OutputOnly s.dinLen s t ∧
        ∀ i < s.dinLen / 8, memRead t .dout (8 * i) 8 =
          xorBytes (feiD params s.fei.sk (memRead s .din (8 * i) 8))
            (if i = 0 then memRead s .iv 0 8 else memRead s .din (8 * (i - 1)) 8))

/-- 42 R158, R159: `FEI.ENC.CFB` and `FEI.DEC.CFB`; the feedback is the ciphertext block, the output of the one and the input of the
other. The bytes drawn for an empty IV and their count are the model's free values (log 5). -/
def Obligations.FeiCfbRules : Prop :=
  (encode .feiEncCfb = 0x0E#32 ∧ encode .feiDecCfb = 0x12#32) ∧
  ∀ s : State, Canonical s →
    (s.fei.keyed = false → exec .feiEncCfb s = .next (rejected 5 s)) ∧
    (s.fei.keyed = true → s.ivLen ≠ 0 → s.ivLen ≠ 8 → exec .feiEncCfb s = .next (rejected 3 s)) ∧
    (s.fei.keyed = true → (s.ivLen = 0 ∨ s.ivLen = 8) →
      ∃ r t, IvResolved 8 s r ∧ exec .feiEncCfb s = .next t ∧ OutputOnly s.dinLen r t ∧
        ∀ i < (s.dinLen + 7) / 8, memRead t .dout (8 * i) (min 8 (s.dinLen - 8 * i)) =
          xorBytes (memRead s .din (8 * i) (min 8 (s.dinLen - 8 * i)))
            ((feiE params s.fei.sk (if i = 0 then memRead r .iv 0 8 else memRead t .dout (8 * (i - 1)) 8)).take
              (min 8 (s.dinLen - 8 * i)))) ∧
    (s.fei.keyed = false → exec .feiDecCfb s = .next (rejected 5 s)) ∧
    (s.fei.keyed = true → s.ivLen ≠ 8 → exec .feiDecCfb s = .next (rejected 3 s)) ∧
    (s.fei.keyed = true → s.ivLen = 8 →
      ∃ t, exec .feiDecCfb s = .next t ∧ OutputOnly s.dinLen s t ∧
        ∀ i < (s.dinLen + 7) / 8, memRead t .dout (8 * i) (min 8 (s.dinLen - 8 * i)) =
          xorBytes (memRead s .din (8 * i) (min 8 (s.dinLen - 8 * i)))
            ((feiE params s.fei.sk (if i = 0 then memRead s .iv 0 8 else memRead s .din (8 * (i - 1)) 8)).take
              (min 8 (s.dinLen - 8 * i))))

/-- 42 R163, R164: `FEI.ENC.CTR` and `FEI.DEC.CTR`: keystream block i is the encryption of the nonce followed by i mod 2^32,
big-endian (42 R160). The bytes drawn for an empty nonce and their count are the model's free values (log 5). -/
def Obligations.FeiCtrRules : Prop :=
  (encode .feiEncCtr = 0x0F#32 ∧ encode .feiDecCtr = 0x13#32) ∧
  ∀ s : State, Canonical s →
    (s.fei.keyed = false → exec .feiEncCtr s = .next (rejected 5 s) ∧ exec .feiDecCtr s = .next (rejected 5 s)) ∧
    (s.fei.keyed = true → s.ivLen ≠ 0 → s.ivLen ≠ 4 → exec .feiEncCtr s = .next (rejected 3 s)) ∧
    (s.fei.keyed = true → s.ivLen ≠ 4 → exec .feiDecCtr s = .next (rejected 3 s)) ∧
    (s.fei.keyed = true → (s.ivLen = 0 ∨ s.ivLen = 4) →
      ∃ r t, IvResolved 4 s r ∧ exec .feiEncCtr s = .next t ∧ OutputOnly s.dinLen r t ∧
        ∀ i < (s.dinLen + 7) / 8, memRead t .dout (8 * i) (min 8 (s.dinLen - 8 * i)) =
          xorBytes (memRead s .din (8 * i) (min 8 (s.dinLen - 8 * i)))
            ((feiE params s.fei.sk (memRead r .iv 0 4 ++ toBe32 (BitVec.ofNat 32 i))).take (min 8 (s.dinLen - 8 * i)))) ∧
    (s.fei.keyed = true → s.ivLen = 4 → ∃ t, exec .feiDecCtr s = .next t ∧ exec .feiEncCtr s = .next t)

/-- 42 R165: in every mode, the decrypting command applied to the output of the encrypting one, with the same key and the same IV,
returns the message. The rule is an inference of the spec. -/
def Obligations.FeiModesRoundTrip : Prop :=
  ∀ e d : Instr, (e, d) ∈ [(Instr.feiEncEcb, Instr.feiDecEcb), (.feiEncCbc, .feiDecCbc), (.feiEncCfb, .feiDecCfb),
      (.feiEncCtr, .feiDecCtr)] →
    ∀ s s' t : State, Canonical s → Canonical s' → exec e s = .next t → t.err = 0 → s'.fei = t.fei →
      operand s' .iv = operand t .iv → operand s' .din = operand t .dout →
      ∃ u, exec d s' = .next u ∧ u.err = 0 ∧ operand u .dout = operand s .din

/-! ## `SPN` -/

/-- 43 R181 to R185: `SPN.INIT`: the round keys come from the prekey recurrence over the padded key. The bytes drawn for an
empty key and their count are the model's free values (log 5). -/
def Obligations.SpnInitRule : Prop :=
  encode .spnInit = 0x20#32 ∧
  ∀ s : State, Canonical s →
    (s.keyLen = 0 ∨ s.keyLen = 16 ∨ s.keyLen = 24 ∨ s.keyLen = 32 →
      ∃ (r t : State) (key : Bytes) (w : Nat → Word), KeyResolved 32 s r ∧ exec .spnInit s = .next t ∧
        t = { r with spn := t.spn, err := 0, doutLen := 0 } ∧ t.spn.keyed = true ∧
        (key = if r.keyLen = 32 then memRead r .key 0 32
          else memRead r .key 0 r.keyLen ++ [0x01#8] ++ List.replicate (31 - r.keyLen) 0) ∧
        (∀ i < 8, w i = le32 (key.drop (4 * i))) ∧
        (∀ i, 8 ≤ i → i < 140 → w i =
          rotl (w (i - 8) ^^^ w (i - 5) ^^^ w (i - 3) ^^^ w (i - 1) ^^^ 0x9e3779b9#32 ^^^ BitVec.ofNat 32 (i - 8)) 11) ∧
        ∀ (n : Fin 33) (j : Fin 4), t.spn.rk[n][j] = spnNib params ⟨n.val % 8, by omega⟩ (w (8 + 4 * n.val + j.val))) ∧
    (s.keyLen ≠ 0 → s.keyLen ≠ 16 → s.keyLen ≠ 24 → s.keyLen ≠ 32 → exec .spnInit s = .next (rejected 1 s))

/-- 43 R190, R193: `SPN.ENCB` and `SPN.DECB`. -/
def Obligations.SpnSingleBlockRules : Prop :=
  (encode .spnEncb = 0x24#32 ∧ encode .spnDecb = 0x28#32) ∧
  ∀ s : State, Canonical s →
    (s.spn.keyed = false → exec .spnEncb s = .next (rejected 5 s) ∧ exec .spnDecb s = .next (rejected 5 s)) ∧
    (s.spn.keyed = true → s.dinLen ≠ 16 → exec .spnEncb s = .next (rejected 2 s) ∧ exec .spnDecb s = .next (rejected 2 s)) ∧
    (s.spn.keyed = true → s.dinLen = 16 →
      (∃ t, exec .spnEncb s = .next t ∧ Delivers (spnE params s.spn.rk (memRead s .din 0 16)) s t) ∧
      ∃ t, exec .spnDecb s = .next t ∧ Delivers (spnD params s.spn.rk (memRead s .din 0 16)) s t)

/-- 43 R187: `SPN_FP` undoes `SPN_IP` and the other way round, on every 16-byte block. -/
def Obligations.SpnPermutationsAreInverse : Prop :=
  ∀ (P : Params) (b : Bytes), b.length = 16 →
    permBits P.spnIp.symm (permBits P.spnIp b) = b ∧ permBits P.spnIp (permBits P.spnIp.symm b) = b

/-- 43 R194: `SPN_L` is linear, its kernel is 0 and 0xFFFFFFFF, and 32 applications of it give 0; so, whatever the tables and the
round keys, two blocks have the same encryption. The rule is an inference of the spec. -/
def Obligations.SpnEncryptionIsNotInjective : Prop :=
  (∀ x y : Word, spnL (x ^^^ y) = spnL x ^^^ spnL y) ∧
  (∀ x : Word, spnL x = 0 ↔ x = 0 ∨ x = 0xFFFFFFFF#32) ∧ (∀ x : Word, spnL^[32] x = 0) ∧
  ∀ (P : Params) (rk : Vector (Vector Word 4) 33), ∃ b b' : Bytes, b.length = 16 ∧ b'.length = 16 ∧ b ≠ b' ∧
    spnE P rk b = spnE P rk b'

/-- 43 R194 (95 V-SPN-6): where every S-box is the identity, `SPN_E(B)` does not depend on B. An inference of the spec. -/
def Obligations.SpnWithIdentitySboxesIgnoresTheBlock : Prop :=
  ∀ (P : Params) (rk : Vector (Vector Word 4) 33) (b b' : Bytes), (∀ n v, P.spnSbox n v = v) →
    spnE P rk b = spnE P rk b'

/-- 43 R200: `PAD16` appends p bytes of value p, p from 1 to 16, to a nonzero multiple of 16 bytes, and `UNPAD16` gives P exactly of
the padded P. -/
def Obligations.UnpaddingUndoesExactlyPadding : Prop :=
  (∀ m : Bytes, ∃ p, 1 ≤ p ∧ p ≤ 16 ∧ pad16 m = m ++ List.replicate p (BitVec.ofNat 8 p) ∧ (pad16 m).length % 16 = 0) ∧
  ∀ m p : Bytes, m ≠ [] → m.length % 16 = 0 → (unpad16 m = some p ↔ m = pad16 p)

/-- 43 R201, R202: `SPN.ENC.ECB`, and `SPN.DEC.ECB`, where m is the decrypted message. -/
def Obligations.SpnEcbRules : Prop :=
  (encode .spnEncEcb = 0x2C#32 ∧ encode .spnDecEcb = 0x30#32) ∧
  ∀ s : State, Canonical s →
    (s.spn.keyed = false → exec .spnEncEcb s = .next (rejected 5 s)) ∧
    (s.spn.keyed = true →
      ∃ t, exec .spnEncEcb s = .next t ∧ OutputOnly (s.dinLen + 16 - s.dinLen % 16) s t ∧
        ∀ i < s.dinLen / 16 + 1, memRead t .dout (16 * i) 16 =
          spnE params s.spn.rk (((pad16 (operand s .din)).drop (16 * i)).take 16)) ∧
    (s.spn.keyed = false → exec .spnDecEcb s = .next (rejected 5 s)) ∧
    (s.spn.keyed = true → (s.dinLen = 0 ∨ s.dinLen % 16 ≠ 0) → exec .spnDecEcb s = .next (rejected 2 s)) ∧
    (s.spn.keyed = true → s.dinLen ≠ 0 → s.dinLen % 16 = 0 →
      ∃ m : Bytes, m.length = s.dinLen ∧
        (∀ i < s.dinLen / 16, (m.drop (16 * i)).take 16 = spnD params s.spn.rk (memRead s .din (16 * i) 16)) ∧
        (unpad16 m = none → exec .spnDecEcb s = .next (rejected 6 s)) ∧
        ∀ p, unpad16 m = some p → ∃ t, exec .spnDecEcb s = .next t ∧ Delivers p s t)

/-- 43 R204: `SPN.ENC.CBC`: the IV comes first, then the chained blocks of the padded message. The bytes drawn for an empty IV and
their count are the model's free values (log 5). -/
def Obligations.SpnEncCbcRule : Prop :=
  encode .spnEncCbc = 0x2D#32 ∧
  ∀ s : State, Canonical s →
    (s.spn.keyed = false → exec .spnEncCbc s = .next (rejected 5 s)) ∧
    (s.spn.keyed = true → s.ivLen ≠ 0 → s.ivLen ≠ 16 → exec .spnEncCbc s = .next (rejected 3 s)) ∧
    (s.spn.keyed = true → (s.ivLen = 0 ∨ s.ivLen = 16) →
      ∃ r t, IvResolved 16 s r ∧ exec .spnEncCbc s = .next t ∧ OutputOnly (16 + (s.dinLen + 16 - s.dinLen % 16)) r t ∧
        memRead t .dout 0 16 = memRead r .iv 0 16 ∧
        ∀ i < s.dinLen / 16 + 1, memRead t .dout (16 + 16 * i) 16 =
          spnE params s.spn.rk (xorBytes (((pad16 (operand s .din)).drop (16 * i)).take 16) (memRead t .dout (16 * i) 16)))

/-- 43 R205: `SPN.DEC.CBC`: m is the decrypted message; the IV is the first block of the input, and goes to `IV` on success. -/
def Obligations.SpnDecCbcRule : Prop :=
  encode .spnDecCbc = 0x31#32 ∧
  ∀ s : State, Canonical s →
    (s.spn.keyed = false → exec .spnDecCbc s = .next (rejected 5 s)) ∧
    (s.spn.keyed = true → (s.dinLen < 32 ∨ s.dinLen % 16 ≠ 0) → exec .spnDecCbc s = .next (rejected 2 s)) ∧
    (s.spn.keyed = true → 32 ≤ s.dinLen → s.dinLen % 16 = 0 →
      ∃ m : Bytes, m.length = s.dinLen - 16 ∧
        (∀ i < s.dinLen / 16 - 1, (m.drop (16 * i)).take 16 =
          xorBytes (spnD params s.spn.rk (memRead s .din (16 + 16 * i) 16)) (memRead s .din (16 * i) 16)) ∧
        (unpad16 m = none → exec .spnDecCbc s = .next (rejected 6 s)) ∧
        ∀ p, unpad16 m = some p → ∃ r t, exec .spnDecCbc s = .next t ∧
          r = { s with ivBuf := r.ivBuf, ivLen := 16 } ∧ memRead r .iv 0 16 = memRead s .din 0 16 ∧
          BytesKept (firstBytes .iv 16) s r ∧ Delivers p r t)

/-! ## `TEA`, `XTEA` -/

/-- 44 R221, R227: `TEA.INIT` and `XTEA.INIT`. The bytes drawn for an empty key and their count are the model's free values
(log 5). -/
def Obligations.TeaAndXteaInitRules : Prop :=
  (encode .teaInit = 0x40#32 ∧ encode .xteaInit = 0x60#32) ∧
  ∀ s : State, Canonical s →
    (s.keyLen = 0 ∨ s.keyLen = 16 → ∃ r, KeyResolved 16 s r ∧
      (∃ t, exec .teaInit s = .next t ∧ t = { r with tea := t.tea, err := 0, doutLen := 0 } ∧ t.tea.keyed = true ∧
        ∀ j : Fin 4, t.tea.k[j] = be32 (memRead r .key (4 * j.val) 4)) ∧
      ∃ t, exec .xteaInit s = .next t ∧ t = { r with xtea := t.xtea, err := 0, doutLen := 0 } ∧ t.xtea.keyed = true ∧
        ∀ j : Fin 4, t.xtea.k[j] = be32 (memRead r .key (4 * j.val) 4)) ∧
    (s.keyLen ≠ 0 → s.keyLen ≠ 16 →
      exec .teaInit s = .next (rejected 1 s) ∧ exec .xteaInit s = .next (rejected 1 s))

/-- 44 R225, R226, R230, R231: `TEA.ENC`, `TEA.DEC`, `XTEA.ENC`, `XTEA.DEC`: every block on its own. -/
def Obligations.TeaAndXteaRules : Prop :=
  (encode .teaEnc = 0x4C#32 ∧ encode .teaDec = 0x50#32 ∧ encode .xteaEnc = 0x6C#32 ∧ encode .xteaDec = 0x70#32) ∧
  ∀ s : State, Canonical s →
    (s.tea.keyed = false → exec .teaEnc s = .next (rejected 5 s) ∧ exec .teaDec s = .next (rejected 5 s)) ∧
    (s.tea.keyed = true → s.dinLen % 8 ≠ 0 → exec .teaEnc s = .next (rejected 2 s) ∧ exec .teaDec s = .next (rejected 2 s)) ∧
    (s.tea.keyed = true → s.dinLen % 8 = 0 →
      (∃ t, exec .teaEnc s = .next t ∧ OutputOnly s.dinLen s t ∧
        ∀ i < s.dinLen / 8, memRead t .dout (8 * i) 8 = teaE params s.tea.k (memRead s .din (8 * i) 8)) ∧
      ∃ t, exec .teaDec s = .next t ∧ OutputOnly s.dinLen s t ∧
        ∀ i < s.dinLen / 8, memRead t .dout (8 * i) 8 = teaD params s.tea.k (memRead s .din (8 * i) 8)) ∧
    (s.xtea.keyed = false → exec .xteaEnc s = .next (rejected 5 s) ∧ exec .xteaDec s = .next (rejected 5 s)) ∧
    (s.xtea.keyed = true → s.dinLen % 8 ≠ 0 →
      exec .xteaEnc s = .next (rejected 2 s) ∧ exec .xteaDec s = .next (rejected 2 s)) ∧
    (s.xtea.keyed = true → s.dinLen % 8 = 0 →
      (∃ t, exec .xteaEnc s = .next t ∧ OutputOnly s.dinLen s t ∧
        ∀ i < s.dinLen / 8, memRead t .dout (8 * i) 8 = xteaE params s.xtea.k (memRead s .din (8 * i) 8)) ∧
      ∃ t, exec .xteaDec s = .next t ∧ OutputOnly s.dinLen s t ∧
        ∀ i < s.dinLen / 8, memRead t .dout (8 * i) 8 = xteaD params s.xtea.k (memRead s .din (8 * i) 8))

/-- 44 R232: with the default mixes, decryption inverts encryption for any DELTA and any round counts; "TEA.DEC undoes TEA.ENC and
XTEA.DEC undoes XTEA.ENC on every accepted message". An inference of the spec. -/
def Obligations.TeaAndXteaRoundTrip : Prop :=
  (∀ (P : Params) (k : Vector Word 4) (b : Bytes), b.length = 8 →
    (P.teaMix = teaMixDefault → teaD P k (teaE P k b) = b) ∧
    (P.xteaMix = xteaMixDefault → xteaD P k (xteaE P k b) = b)) ∧
  ∀ e d : Instr, (e, d) ∈ [(Instr.teaEnc, Instr.teaDec), (.xteaEnc, .xteaDec)] →
    ∀ s s' t : State, Canonical s → Canonical s' → exec e s = .next t → t.err = 0 → s'.tea = t.tea → s'.xtea = t.xtea →
      operand s' .din = operand t .dout →
      ∃ u, exec d s' = .next u ∧ u.err = 0 ∧ operand u .dout = operand s .din

/-! ## `XXT` -/

/-- 45 R241: `XXT.INIT`. The bytes drawn for an empty key and their count are the model's free values (log 5). -/
def Obligations.XxtInitRule : Prop :=
  encode .xxtInit = 0x80#32 ∧
  ∀ s : State, Canonical s →
    (s.keyLen = 0 ∨ s.keyLen = 16 → ∃ r t, KeyResolved 16 s r ∧ exec .xxtInit s = .next t ∧
      t = { r with xxt := t.xxt, err := 0, doutLen := 0 } ∧ t.xxt.keyed = true ∧
      ∀ j : Fin 4, t.xxt.k[j] = le32 (memRead r .key (4 * j.val) 4)) ∧
    (s.keyLen ≠ 0 → s.keyLen ≠ 16 → exec .xxtInit s = .next (rejected 1 s))

/-- 45 R243: the round counts the rule lists. -/
def Obligations.XxtRoundCounts : Prop :=
  (∀ n, 2 ≤ n → xxtRoundCount n = 6 + 52 / n) ∧ xxtRoundCount 2 = 32 ∧ xxtRoundCount 3 = 23 ∧ xxtRoundCount 4 = 19 ∧
  xxtRoundCount 13 = 10 ∧ xxtRoundCount 26 = 8 ∧ (∀ n, 27 ≤ n → n ≤ 52 → xxtRoundCount n = 7) ∧
  ∀ n, 53 ≤ n → xxtRoundCount n = 6

/-- 45 R244: the passes of the model, which update the array in place, are those of the rule's pseudocode, which carries `y` and
`z`. It rests on the spec's default (log 14). -/
def Obligations.XxtPassesFollowThePseudocode : Prop :=
  ∀ (k : Vector Word 4) (v : List Word), 2 ≤ v.length →
    xxtEncWords params k v = xxtEncPseudocode k v ∧ xxtDecWords params k v = xxtDecPseudocode k v

/-- 45 R245, R247: `XXT.ENC` and `XXT.DEC`; a buffer of fewer than two words is not transformed (70 R320), and the output of
`XXT.DEC` keeps the padded length. -/
def Obligations.XxtRules : Prop :=
  (encode .xxtEnc = 0x8C#32 ∧ encode .xxtDec = 0x90#32) ∧
  ∀ s : State, Canonical s →
    (s.xxt.keyed = false → exec .xxtEnc s = .next (rejected 5 s)) ∧
    (s.xxt.keyed = true →
      ∃ m t, m = operand s .din ++ List.replicate ((4 - s.dinLen % 4) % 4) 0 ∧ exec .xxtEnc s = .next t ∧
        OutputOnly m.length s t ∧
        (s.dinLen ≤ 4 → operand t .dout = m) ∧
        (4 < s.dinLen → xxtWords params (operand t .dout) = xxtEncWords params s.xxt.k (xxtWords params m))) ∧
    (s.xxt.keyed = false → exec .xxtDec s = .next (rejected 5 s)) ∧
    (s.xxt.keyed = true → s.dinLen % 4 ≠ 0 → exec .xxtDec s = .next (rejected 2 s)) ∧
    (s.xxt.keyed = true → s.dinLen % 4 = 0 →
      ∃ t, exec .xxtDec s = .next t ∧ OutputOnly s.dinLen s t ∧
        (s.dinLen ≤ 4 → operand t .dout = operand s .din) ∧
        (4 < s.dinLen → xxtWords params (operand t .dout) = xxtDecWords params s.xxt.k (xxtWords params (operand s .din))))

/-- 45 R248: the passes of decryption undo those of encryption, and `XXT.DEC` of the output of `XXT.ENC` on M is the padded M. An
inference of the spec; it rests on the spec's default (log 14). -/
def Obligations.XxtRoundTrip : Prop :=
  (∀ (k : Vector Word 4) (v : List Word), 2 ≤ v.length → xxtDecWords params k (xxtEncWords params k v) = v) ∧
  ∀ s s' t : State, Canonical s → Canonical s' → exec .xxtEnc s = .next t → t.err = 0 → s'.xxt = t.xxt →
    operand s' .din = operand t .dout →
    ∃ u, exec .xxtDec s' = .next u ∧ u.err = 0 ∧ operand u .dout = xxtPad (operand s .din)

/-! ## `STR` -/

/-- 46 R261, R263: `STR.INIT`: setup, two cycles, and the final step that re-keys the counters; the functions are the spec's
defaults (log 15). The bytes drawn for an empty key and their count are the model's free values (log 5). -/
def Obligations.StrInitRule : Prop :=
  encode .strInit = 0xA0#32 ∧
  ∀ s : State, Canonical s →
    (s.keyLen = 0 ∨ s.keyLen = 16 → ∃ r t c, KeyResolved 16 s r ∧ exec .strInit s = .next t ∧
      t = { r with str := t.str, err := 0, doutLen := 0 } ∧ t.str.keyed = true ∧
      c = params.strCycle (params.strCycle (params.strSetup (memRead r .key 0 16))) ∧
      t.str.st.x = c.x ∧ t.str.st.a = c.a ∧ t.str.st.carry = c.carry ∧
      ∀ j : Fin 8, t.str.st.c[j] = c.c[j] ^^^ c.x[(j.val + 4) % 8]'(by omega)) ∧
    (s.keyLen ≠ 0 → s.keyLen ≠ 16 → exec .strInit s = .next (rejected 1 s))

/-- 46 R264: the counter update of the default `STR_CYCLE` is one addition with carry: read as a 256-bit number, C grows by A and
the old carry, the new carry being what overflows. It rests on the spec's default (log 15). -/
def Obligations.StrCountersAddWithCarry : Prop :=
  ∀ s : Config.StreamState,
    (∑ j : Fin 8, (strCycleDefault s).c[j].toNat * 2 ^ (32 * j.val)) + (strCycleDefault s).carry.toNat * 2 ^ 256 =
      (∑ j : Fin 8, s.c[j].toNat * 2 ^ (32 * j.val)) + (∑ j : Fin 8, s.a[j].toNat * 2 ^ (32 * j.val)) + s.carry.toNat

/-- 46 R267: `STR.KSB`. -/
def Obligations.StrKsbRule : Prop :=
  encode .strKsb = 0xB4#32 ∧
  ∀ s : State, Canonical s →
    (s.str.keyed = false → exec .strKsb s = .next (rejected 5 s)) ∧
    (s.str.keyed = true →
      ∃ r t, r = { s with str := { s.str with st := params.strCycle s.str.st } } ∧ exec .strKsb s = .next t ∧
        Delivers (strKeystream params r.str.st) r t ∧ t.doutLen = 16)

/-- 46 R268, R269: `STR.ENC` and `STR.DEC`: block i is combined with the keystream of the state i + 1 cycles on, and the context
advances by `ceil(DINLEN / 16)` cycles. -/
def Obligations.StrEncAndDecRules : Prop :=
  (encode .strEnc = 0xAC#32 ∧ encode .strDec = 0xB0#32) ∧
  ∀ s : State, Canonical s →
    (s.str.keyed = false → exec .strEnc s = .next (rejected 5 s)) ∧
    (s.str.keyed = true →
      ∃ r t, r = { s with str := { s.str with st := params.strCycle^[(s.dinLen + 15) / 16] s.str.st } } ∧
        exec .strEnc s = .next t ∧ OutputOnly s.dinLen r t ∧
        ∀ i < (s.dinLen + 15) / 16, memRead t .dout (16 * i) (min 16 (s.dinLen - 16 * i)) =
          xorBytes (memRead s .din (16 * i) (min 16 (s.dinLen - 16 * i)))
            ((strKeystream params (params.strCycle^[i + 1] s.str.st)).take (min 16 (s.dinLen - 16 * i)))) ∧
    ∃ t, exec .strDec s = .next t ∧ exec .strEnc s = .next t

/-- 46 R270: from the same stream state, `STR.ENC` or `STR.DEC` applied to the output of `STR.ENC` returns the message, for any
functions of the unit. An inference of the spec. -/
def Obligations.StrRoundTripFromTheSameState : Prop :=
  (∀ s, exec .strEnc s = .next (strEnc params s) ∧ exec .strDec s = .next (strDec params s)) ∧
  ∀ (P : Params) (s s' : State), s.doutBuf.wf → s'.doutBuf.wf → s.str.keyed = true → s'.str = s.str →
    operand s' .din = operand (strEnc P s) .dout →
    operand (strEnc P s') .dout = operand s .din ∧ operand (strDec P s') .dout = operand s .din

/-- 46 R271: a message split after a multiple of 16 bytes gives the same output and the same final context. An inference of the
spec. -/
def Obligations.StrSplitAtWholeBlocksIsSeamless : Prop :=
  ∀ s s1 s2 t t1 : State, Canonical s → Canonical s1 → Canonical s2 → s.str.keyed = true →
    s1.str = s.str → s1.dinLen % 16 = 0 → operand s .din = operand s1 .din ++ operand s2 .din →
    exec .strEnc s = .next t → exec .strEnc s1 = .next t1 → s2.str = t1.str →
    ∃ t2, exec .strEnc s2 = .next t2 ∧ operand t .dout = operand t1 .dout ++ operand t2 .dout ∧ t.str = t2.str

/-! ## Primitives -/

/-- 00 R20: the packings and their inverses. -/
def Obligations.PackingIsPositional : Prop :=
  (∀ b0 b1 b2 b3 : Byte,
    (be32 [b0, b1, b2, b3]).toNat = b0.toNat * 2 ^ 24 + b1.toNat * 2 ^ 16 + b2.toNat * 2 ^ 8 + b3.toNat ∧
    (le32 [b0, b1, b2, b3]).toNat = b0.toNat + b1.toNat * 2 ^ 8 + b2.toNat * 2 ^ 16 + b3.toNat * 2 ^ 24 ∧
    (le16 [b0, b1]).toNat = b0.toNat + b1.toNat * 2 ^ 8 ∧
    toBe32 (be32 [b0, b1, b2, b3]) = [b0, b1, b2, b3] ∧ toLe32 (le32 [b0, b1, b2, b3]) = [b0, b1, b2, b3]) ∧
  ∀ w : Word, be32 (toBe32 w) = w ∧ le32 (toLe32 w) = w

/-- 00 R15, R16: a rotation moves bit i to bit (i + r) mod n, and the right rotation undoes the left one. -/
def Obligations.RotationsMoveBitsCyclically : Prop :=
  ∀ (n : Nat) (x : BitVec n) (r : Nat), 0 < n →
    (∀ i < n, (rotl x r).getLsbD ((i + r) % n) = x.getLsbD i) ∧ rotr (rotl x r) r = x ∧ rotl (rotr x r) r = x

/-! ## Host accesses -/

/-- 10 R34 to R36: a host read of a register returns its value, in the model's response (log 2), and changes nothing. -/
def Obligations.HostReadsRegisters : Prop :=
  ∀ (s : State) (r : Register) (rest : List Input), s.pending = readReg r :: rest →
    ∃ v : Word, step s = .next { s with pending := rest, response := some v } ∧
      match r with
      | .cmd => v = s.cmd
      | .status => v.extractLsb' 0 4 = s.err ∧ v.extractLsb' 4 4 = 0 ∧ v.getLsbD 8 = s.fei.keyed ∧ v.getLsbD 9 = s.spn.keyed ∧
          v.getLsbD 10 = s.tea.keyed ∧ v.getLsbD 11 = s.xtea.keyed ∧ v.getLsbD 12 = s.xxt.keyed ∧
          v.getLsbD 13 = s.str.keyed ∧ v.extractLsb' 14 18 = 0
      | .keyLen => v = BitVec.ofNat 32 s.keyLen
      | .ivLen => v = BitVec.ofNat 32 s.ivLen
      | .dinLen => v = BitVec.ofNat 32 s.dinLen
      | .doutLen => v = BitVec.ofNat 32 s.doutLen

/-- 10 R32: a host read of a buffer byte returns it; of a byte of `DOUTBUF` at or beyond `DOUTLEN` it returns a free value
(log 6). -/
def Obligations.HostReadsBufferBytes : Prop :=
  ∀ (s : State) (sp : Space) (o : Nat) (rest : List Input), o < capOf params sp → s.pending = readByte sp o :: rest →
    (sp ≠ .dout ∨ o < s.doutLen →
      step s = .next { s with pending := rest, response := some (((bufOf s sp).read o).setWidth 32) }) ∧
    (sp = .dout → s.doutLen ≤ o →
      step s = .next { s with pending := rest, staleReads := s.staleReads + 1, response := some ((Config.staleByte s.staleReads).setWidth 32) })

/-- 10 R32, R36: a host write of a length within the capacity sets the register; above it the register keeps its value. -/
def Obligations.HostWritesLengths : Prop :=
  ∀ (s : State) (v : Word) (rest : List Input),
    (s.pending = writeReg .keyLen v :: rest →
      step s = .next { s with pending := rest, response := none, keyLen := if v.toNat ≤ 64 then v.toNat else s.keyLen }) ∧
    (s.pending = writeReg .ivLen v :: rest →
      step s = .next { s with pending := rest, response := none, ivLen := if v.toNat ≤ 32 then v.toNat else s.ivLen }) ∧
    (s.pending = writeReg .dinLen v :: rest →
      step s = .next { s with pending := rest, response := none, dinLen := if v.toNat ≤ params.bufCap then v.toNat else s.dinLen })

/-- 10 R32: a host write of a byte of `KEYBUF`, `IVBUF` or `DINBUF` stores that byte and changes nothing else. -/
def Obligations.HostWritesBufferBytes : Prop :=
  ∀ (s : State) (sp : Space) (o : Nat) (b : Byte) (rest : List Input), Canonical s → sp ≠ .dout → o < capOf params sp →
    s.pending = writeByte sp o b :: rest →
    ∃ t, step s = .next t ∧
      t = { s with pending := rest, response := none, keyBuf := t.keyBuf, ivBuf := t.ivBuf, dinBuf := t.dinBuf } ∧
      (bufOf t sp).read o = b ∧
      ∀ sp' a, (sp' ≠ sp ∨ a ≠ o) → (bufOf t sp').read a = (bufOf s sp').read a

/-- 10 R35, R37 (93 U5), 20 R73: writes to `STATUS`, `DOUTLEN`, `DOUTBUF` and reserved offsets are ignored, and reserved offsets
read as 0: those of a buffer window by bytes. That those in no window take every width is the model's choice (log 17). -/
def Obligations.ReadOnlyAndReservedLocations : Prop :=
  ∀ (s : State) (v : Word) (rest : List Input),
    (∀ i, (i = writeReg .status v ∨ i = writeReg .doutLen v ∨ (∃ o b, o < params.bufCap + 32 ∧ i = writeByte .dout o b)) →
      s.pending = i :: rest → step s = .next { s with pending := rest, response := none }) ∧
    ∀ (size : AccessSize) (a : Nat), (0x18 ≤ a ∧ a + size.bytes ≤ 0x40) ∨ (0xA0 ≤ a ∧ a + size.bytes ≤ 0x10000) ∨
        (size = .byte ∧ ((0x10000 + params.bufCap ≤ a ∧ a < 0x20000) ∨ (0x20000 + params.bufCap + 32 ≤ a ∧ a < 0x30000))) →
      (s.pending = .access (.write size a v) :: rest → step s = .next { s with pending := rest, response := none }) ∧
      (s.pending = .access (.read size a) :: rest → step s = .next { s with pending := rest, response := some 0 })

/-- 20 R73 (92 D1, 93 U4): refused are a narrower or misaligned access to a control register, an access wider than one byte that
touches a buffer or its window, reserved offsets included, and an access above the map. That the map ends at 0x30000 is an inference
of the model (log 18). -/
def Obligations.AccessesOutsideTheInterfaceStop : Prop :=
  ∀ (s : State) (size : AccessSize) (a : Nat) (v : Word) (x : HostAccess) (rest : List Input),
    (x = .read size a ∨ x = .write size a v) → s.pending = .access x :: rest →
    (a < 0x18 → (size ≠ .word ∨ a % 4 ≠ 0) → step s = .refused (.outsideInterface size a)) ∧
    (size ≠ .byte → (∃ k < size.bytes, (0x40 ≤ a + k ∧ a + k < 0xA0) ∨ (0x10000 ≤ a + k ∧ a + k < 0x30000)) →
      step s = .refused (.outsideInterface size a)) ∧
    (0x30000 ≤ a → step s = .refused (.outsideInterface size a))

/-- 30 R109: `SETKEY b`, `SETIV b` and `SETDIN b` give the operand register the value b and change nothing else but bytes of its
buffer below the length of b. -/
def Obligations.SetOperandMacroSetsTheValue : Prop :=
  ∀ (s : State) (sp : Space) (b : Bytes) (rest : List Input), Canonical s → sp ≠ .dout → b.length ≤ capOf params sp →
    s.pending = setOperandMacro sp b ++ rest →
    ∃ t, core.run (b.length + 1) s = .next t ∧ t.pending = rest ∧ operand t sp = b ∧
      BytesKept (firstBytes sp b.length) s t ∧ (∀ sp', sp' ≠ sp → lenOf t sp' = lenOf s sp') ∧
      t.cmd = s.cmd ∧ t.err = s.err ∧ t.draws = s.draws ∧ ∀ u, SameContext u s t
end

