-- ==== Sys2Proof/Laws/Blocks.lean ====
section
/-! SUPPORT. The blocks of a message (20 R77), and the output of each chaining mode as a list of output blocks, one for each. -/

namespace Sys2Proof.Machine

/-! ## The blocks of a message -/

@[simp] theorem blocks_nil (B : Nat) (hB : 0 < B) : blocks B [] = [] := by
  simp [blocks, blockCount, Nat.div_eq_of_lt (show B - 1 < B by omega)]

@[simp] theorem length_blocks (B : Nat) (m : Bytes) : (blocks B m).length = blockCount B m.length := by simp [blocks]

/-- Block i, as 20 R77 gives it. -/
theorem getElem_blocks (B : Nat) (m : Bytes) (i : Nat) (h : i < (blocks B m).length) :
    (blocks B m)[i] = (m.drop (B * i)).take B := by simp [blocks]

/-- One block more than the rest of the message has. -/
theorem blockCount_eq_succ {B len : Nat} (hB : 0 < B) (h : 0 < len) : blockCount B len = blockCount B (len - B) + 1 := by
  unfold blockCount
  by_cases hl : len ≤ B
  · rw [Nat.sub_eq_zero_of_le hl, Nat.zero_add, Nat.div_eq_of_lt (show B - 1 < B by omega), Nat.div_eq_iff hB]
    omega
  · rw [← Nat.add_div_right _ hB]
    congr 1
    omega

/-- The blocks of a message that is not empty: the first one, then those of the rest. -/
theorem blocks_eq_cons {B : Nat} (hB : 0 < B) {m : Bytes} (h : m ≠ []) : blocks B m = m.take B :: blocks B (m.drop B) := by
  have hm : 0 < m.length := List.length_pos_iff.2 h
  unfold blocks
  rw [blockCount_eq_succ hB hm, List.range_succ_eq_map, List.map_cons, List.map_map, List.length_drop]
  congr 1
  refine List.map_congr_left fun i _ => ?_
  simp [Nat.mul_add, Nat.add_comm]

/-- A whole number of blocks. -/
theorem blockCount_of_dvd {B len : Nat} (hB : 0 < B) (h : len % B = 0) : blockCount B len = len / B := by
  unfold blockCount
  obtain ⟨k, rfl⟩ := Nat.dvd_of_mod_eq_zero h
  rw [Nat.mul_div_cancel_left _ hB, Nat.div_eq_iff hB, Nat.mul_comm]
  omega

/-- The blocks put together are the message. -/
theorem flatten_blocks {B : Nat} (hB : 0 < B) (m : Bytes) : (blocks B m).flatten = m := by
  induction hn : m.length using Nat.strongRecOn generalizing m with
  | ind n ih =>
    by_cases h : m = []
    · simp [h, blocks_nil B hB]
    · rw [blocks_eq_cons hB h, List.flatten_cons, ih (m.drop B).length _ _ rfl, List.take_append_drop]
      have := List.length_pos_iff.2 h
      simp only [List.length_drop]
      omega

/-- The blocks of whole blocks followed by more: first the ones, then the others. -/
theorem blocks_append {B : Nat} (hB : 0 < B) {m : Bytes} (h : m.length % B = 0) (m' : Bytes) :
    blocks B (m ++ m') = blocks B m ++ blocks B m' := by
  induction hn : m.length using Nat.strongRecOn generalizing m with
  | ind n ih =>
    by_cases hm : m = []
    · simp [hm, blocks_nil B hB]
    · have hlt : B ≤ m.length := by
        have := List.length_pos_iff.2 hm
        exact Nat.le_of_dvd this (Nat.dvd_of_mod_eq_zero h)
      have hd : (m.drop B).length % B = 0 := by
        rw [List.length_drop, ← Nat.mod_eq_sub_mod hlt, h]
      rw [blocks_eq_cons hB (by simp [hm]), blocks_eq_cons hB hm, List.take_append_of_le_length hlt,
        List.drop_append_of_le_length hlt, ih (m.drop B).length _ hd rfl]
      · rfl
      · rw [List.length_drop]
        omega

/-- Every block of a whole number of blocks is full. -/
theorem length_of_mem_blocks {B : Nat} (hB : 0 < B) {m : Bytes} (h : m.length % B = 0) : ∀ b ∈ blocks B m, b.length = B := by
  intro b hb
  obtain ⟨i, hi, rfl⟩ := List.mem_iff_getElem.1 hb
  rw [getElem_blocks, List.length_take, List.length_drop]
  rw [length_blocks, blockCount_of_dvd hB h] at hi
  have h1 : B * (i + 1) ≤ m.length := by
    calc B * (i + 1) ≤ B * (m.length / B) := Nat.mul_le_mul_left _ hi
      _ ≤ m.length := Nat.mul_div_le _ _
  rw [Nat.mul_add] at h1
  omega

/-- The length of block i. -/
theorem length_getElem_blocks (B : Nat) (m : Bytes) (i : Nat) (h : i < (blocks B m).length) :
    (blocks B m)[i].length = min B (m.length - B * i) := by
  rw [getElem_blocks, List.length_take, List.length_drop]

/-! ## Byte strings -/

@[simp] theorem length_xorBytes (a b : Bytes) : (xorBytes a b).length = min a.length b.length := by simp [xorBytes]

/-- Exclusive or twice with the same byte string. -/
theorem xorBytes_cancel {a b : Bytes} (h : a.length ≤ b.length) : xorBytes (xorBytes a b) b = a := by
  apply List.ext_getElem
  · simp; omega
  · intro i h1 h2
    simp [xorBytes]

/-- A keystream block at least as long as the block is taken away by being added again. -/
theorem xorKeystream_cancel {b ks : Bytes} (h : b.length ≤ ks.length) : xorKeystream (xorKeystream b ks) ks = b := by
  have hl : (xorKeystream b ks).length = b.length := by simp [xorKeystream]; omega
  unfold xorKeystream at hl ⊢
  rw [hl]
  exact xorBytes_cancel (by simp; omega)

theorem length_xorKeystream {b ks : Bytes} (h : b.length ≤ ks.length) : (xorKeystream b ks).length = b.length := by
  simp [xorKeystream]; omega

/-! ## Output blocks -/

/-- Part i of byte strings put together, all full but the last. -/
theorem slice_flatten {B : Nat} {os : List Bytes} (h : ∀ i (hi : i + 1 < os.length), (os[i]'(by omega)).length = B) (i : Nat)
    (hi : i < os.length) : (os.flatten.drop (B * i)).take os[i].length = os[i] := by
  induction os generalizing i with
  | nil => simp at hi
  | cons o os ih =>
    cases i with
    | zero => simp
    | succ i =>
      have ho : o.length = B := h 0 (by simp at hi ⊢; omega)
      have hi' : i < os.length := by simpa using hi
      have h' : ∀ j (hj : j + 1 < os.length), (os[j]'(by omega)).length = B := fun j hj => by
        simpa using h (j + 1) (by simp; omega)
      simp only [List.flatten_cons, List.getElem_cons_succ]
      rw [show B * (i + 1) = o.length + B * i by rw [ho, Nat.mul_add]; omega, List.drop_append,
        List.drop_eq_nil_of_le (by omega), List.nil_append, Nat.add_sub_cancel_left]
      exact ih h' i hi'

/-- The output blocks of CBC encryption. -/
def cbcEncOut (e : Bytes → Bytes) : Bytes → List Bytes → List Bytes
  | _, [] => []
  | prev, b :: bs => e (xorBytes b prev) :: cbcEncOut e (e (xorBytes b prev)) bs

/-- The output blocks of CBC decryption. -/
def cbcDecOut (d : Bytes → Bytes) : Bytes → List Bytes → List Bytes
  | _, [] => []
  | prev, c :: cs => xorBytes (d c) prev :: cbcDecOut d c cs

/-- The output blocks of CFB encryption. -/
def cfbEncOut (e : Bytes → Bytes) : Bytes → List Bytes → List Bytes
  | _, [] => []
  | prev, b :: bs => xorKeystream b (e prev) :: cfbEncOut e (xorKeystream b (e prev)) bs

/-- The output blocks of CFB decryption. -/
def cfbDecOut (e : Bytes → Bytes) : Bytes → List Bytes → List Bytes
  | _, [] => []
  | prev, c :: cs => xorKeystream c (e prev) :: cfbDecOut e c cs

/-- The output blocks of CTR. -/
def ctrOut (e : Bytes → Bytes) (nonce : Bytes) : Word → List Bytes → List Bytes
  | _, [] => []
  | ctr, b :: bs => xorKeystream b (e (nonce ++ toBe32 ctr)) :: ctrOut e nonce (ctr + 1) bs

theorem ecb_eq (f : Bytes → Bytes) (bs : List Bytes) : ecb f bs = (bs.map f).flatten := by simp [ecb, List.flatMap]

theorem cbcEnc_eq (e : Bytes → Bytes) (prev : Bytes) (bs : List Bytes) : cbcEnc e prev bs = (cbcEncOut e prev bs).flatten := by
  induction bs generalizing prev with
  | nil => rfl
  | cons b bs ih => simp [cbcEnc, cbcEncOut, ih]

theorem cbcDec_eq (d : Bytes → Bytes) (prev : Bytes) (bs : List Bytes) : cbcDec d prev bs = (cbcDecOut d prev bs).flatten := by
  induction bs generalizing prev with
  | nil => rfl
  | cons b bs ih => simp [cbcDec, cbcDecOut, ih]

theorem cfbEnc_eq (e : Bytes → Bytes) (prev : Bytes) (bs : List Bytes) : cfbEnc e prev bs = (cfbEncOut e prev bs).flatten := by
  induction bs generalizing prev with
  | nil => rfl
  | cons b bs ih => simp [cfbEnc, cfbEncOut, ih]

theorem cfbDec_eq (e : Bytes → Bytes) (prev : Bytes) (bs : List Bytes) : cfbDec e prev bs = (cfbDecOut e prev bs).flatten := by
  induction bs generalizing prev with
  | nil => rfl
  | cons b bs ih => simp [cfbDec, cfbDecOut, ih]

theorem ctrMode_eq (e : Bytes → Bytes) (nonce : Bytes) (ctr : Word) (bs : List Bytes) :
    ctrMode e nonce ctr bs = (ctrOut e nonce ctr bs).flatten := by
  induction bs generalizing ctr with
  | nil => rfl
  | cons b bs ih => simp [ctrMode, ctrOut, ih]

@[simp] theorem length_cbcEncOut (e : Bytes → Bytes) (prev : Bytes) (bs : List Bytes) : (cbcEncOut e prev bs).length = bs.length := by
  induction bs generalizing prev with
  | nil => rfl
  | cons b bs ih => simp [cbcEncOut, ih]

@[simp] theorem length_cbcDecOut (d : Bytes → Bytes) (prev : Bytes) (bs : List Bytes) : (cbcDecOut d prev bs).length = bs.length := by
  induction bs generalizing prev with
  | nil => rfl
  | cons b bs ih => simp [cbcDecOut, ih]

@[simp] theorem length_cfbEncOut (e : Bytes → Bytes) (prev : Bytes) (bs : List Bytes) : (cfbEncOut e prev bs).length = bs.length := by
  induction bs generalizing prev with
  | nil => rfl
  | cons b bs ih => simp [cfbEncOut, ih]

@[simp] theorem length_cfbDecOut (e : Bytes → Bytes) (prev : Bytes) (bs : List Bytes) : (cfbDecOut e prev bs).length = bs.length := by
  induction bs generalizing prev with
  | nil => rfl
  | cons b bs ih => simp [cfbDecOut, ih]

@[simp] theorem length_ctrOut (e : Bytes → Bytes) (nonce : Bytes) (ctr : Word) (bs : List Bytes) :
    (ctrOut e nonce ctr bs).length = bs.length := by
  induction bs generalizing ctr with
  | nil => rfl
  | cons b bs ih => simp [ctrOut, ih]

theorem getElem_cbcEncOut (e : Bytes → Bytes) (prev : Bytes) (bs : List Bytes) (i : Nat) (h : i < bs.length) :
    (cbcEncOut e prev bs)[i]'(by simpa using h) =
      e (xorBytes bs[i] (if _ : i = 0 then prev else (cbcEncOut e prev bs)[i - 1]'(by simp; omega))) := by
  induction bs generalizing prev i with
  | nil => simp at h
  | cons b bs ih =>
    cases i with
    | zero => rfl
    | succ i =>
      have := ih (e (xorBytes b prev)) i (by simpa using h)
      simp only [cbcEncOut, List.getElem_cons_succ]
      rw [this]
      cases i with
      | zero => simp
      | succ i => simp

theorem getElem_cbcDecOut (d : Bytes → Bytes) (prev : Bytes) (bs : List Bytes) (i : Nat) (h : i < bs.length) :
    (cbcDecOut d prev bs)[i]'(by simpa using h) = xorBytes (d bs[i]) (if _ : i = 0 then prev else bs[i - 1]'(by omega)) := by
  induction bs generalizing prev i with
  | nil => simp at h
  | cons b bs ih =>
    cases i with
    | zero => rfl
    | succ i =>
      have := ih b i (by simpa using h)
      simp only [cbcDecOut, List.getElem_cons_succ]
      rw [this]
      cases i with
      | zero => simp
      | succ i => simp

theorem getElem_cfbEncOut (e : Bytes → Bytes) (prev : Bytes) (bs : List Bytes) (i : Nat) (h : i < bs.length) :
    (cfbEncOut e prev bs)[i]'(by simpa using h) =
      xorKeystream bs[i] (e (if _ : i = 0 then prev else (cfbEncOut e prev bs)[i - 1]'(by simp; omega))) := by
  induction bs generalizing prev i with
  | nil => simp at h
  | cons b bs ih =>
    cases i with
    | zero => rfl
    | succ i =>
      have := ih (xorKeystream b (e prev)) i (by simpa using h)
      simp only [cfbEncOut, List.getElem_cons_succ]
      rw [this]
      cases i with
      | zero => simp
      | succ i => simp

theorem getElem_cfbDecOut (e : Bytes → Bytes) (prev : Bytes) (bs : List Bytes) (i : Nat) (h : i < bs.length) :
    (cfbDecOut e prev bs)[i]'(by simpa using h) =
      xorKeystream bs[i] (e (if _ : i = 0 then prev else bs[i - 1]'(by omega))) := by
  induction bs generalizing prev i with
  | nil => simp at h
  | cons b bs ih =>
    cases i with
    | zero => rfl
    | succ i =>
      have := ih b i (by simpa using h)
      simp only [cfbDecOut, List.getElem_cons_succ]
      rw [this]
      cases i with
      | zero => simp
      | succ i => simp

theorem getElem_ctrOut (e : Bytes → Bytes) (nonce : Bytes) (ctr : Word) (bs : List Bytes) (i : Nat) (h : i < bs.length) :
    (ctrOut e nonce ctr bs)[i]'(by simpa using h) = xorKeystream bs[i] (e (nonce ++ toBe32 (ctr + BitVec.ofNat 32 i))) := by
  induction bs generalizing ctr i with
  | nil => simp at h
  | cons b bs ih =>
    cases i with
    | zero => simp [ctrOut]
    | succ i =>
      have := ih (ctr + 1) i (by simpa using h)
      simp only [ctrOut, List.getElem_cons_succ]
      rw [this, BitVec.add_assoc]
      congr 5
      apply BitVec.eq_of_toNat_eq
      simp [BitVec.toNat_add]
      omega

/-! ## Slices of the output -/

/-- Where every output block is as long as the block of the message it comes from, the part of the output in the place of block i
is output block i. -/
theorem slice_output {B : Nat} {m : Bytes} {os : List Bytes} (hlen : os.length = (blocks B m).length)
    (hos : ∀ i (hi : i < os.length), os[i].length = ((blocks B m)[i]'(hlen ▸ hi)).length) (i : Nat) (hi : i < os.length) :
    (os.flatten.drop (B * i)).take (min B (m.length - B * i)) = os[i] := by
  have h := slice_flatten (B := B) (os := os) ?_ i hi
  · rwa [hos i hi, length_getElem_blocks] at h
  · intro j hj
    rw [hos j (by omega), length_getElem_blocks]
    have hj' : j + 1 < blockCount B m.length := by rw [← length_blocks, ← hlen]; exact hj
    unfold blockCount at hj'
    rw [Nat.lt_iff_add_one_le, Nat.le_div_iff_mul_le] at hj'
    · have : (j + 1 + 1) * B = B * j + B + B := by ring
      omega
    · rcases Nat.eq_zero_or_pos B with rfl | h
      · simp at hj'
      · exact h

/-- The output is as long as the message. -/
theorem length_output {B : Nat} (hB : 0 < B) {m : Bytes} {os : List Bytes} (hlen : os.length = (blocks B m).length)
    (hos : ∀ i (hi : i < os.length), os[i].length = ((blocks B m)[i]'(hlen ▸ hi)).length) : os.flatten.length = m.length := by
  conv_rhs => rw [← flatten_blocks hB m]
  rw [List.length_flatten, List.length_flatten]
  congr 1
  apply List.ext_getElem
  · simpa using hlen
  · intro i h1 h2
    simpa using hos i (by simpa using h1)

end Sys2Proof.Machine
end

