-- ==== Sys2Proof/Laws/Lengths.lean ====
section
/-! SUPPORT. How long each output is: of the packings, of the block functions, of the chaining modes and of the padding. -/

namespace Sys2Proof.Machine

open Config (Params)

/-! ## Words and blocks -/

@[simp] theorem length_unpackWord (o : Config.ByteOrder) (w : Word) : (unpackWord o w).length = 4 := by cases o <;> rfl

@[simp] theorem length_toBe32 (w : Word) : (toBe32 w).length = 4 := rfl

@[simp] theorem length_wordsToBytes (o : Config.ByteOrder) (ws : List Word) : (wordsToBytes o ws).length = 4 * ws.length := by
  induction ws with
  | nil => rfl
  | cons w ws ih =>
    simp only [wordsToBytes, List.flatMap_cons, List.length_append, length_unpackWord, List.length_cons] at ih ⊢
    omega

@[simp] theorem length_feiE (P : Params) (sk : Vector Word 8) (b : Bytes) : (feiE P sk b).length = 8 := by simp [feiE, feiJoin]

@[simp] theorem length_feiD (P : Params) (sk : Vector Word 8) (b : Bytes) : (feiD P sk b).length = 8 := by simp [feiD, feiJoin]

@[simp] theorem length_permBits (t : Fin 128 → Fin 128) (b : Bytes) : (permBits t b).length = 16 := by simp [permBits]

@[simp] theorem length_spnE (P : Params) (rk : Vector (Vector Word 4) 33) (b : Bytes) : (spnE P rk b).length = 16 := by
  simp [spnE]

@[simp] theorem length_spnD (P : Params) (rk : Vector (Vector Word 4) 33) (b : Bytes) : (spnD P rk b).length = 16 := by
  simp [spnD]

@[simp] theorem length_teaE (P : Params) (k : Vector Word 4) (b : Bytes) : (teaE P k b).length = 8 := by simp [teaE, arxJoin]

@[simp] theorem length_teaD (P : Params) (k : Vector Word 4) (b : Bytes) : (teaD P k b).length = 8 := by simp [teaD, arxJoin]

@[simp] theorem length_xteaE (P : Params) (k : Vector Word 4) (b : Bytes) : (xteaE P k b).length = 8 := by simp [xteaE, arxJoin]

@[simp] theorem length_xteaD (P : Params) (k : Vector Word 4) (b : Bytes) : (xteaD P k b).length = 8 := by simp [xteaD, arxJoin]

@[simp] theorem length_strKeystream (P : Params) (s : Config.StreamState) : (strKeystream P s).length = 16 := by
  simp [strKeystream]

/-! ## Chaining: whole blocks -/

/-- The output of ECB, for a block function that gives B bytes. -/
theorem length_ecb {B : Nat} {f : Bytes → Bytes} (hf : ∀ b, (f b).length = B) (bs : List Bytes) : (ecb f bs).length = B * bs.length := by
  induction bs with
  | nil => rfl
  | cons b bs ih =>
    simp only [ecb, List.flatMap_cons, List.length_append, List.length_cons] at ih ⊢
    rw [ih, hf, Nat.mul_add]
    omega

theorem length_cbcEnc {B : Nat} {e : Bytes → Bytes} (he : ∀ b, (e b).length = B) (prev : Bytes) (bs : List Bytes) :
    (cbcEnc e prev bs).length = B * bs.length := by
  induction bs generalizing prev with
  | nil => rfl
  | cons b bs ih =>
    simp only [cbcEnc, List.length_append, List.length_cons, ih, he, Nat.mul_add]
    omega

theorem length_cbcDec {B : Nat} {d : Bytes → Bytes} (hd : ∀ b, (d b).length = B) (prev : Bytes) (bs : List Bytes)
    (hp : prev.length = B) (hbs : ∀ b ∈ bs, b.length = B) : (cbcDec d prev bs).length = B * bs.length := by
  induction bs generalizing prev with
  | nil => rfl
  | cons b bs ih =>
    simp only [cbcDec, List.length_append, List.length_cons, length_xorBytes, hd, hp, Nat.mul_add,
      ih b (hbs b List.mem_cons_self) fun c hc => hbs c (List.mem_cons_of_mem _ hc)]
    omega

/-! ## Chaining: keystreams, the last block short -/

/-- No block of a message is longer than B. -/
theorem length_le_of_mem_blocks {B : Nat} {m : Bytes} : ∀ b ∈ blocks B m, b.length ≤ B := by
  intro b hb
  obtain ⟨i, hi, rfl⟩ := List.mem_iff_getElem.1 hb
  rw [length_getElem_blocks]
  omega

theorem length_cfbEnc {B : Nat} {e : Bytes → Bytes} (he : ∀ b, (e b).length = B) (prev : Bytes) (bs : List Bytes)
    (hbs : ∀ b ∈ bs, b.length ≤ B) : (cfbEnc e prev bs).length = bs.flatten.length := by
  induction bs generalizing prev with
  | nil => rfl
  | cons b bs ih =>
    have hb := hbs b List.mem_cons_self
    have ih := fun p => ih p fun c hc => hbs c (List.mem_cons_of_mem _ hc)
    simp only [cfbEnc, List.length_append, List.flatten_cons, ih]
    rw [length_xorKeystream (by rw [he]; exact hb)]

theorem length_cfbDec {B : Nat} {e : Bytes → Bytes} (he : ∀ b, (e b).length = B) (prev : Bytes) (bs : List Bytes)
    (hbs : ∀ b ∈ bs, b.length ≤ B) : (cfbDec e prev bs).length = bs.flatten.length := by
  induction bs generalizing prev with
  | nil => rfl
  | cons b bs ih =>
    have hb := hbs b List.mem_cons_self
    have ih := fun p => ih p fun c hc => hbs c (List.mem_cons_of_mem _ hc)
    simp only [cfbDec, List.length_append, List.flatten_cons, ih]
    rw [length_xorKeystream (by rw [he]; exact hb)]

theorem length_ctrMode {B : Nat} {e : Bytes → Bytes} (he : ∀ b, (e b).length = B) (nonce : Bytes) (ctr : Word) (bs : List Bytes)
    (hbs : ∀ b ∈ bs, b.length ≤ B) : (ctrMode e nonce ctr bs).length = bs.flatten.length := by
  induction bs generalizing ctr with
  | nil => rfl
  | cons b bs ih =>
    have hb := hbs b List.mem_cons_self
    have ih := fun p => ih p fun c hc => hbs c (List.mem_cons_of_mem _ hc)
    simp only [ctrMode, List.length_append, List.flatten_cons, ih]
    rw [length_xorKeystream (by rw [he]; exact hb)]

theorem length_strCrypt (P : Params) (s : Config.StreamState) (bs : List Bytes) (hbs : ∀ b ∈ bs, b.length ≤ 16) :
    (strCrypt P s bs).length = bs.flatten.length := by
  induction bs generalizing s with
  | nil => rfl
  | cons b bs ih =>
    have hb := hbs b List.mem_cons_self
    have ih := fun p => ih p fun c hc => hbs c (List.mem_cons_of_mem _ hc)
    simp only [strCrypt, List.length_append, List.flatten_cons, ih]
    rw [length_xorKeystream (by simpa using hb)]

/-! ## Padding and the variable-word unit -/

/-- 43 R200: the padded length is the next multiple of 16 above. -/
theorem length_pad16 (m : Bytes) : (pad16 m).length = m.length + 16 - m.length % 16 := by
  simp only [pad16, padCount, List.length_append, List.length_replicate]
  omega

theorem length_pad16_mod (m : Bytes) : (pad16 m).length % 16 = 0 := by rw [length_pad16]; omega

/-- An unpadded message is shorter than the padded one. -/
theorem length_unpad16_le {m p : Bytes} (h : unpad16 m = some p) : p.length ≤ m.length := by
  simp only [unpad16] at h
  split at h
  · cases h
  · cases h; simp

theorem length_xxtPad (m : Bytes) : (xxtPad m).length = m.length + (4 - m.length % 4) % 4 := by simp [xxtPad]

@[simp] theorem length_xxtWords (P : Params) (m : Bytes) : (xxtWords P m).length = m.length / 4 := by simp [xxtWords]

@[simp] theorem length_xxtEncPass (P : Params) (k : Vector Word 4) (sum : Word) (v : List Word) :
    (xxtEncPass P k sum v).length = v.length := by
  unfold xxtEncPass
  suffices h : ∀ (l : List Nat) (u : List Word),
      (l.foldl (fun v p => v.set p (v.getD p 0 + xxtMixAt P k sum v p)) u).length = u.length from h _ v
  intro l
  induction l with
  | nil => intro u; rfl
  | cons p l ih => intro u; rw [List.foldl_cons, ih, List.length_set]

@[simp] theorem length_xxtDecPass (P : Params) (k : Vector Word 4) (sum : Word) (v : List Word) :
    (xxtDecPass P k sum v).length = v.length := by
  unfold xxtDecPass
  suffices h : ∀ (l : List Nat) (u : List Word),
      (l.foldl (fun v p => v.set p (v.getD p 0 - xxtMixAt P k sum v p)) u).length = u.length from h _ v
  intro l
  induction l with
  | nil => intro u; rfl
  | cons p l ih => intro u; rw [List.foldl_cons, ih, List.length_set]

@[simp] theorem length_xxtEncWords (P : Params) (k : Vector Word 4) (v : List Word) : (xxtEncWords P k v).length = v.length := by
  unfold xxtEncWords
  suffices h : ∀ (l : List Nat) (st : Word × List Word), (l.foldl (fun st _ => (st.1 + Config.xxtDelta,
      xxtEncPass P k (st.1 + Config.xxtDelta) st.2)) st).2.length = st.2.length from h _ _
  intro l
  induction l with
  | nil => intro st; rfl
  | cons p l ih => intro st; rw [List.foldl_cons, ih, length_xxtEncPass]

@[simp] theorem length_xxtDecWords (P : Params) (k : Vector Word 4) (v : List Word) : (xxtDecWords P k v).length = v.length := by
  unfold xxtDecWords
  suffices h : ∀ (l : List Nat) (st : Word × List Word), (l.foldl (fun st _ => (st.1 - Config.xxtDelta,
      xxtDecPass P k st.1 st.2)) st).2.length = st.2.length from h _ _
  intro l
  induction l with
  | nil => intro st; rfl
  | cons p l ih => intro st; rw [List.foldl_cons, ih, length_xxtDecPass]

theorem length_xxtE (P : Params) (k : Vector Word 4) (m : Bytes) : (xxtE P k m).length = 4 * (m.length / 4) := by
  unfold xxtE
  simp only [length_wordsToBytes]
  split <;> simp

theorem length_xxtD (P : Params) (k : Vector Word 4) (m : Bytes) : (xxtD P k m).length = 4 * (m.length / 4) := by
  unfold xxtD
  simp only [length_wordsToBytes]
  split <;> simp

end Sys2Proof.Machine
end

