-- ==== Sys2Proof/Laws/Memory.lean ====
section
/-! SUPPORT. What the memory operations do, once: reading after writing, and the canonical form kept. -/

namespace Sys2Proof.Machine

/-! ## The canonical form -/

/-- The tail of a canonical memory is canonical. -/
theorem Memory.wf_tail {c : Host.Cell} {m : Memory} (h : Memory.wf (c :: m)) : Memory.wf m :=
  ⟨(List.pairwise_cons.1 h.1).2, fun d hd => h.2 d (List.mem_cons_of_mem _ hd)⟩

/-- In a canonical memory every later cell lies above the first. -/
theorem Memory.wf_head_lt {c : Host.Cell} {m : Memory} (h : Memory.wf (c :: m)) : ∀ d ∈ m, c.1 < d.1 :=
  (List.pairwise_cons.1 h.1).1

/-- A cell after a write is the one written or one that was there. -/
theorem Memory.mem_write {c : Host.Cell} {m : Memory} {a : Nat} {b : Byte} (h : c ∈ m.write a b) :
    (c = (a, b) ∧ b ≠ unlistedByte) ∨ c ∈ m := by
  induction m with
  | nil =>
    simp only [Memory.write] at h
    split at h <;> simp_all
  | cons d m ih =>
    obtain ⟨k, e⟩ := d
    simp only [Memory.write] at h
    split at h
    · split at h
      · exact .inr h
      · rcases List.mem_cons.1 h with h | h
        · exact .inl ⟨h, by assumption⟩
        · exact .inr h
    · split at h
      · split at h
        · exact .inr (List.mem_cons_of_mem _ h)
        · rcases List.mem_cons.1 h with h | h
          · exact .inl ⟨h, by assumption⟩
          · exact .inr (List.mem_cons_of_mem _ h)
      · rcases List.mem_cons.1 h with h | h
        · exact .inr (h ▸ List.mem_cons_self)
        · rcases ih h with h | h
          · exact .inl h
          · exact .inr (List.mem_cons_of_mem _ h)

/-- A write keeps the canonical form. -/
theorem Memory.wf_write {m : Memory} (h : m.wf) (a : Nat) (b : Byte) : (m.write a b).wf := by
  induction m with
  | nil =>
    simp only [Memory.write]
    split <;> simp_all [Memory.wf]
  | cons c m ih =>
    obtain ⟨k, e⟩ := c
    have hm := Memory.wf_tail h
    have hk := Memory.wf_head_lt h
    simp only [Memory.write]
    split
    · rename_i hlt
      split
      · exact h
      · rename_i hb
        refine ⟨List.pairwise_cons.2 ⟨?_, h.1⟩, ?_⟩
        · intro d hd
          rcases List.mem_cons.1 hd with rfl | hd
          · exact hlt
          · exact Nat.lt_trans hlt (hk d hd)
        · intro d hd
          rcases List.mem_cons.1 hd with rfl | hd
          · exact hb
          · exact h.2 d hd
    · split
      · rename_i _ heq
        split
        · exact hm
        · rename_i hb
          refine ⟨List.pairwise_cons.2 ⟨fun d hd => heq ▸ hk d hd, hm.1⟩, ?_⟩
          intro d hd
          rcases List.mem_cons.1 hd with rfl | hd
          · exact hb
          · exact hm.2 d hd
      · rename_i hlt hne
        have ih := ih hm
        refine ⟨List.pairwise_cons.2 ⟨?_, ih.1⟩, ?_⟩
        · intro d hd
          rcases Memory.mem_write hd with ⟨rfl, _⟩ | hd
          · simp only; omega
          · exact hk d hd
        · intro d hd
          rcases List.mem_cons.1 hd with rfl | hd
          · exact h.2 _ List.mem_cons_self
          · exact ih.2 d hd

/-- Storing a byte string keeps the canonical form. -/
theorem Memory.wf_writeBytes {m : Memory} (h : m.wf) (o : Nat) (v : Bytes) : (m.writeBytes o v).wf := by
  induction v generalizing m o with
  | nil => exact h
  | cons b v ih => exact ih (Memory.wf_write h o b) (o + 1)

/-- A write below the capacity lists nothing beyond it. -/
theorem Memory.within_write {m : Memory} {cap a : Nat} (h : m.within cap) (ha : a < cap) (b : Byte) :
    (m.write a b).within cap := by
  intro c hc
  rcases Memory.mem_write hc with ⟨rfl, _⟩ | hc
  · exact ha
  · exact h c hc

/-- Storing a byte string that ends within the capacity lists nothing beyond it. -/
theorem Memory.within_writeBytes {m : Memory} {cap o : Nat} {v : Bytes} (h : m.within cap) (hv : o + v.length ≤ cap) :
    (m.writeBytes o v).within cap := by
  induction v generalizing m o with
  | nil => exact h
  | cons b v ih =>
    simp only [List.length_cons] at hv
    exact ih (Memory.within_write h (by omega) b) (by omega)

/-! ## Reading after writing -/

/-- An offset below every listed one reads as unlisted. -/
theorem Memory.read_below {m : Memory} {a : Nat} (h : ∀ c ∈ m, a < c.1) : m.read a = unlistedByte := by
  induction m with
  | nil => rfl
  | cons c m ih =>
    obtain ⟨k, e⟩ := c
    have hk : a < k := h _ List.mem_cons_self
    simp only [Memory.read]
    rw [if_neg (by omega)]
    exact ih fun d hd => h d (List.mem_cons_of_mem _ hd)

/-- Reading after a write: the byte written at its offset, what was there everywhere else. -/
theorem Memory.read_write {m : Memory} (h : m.wf) (a a' : Nat) (b : Byte) :
    (m.write a b).read a' = if a' = a then b else m.read a' := by
  induction m with
  | nil =>
    simp only [Memory.write]
    by_cases hb : b = unlistedByte
    · simp only [hb, if_true, Memory.read]
      split <;> rfl
    · simp only [hb, if_false, Memory.read]
      by_cases h' : a' = a
      · simp [h']
      · simp [h', Ne.symm h']
  | cons c m ih =>
    obtain ⟨k, e⟩ := c
    have hk := Memory.wf_head_lt h
    simp only [Memory.write]
    by_cases hlt : a < k
    · rw [if_pos hlt]
      have hbelow : Memory.read ((k, e) :: m) a = unlistedByte := by
        apply Memory.read_below
        intro d hd
        rcases List.mem_cons.1 hd with rfl | hd
        · exact hlt
        · exact Nat.lt_trans hlt (hk d hd)
      by_cases hb : b = unlistedByte
      · rw [if_pos hb]
        by_cases h' : a' = a
        · rw [if_pos h', h', hbelow, hb]
        · rw [if_neg h']
      · rw [if_neg hb]
        by_cases h' : a' = a
        · simp [Memory.read, h']
        · rw [if_neg h']
          simp [Memory.read, Ne.symm h']
    · rw [if_neg hlt]
      by_cases heq : a = k
      · rw [if_pos heq]
        by_cases hb : b = unlistedByte
        · rw [if_pos hb]
          by_cases h' : a' = a
          · rw [if_pos h', hb]
            exact Memory.read_below fun d hd => by rw [h', heq]; exact hk d hd
          · rw [if_neg h']
            simp [Memory.read, Ne.symm (heq ▸ h' : ¬ a' = k)]
        · rw [if_neg hb]
          by_cases h' : a' = a
          · simp [Memory.read, h']
          · rw [if_neg h']
            simp [Memory.read, Ne.symm h', Ne.symm (heq ▸ h' : ¬ a' = k)]
      · rw [if_neg heq]
        simp only [Memory.read]
        by_cases hk' : k = a'
        · rw [if_pos hk', if_pos hk', if_neg (by omega)]
        · rw [if_neg hk', if_neg hk']
          exact ih (Memory.wf_tail h)

/-- Reading after a byte string was stored from offset o: its bytes there, what was there everywhere else. -/
theorem Memory.read_writeBytes {m : Memory} (h : m.wf) (o a : Nat) (v : Bytes) :
    (m.writeBytes o v).read a = if o ≤ a ∧ a < o + v.length then v.getD (a - o) 0 else m.read a := by
  induction v generalizing m o with
  | nil =>
    rw [if_neg (by simp only [List.length_nil]; omega)]
    rfl
  | cons b v ih =>
    simp only [Memory.writeBytes, List.length_cons]
    rw [ih (Memory.wf_write h o b), Memory.read_write h]
    by_cases h1 : a = o
    · subst h1
      rw [if_neg (by omega), if_pos rfl, if_pos (by omega)]
      simp
    · rw [if_neg h1]
      by_cases h2 : o + 1 ≤ a ∧ a < o + 1 + v.length
      · rw [if_pos h2, if_pos (by omega)]
        obtain ⟨d, hd⟩ : ∃ d, a - o = d + 1 := ⟨a - o - 1, by omega⟩
        rw [hd, show a - (o + 1) = d by omega]
        simp
      · rw [if_neg h2, if_neg (by omega)]

/-! ## Byte strings -/

@[simp] theorem Memory.length_readBytes (m : Memory) (o n : Nat) : (m.readBytes o n).length = n := by
  simp [Memory.readBytes]

/-- Byte i of a byte string read from offset o. -/
theorem Memory.getElem_readBytes (m : Memory) (o n i : Nat) (h : i < (m.readBytes o n).length) :
    (m.readBytes o n)[i] = m.read (o + i) := by
  simp [Memory.readBytes]

/-- Two memories that agree on the bytes read give the same byte string. -/
theorem Memory.readBytes_congr {m m' : Memory} {o o' n : Nat} (h : ∀ i < n, m.read (o + i) = m'.read (o' + i)) :
    m.readBytes o n = m'.readBytes o' n := by
  refine List.map_congr_left fun i hi => h i (List.mem_range.1 hi)

/-- A part of a byte string read from a memory is read from there. -/
theorem Memory.take_drop_readBytes (m : Memory) (o n p k : Nat) (h : p + k ≤ n) :
    ((m.readBytes o n).drop p).take k = m.readBytes (o + p) k := by
  apply List.ext_getElem
  · simp; omega
  · intro i h1 h2
    simp [Memory.readBytes, Nat.add_assoc]

/-- Reading back part of a byte string stored. -/
theorem Memory.readBytes_writeBytes {m : Memory} (h : m.wf) (o : Nat) (v : Bytes) (p n : Nat) (hn : p + n ≤ v.length) :
    (m.writeBytes o v).readBytes (o + p) n = (v.drop p).take n := by
  apply List.ext_getElem
  · simp; omega
  · intro i h1 h2
    simp only [Memory.length_readBytes] at h1
    rw [Memory.getElem_readBytes, Memory.read_writeBytes h, if_pos (by omega), List.getElem_take, List.getElem_drop,
      show o + p + i - o = p + i by omega, List.getD_eq_getElem _ _ (by omega)]

/-- Reading back all of a byte string stored. -/
theorem Memory.readBytes_writeBytes_self {m : Memory} (h : m.wf) (o : Nat) (v : Bytes) :
    (m.writeBytes o v).readBytes o v.length = v := by
  simpa using Memory.readBytes_writeBytes h o v 0 v.length (by omega)

end Sys2Proof.Machine
end

