-- ==== Sys2Proof/Laws/State.lean ====
section
/-! SUPPORT. One lemma per field per update of State, so that no later proof unfolds a record update. -/

namespace Sys2Proof.Machine

open Config (Params)

/-! ### `raise`: the code and an empty output -/

@[simp] theorem raise_cmd (e : ErrorKind) (s : State) : (raise e s).cmd = s.cmd := rfl
@[simp] theorem raise_err (e : ErrorKind) (s : State) : (raise e s).err = errorCode e := rfl
@[simp] theorem raise_keyLen (e : ErrorKind) (s : State) : (raise e s).keyLen = s.keyLen := rfl
@[simp] theorem raise_ivLen (e : ErrorKind) (s : State) : (raise e s).ivLen = s.ivLen := rfl
@[simp] theorem raise_dinLen (e : ErrorKind) (s : State) : (raise e s).dinLen = s.dinLen := rfl
@[simp] theorem raise_doutLen (e : ErrorKind) (s : State) : (raise e s).doutLen = 0 := rfl
@[simp] theorem raise_keyBuf (e : ErrorKind) (s : State) : (raise e s).keyBuf = s.keyBuf := rfl
@[simp] theorem raise_ivBuf (e : ErrorKind) (s : State) : (raise e s).ivBuf = s.ivBuf := rfl
@[simp] theorem raise_dinBuf (e : ErrorKind) (s : State) : (raise e s).dinBuf = s.dinBuf := rfl
@[simp] theorem raise_doutBuf (e : ErrorKind) (s : State) : (raise e s).doutBuf = s.doutBuf := rfl
@[simp] theorem raise_fei (e : ErrorKind) (s : State) : (raise e s).fei = s.fei := rfl
@[simp] theorem raise_spn (e : ErrorKind) (s : State) : (raise e s).spn = s.spn := rfl
@[simp] theorem raise_tea (e : ErrorKind) (s : State) : (raise e s).tea = s.tea := rfl
@[simp] theorem raise_xtea (e : ErrorKind) (s : State) : (raise e s).xtea = s.xtea := rfl
@[simp] theorem raise_xxt (e : ErrorKind) (s : State) : (raise e s).xxt = s.xxt := rfl
@[simp] theorem raise_str (e : ErrorKind) (s : State) : (raise e s).str = s.str := rfl
@[simp] theorem raise_pending (e : ErrorKind) (s : State) : (raise e s).pending = s.pending := rfl
@[simp] theorem raise_response (e : ErrorKind) (s : State) : (raise e s).response = s.response := rfl
@[simp] theorem raise_draws (e : ErrorKind) (s : State) : (raise e s).draws = s.draws := rfl
@[simp] theorem raise_staleReads (e : ErrorKind) (s : State) : (raise e s).staleReads = s.staleReads := rfl

/-! ### `complete`: the code 0 -/

@[simp] theorem complete_cmd (s : State) : (complete s).cmd = s.cmd := rfl
@[simp] theorem complete_err (s : State) : (complete s).err = 0 := rfl
@[simp] theorem complete_keyLen (s : State) : (complete s).keyLen = s.keyLen := rfl
@[simp] theorem complete_ivLen (s : State) : (complete s).ivLen = s.ivLen := rfl
@[simp] theorem complete_dinLen (s : State) : (complete s).dinLen = s.dinLen := rfl
@[simp] theorem complete_doutLen (s : State) : (complete s).doutLen = s.doutLen := rfl
@[simp] theorem complete_keyBuf (s : State) : (complete s).keyBuf = s.keyBuf := rfl
@[simp] theorem complete_ivBuf (s : State) : (complete s).ivBuf = s.ivBuf := rfl
@[simp] theorem complete_dinBuf (s : State) : (complete s).dinBuf = s.dinBuf := rfl
@[simp] theorem complete_doutBuf (s : State) : (complete s).doutBuf = s.doutBuf := rfl
@[simp] theorem complete_fei (s : State) : (complete s).fei = s.fei := rfl
@[simp] theorem complete_spn (s : State) : (complete s).spn = s.spn := rfl
@[simp] theorem complete_tea (s : State) : (complete s).tea = s.tea := rfl
@[simp] theorem complete_xtea (s : State) : (complete s).xtea = s.xtea := rfl
@[simp] theorem complete_xxt (s : State) : (complete s).xxt = s.xxt := rfl
@[simp] theorem complete_str (s : State) : (complete s).str = s.str := rfl
@[simp] theorem complete_pending (s : State) : (complete s).pending = s.pending := rfl
@[simp] theorem complete_response (s : State) : (complete s).response = s.response := rfl
@[simp] theorem complete_draws (s : State) : (complete s).draws = s.draws := rfl
@[simp] theorem complete_staleReads (s : State) : (complete s).staleReads = s.staleReads := rfl

/-! ### `respond`: the response -/

@[simp] theorem respond_cmd (v : Word) (s : State) : (respond v s).cmd = s.cmd := rfl
@[simp] theorem respond_err (v : Word) (s : State) : (respond v s).err = s.err := rfl
@[simp] theorem respond_keyLen (v : Word) (s : State) : (respond v s).keyLen = s.keyLen := rfl
@[simp] theorem respond_ivLen (v : Word) (s : State) : (respond v s).ivLen = s.ivLen := rfl
@[simp] theorem respond_dinLen (v : Word) (s : State) : (respond v s).dinLen = s.dinLen := rfl
@[simp] theorem respond_doutLen (v : Word) (s : State) : (respond v s).doutLen = s.doutLen := rfl
@[simp] theorem respond_keyBuf (v : Word) (s : State) : (respond v s).keyBuf = s.keyBuf := rfl
@[simp] theorem respond_ivBuf (v : Word) (s : State) : (respond v s).ivBuf = s.ivBuf := rfl
@[simp] theorem respond_dinBuf (v : Word) (s : State) : (respond v s).dinBuf = s.dinBuf := rfl
@[simp] theorem respond_doutBuf (v : Word) (s : State) : (respond v s).doutBuf = s.doutBuf := rfl
@[simp] theorem respond_fei (v : Word) (s : State) : (respond v s).fei = s.fei := rfl
@[simp] theorem respond_spn (v : Word) (s : State) : (respond v s).spn = s.spn := rfl
@[simp] theorem respond_tea (v : Word) (s : State) : (respond v s).tea = s.tea := rfl
@[simp] theorem respond_xtea (v : Word) (s : State) : (respond v s).xtea = s.xtea := rfl
@[simp] theorem respond_xxt (v : Word) (s : State) : (respond v s).xxt = s.xxt := rfl
@[simp] theorem respond_str (v : Word) (s : State) : (respond v s).str = s.str := rfl
@[simp] theorem respond_pending (v : Word) (s : State) : (respond v s).pending = s.pending := rfl
@[simp] theorem respond_response (v : Word) (s : State) : (respond v s).response = some v := rfl
@[simp] theorem respond_draws (v : Word) (s : State) : (respond v s).draws = s.draws := rfl
@[simp] theorem respond_staleReads (v : Word) (s : State) : (respond v s).staleReads = s.staleReads := rfl

/-! ### `noResponse`: the response -/

@[simp] theorem noResponse_cmd (s : State) : (noResponse s).cmd = s.cmd := rfl
@[simp] theorem noResponse_err (s : State) : (noResponse s).err = s.err := rfl
@[simp] theorem noResponse_keyLen (s : State) : (noResponse s).keyLen = s.keyLen := rfl
@[simp] theorem noResponse_ivLen (s : State) : (noResponse s).ivLen = s.ivLen := rfl
@[simp] theorem noResponse_dinLen (s : State) : (noResponse s).dinLen = s.dinLen := rfl
@[simp] theorem noResponse_doutLen (s : State) : (noResponse s).doutLen = s.doutLen := rfl
@[simp] theorem noResponse_keyBuf (s : State) : (noResponse s).keyBuf = s.keyBuf := rfl
@[simp] theorem noResponse_ivBuf (s : State) : (noResponse s).ivBuf = s.ivBuf := rfl
@[simp] theorem noResponse_dinBuf (s : State) : (noResponse s).dinBuf = s.dinBuf := rfl
@[simp] theorem noResponse_doutBuf (s : State) : (noResponse s).doutBuf = s.doutBuf := rfl
@[simp] theorem noResponse_fei (s : State) : (noResponse s).fei = s.fei := rfl
@[simp] theorem noResponse_spn (s : State) : (noResponse s).spn = s.spn := rfl
@[simp] theorem noResponse_tea (s : State) : (noResponse s).tea = s.tea := rfl
@[simp] theorem noResponse_xtea (s : State) : (noResponse s).xtea = s.xtea := rfl
@[simp] theorem noResponse_xxt (s : State) : (noResponse s).xxt = s.xxt := rfl
@[simp] theorem noResponse_str (s : State) : (noResponse s).str = s.str := rfl
@[simp] theorem noResponse_pending (s : State) : (noResponse s).pending = s.pending := rfl
@[simp] theorem noResponse_response (s : State) : (noResponse s).response = none := rfl
@[simp] theorem noResponse_draws (s : State) : (noResponse s).draws = s.draws := rfl
@[simp] theorem noResponse_staleReads (s : State) : (noResponse s).staleReads = s.staleReads := rfl

/-! ### `loadFei`: the context of `FEI` -/

@[simp] theorem loadFei_cmd (key : Bytes) (s : State) : (loadFei key s).cmd = s.cmd := rfl
@[simp] theorem loadFei_err (key : Bytes) (s : State) : (loadFei key s).err = s.err := rfl
@[simp] theorem loadFei_keyLen (key : Bytes) (s : State) : (loadFei key s).keyLen = s.keyLen := rfl
@[simp] theorem loadFei_ivLen (key : Bytes) (s : State) : (loadFei key s).ivLen = s.ivLen := rfl
@[simp] theorem loadFei_dinLen (key : Bytes) (s : State) : (loadFei key s).dinLen = s.dinLen := rfl
@[simp] theorem loadFei_doutLen (key : Bytes) (s : State) : (loadFei key s).doutLen = s.doutLen := rfl
@[simp] theorem loadFei_keyBuf (key : Bytes) (s : State) : (loadFei key s).keyBuf = s.keyBuf := rfl
@[simp] theorem loadFei_ivBuf (key : Bytes) (s : State) : (loadFei key s).ivBuf = s.ivBuf := rfl
@[simp] theorem loadFei_dinBuf (key : Bytes) (s : State) : (loadFei key s).dinBuf = s.dinBuf := rfl
@[simp] theorem loadFei_doutBuf (key : Bytes) (s : State) : (loadFei key s).doutBuf = s.doutBuf := rfl
@[simp] theorem loadFei_fei (key : Bytes) (s : State) : (loadFei key s).fei = { keyed := true, sk := feiSchedule key } := rfl
@[simp] theorem loadFei_spn (key : Bytes) (s : State) : (loadFei key s).spn = s.spn := rfl
@[simp] theorem loadFei_tea (key : Bytes) (s : State) : (loadFei key s).tea = s.tea := rfl
@[simp] theorem loadFei_xtea (key : Bytes) (s : State) : (loadFei key s).xtea = s.xtea := rfl
@[simp] theorem loadFei_xxt (key : Bytes) (s : State) : (loadFei key s).xxt = s.xxt := rfl
@[simp] theorem loadFei_str (key : Bytes) (s : State) : (loadFei key s).str = s.str := rfl
@[simp] theorem loadFei_pending (key : Bytes) (s : State) : (loadFei key s).pending = s.pending := rfl
@[simp] theorem loadFei_response (key : Bytes) (s : State) : (loadFei key s).response = s.response := rfl
@[simp] theorem loadFei_draws (key : Bytes) (s : State) : (loadFei key s).draws = s.draws := rfl
@[simp] theorem loadFei_staleReads (key : Bytes) (s : State) : (loadFei key s).staleReads = s.staleReads := rfl

/-! ### `loadSpn`: the context of `SPN` -/

@[simp] theorem loadSpn_cmd (P : Params) (key : Bytes) (s : State) : (loadSpn P key s).cmd = s.cmd := rfl
@[simp] theorem loadSpn_err (P : Params) (key : Bytes) (s : State) : (loadSpn P key s).err = s.err := rfl
@[simp] theorem loadSpn_keyLen (P : Params) (key : Bytes) (s : State) : (loadSpn P key s).keyLen = s.keyLen := rfl
@[simp] theorem loadSpn_ivLen (P : Params) (key : Bytes) (s : State) : (loadSpn P key s).ivLen = s.ivLen := rfl
@[simp] theorem loadSpn_dinLen (P : Params) (key : Bytes) (s : State) : (loadSpn P key s).dinLen = s.dinLen := rfl
@[simp] theorem loadSpn_doutLen (P : Params) (key : Bytes) (s : State) : (loadSpn P key s).doutLen = s.doutLen := rfl
@[simp] theorem loadSpn_keyBuf (P : Params) (key : Bytes) (s : State) : (loadSpn P key s).keyBuf = s.keyBuf := rfl
@[simp] theorem loadSpn_ivBuf (P : Params) (key : Bytes) (s : State) : (loadSpn P key s).ivBuf = s.ivBuf := rfl
@[simp] theorem loadSpn_dinBuf (P : Params) (key : Bytes) (s : State) : (loadSpn P key s).dinBuf = s.dinBuf := rfl
@[simp] theorem loadSpn_doutBuf (P : Params) (key : Bytes) (s : State) : (loadSpn P key s).doutBuf = s.doutBuf := rfl
@[simp] theorem loadSpn_fei (P : Params) (key : Bytes) (s : State) : (loadSpn P key s).fei = s.fei := rfl
@[simp] theorem loadSpn_spn (P : Params) (key : Bytes) (s : State) : (loadSpn P key s).spn = { keyed := true, rk := spnSchedule P key } := rfl
@[simp] theorem loadSpn_tea (P : Params) (key : Bytes) (s : State) : (loadSpn P key s).tea = s.tea := rfl
@[simp] theorem loadSpn_xtea (P : Params) (key : Bytes) (s : State) : (loadSpn P key s).xtea = s.xtea := rfl
@[simp] theorem loadSpn_xxt (P : Params) (key : Bytes) (s : State) : (loadSpn P key s).xxt = s.xxt := rfl
@[simp] theorem loadSpn_str (P : Params) (key : Bytes) (s : State) : (loadSpn P key s).str = s.str := rfl
@[simp] theorem loadSpn_pending (P : Params) (key : Bytes) (s : State) : (loadSpn P key s).pending = s.pending := rfl
@[simp] theorem loadSpn_response (P : Params) (key : Bytes) (s : State) : (loadSpn P key s).response = s.response := rfl
@[simp] theorem loadSpn_draws (P : Params) (key : Bytes) (s : State) : (loadSpn P key s).draws = s.draws := rfl
@[simp] theorem loadSpn_staleReads (P : Params) (key : Bytes) (s : State) : (loadSpn P key s).staleReads = s.staleReads := rfl

/-! ### `loadTea`: the context of `TEA` -/

@[simp] theorem loadTea_cmd (key : Bytes) (s : State) : (loadTea key s).cmd = s.cmd := rfl
@[simp] theorem loadTea_err (key : Bytes) (s : State) : (loadTea key s).err = s.err := rfl
@[simp] theorem loadTea_keyLen (key : Bytes) (s : State) : (loadTea key s).keyLen = s.keyLen := rfl
@[simp] theorem loadTea_ivLen (key : Bytes) (s : State) : (loadTea key s).ivLen = s.ivLen := rfl
@[simp] theorem loadTea_dinLen (key : Bytes) (s : State) : (loadTea key s).dinLen = s.dinLen := rfl
@[simp] theorem loadTea_doutLen (key : Bytes) (s : State) : (loadTea key s).doutLen = s.doutLen := rfl
@[simp] theorem loadTea_keyBuf (key : Bytes) (s : State) : (loadTea key s).keyBuf = s.keyBuf := rfl
@[simp] theorem loadTea_ivBuf (key : Bytes) (s : State) : (loadTea key s).ivBuf = s.ivBuf := rfl
@[simp] theorem loadTea_dinBuf (key : Bytes) (s : State) : (loadTea key s).dinBuf = s.dinBuf := rfl
@[simp] theorem loadTea_doutBuf (key : Bytes) (s : State) : (loadTea key s).doutBuf = s.doutBuf := rfl
@[simp] theorem loadTea_fei (key : Bytes) (s : State) : (loadTea key s).fei = s.fei := rfl
@[simp] theorem loadTea_spn (key : Bytes) (s : State) : (loadTea key s).spn = s.spn := rfl
@[simp] theorem loadTea_tea (key : Bytes) (s : State) : (loadTea key s).tea = { keyed := true, k := arxSchedule key } := rfl
@[simp] theorem loadTea_xtea (key : Bytes) (s : State) : (loadTea key s).xtea = s.xtea := rfl
@[simp] theorem loadTea_xxt (key : Bytes) (s : State) : (loadTea key s).xxt = s.xxt := rfl
@[simp] theorem loadTea_str (key : Bytes) (s : State) : (loadTea key s).str = s.str := rfl
@[simp] theorem loadTea_pending (key : Bytes) (s : State) : (loadTea key s).pending = s.pending := rfl
@[simp] theorem loadTea_response (key : Bytes) (s : State) : (loadTea key s).response = s.response := rfl
@[simp] theorem loadTea_draws (key : Bytes) (s : State) : (loadTea key s).draws = s.draws := rfl
@[simp] theorem loadTea_staleReads (key : Bytes) (s : State) : (loadTea key s).staleReads = s.staleReads := rfl

/-! ### `loadXtea`: the context of `XTEA` -/

@[simp] theorem loadXtea_cmd (key : Bytes) (s : State) : (loadXtea key s).cmd = s.cmd := rfl
@[simp] theorem loadXtea_err (key : Bytes) (s : State) : (loadXtea key s).err = s.err := rfl
@[simp] theorem loadXtea_keyLen (key : Bytes) (s : State) : (loadXtea key s).keyLen = s.keyLen := rfl
@[simp] theorem loadXtea_ivLen (key : Bytes) (s : State) : (loadXtea key s).ivLen = s.ivLen := rfl
@[simp] theorem loadXtea_dinLen (key : Bytes) (s : State) : (loadXtea key s).dinLen = s.dinLen := rfl
@[simp] theorem loadXtea_doutLen (key : Bytes) (s : State) : (loadXtea key s).doutLen = s.doutLen := rfl
@[simp] theorem loadXtea_keyBuf (key : Bytes) (s : State) : (loadXtea key s).keyBuf = s.keyBuf := rfl
@[simp] theorem loadXtea_ivBuf (key : Bytes) (s : State) : (loadXtea key s).ivBuf = s.ivBuf := rfl
@[simp] theorem loadXtea_dinBuf (key : Bytes) (s : State) : (loadXtea key s).dinBuf = s.dinBuf := rfl
@[simp] theorem loadXtea_doutBuf (key : Bytes) (s : State) : (loadXtea key s).doutBuf = s.doutBuf := rfl
@[simp] theorem loadXtea_fei (key : Bytes) (s : State) : (loadXtea key s).fei = s.fei := rfl
@[simp] theorem loadXtea_spn (key : Bytes) (s : State) : (loadXtea key s).spn = s.spn := rfl
@[simp] theorem loadXtea_tea (key : Bytes) (s : State) : (loadXtea key s).tea = s.tea := rfl
@[simp] theorem loadXtea_xtea (key : Bytes) (s : State) : (loadXtea key s).xtea = { keyed := true, k := arxSchedule key } := rfl
@[simp] theorem loadXtea_xxt (key : Bytes) (s : State) : (loadXtea key s).xxt = s.xxt := rfl
@[simp] theorem loadXtea_str (key : Bytes) (s : State) : (loadXtea key s).str = s.str := rfl
@[simp] theorem loadXtea_pending (key : Bytes) (s : State) : (loadXtea key s).pending = s.pending := rfl
@[simp] theorem loadXtea_response (key : Bytes) (s : State) : (loadXtea key s).response = s.response := rfl
@[simp] theorem loadXtea_draws (key : Bytes) (s : State) : (loadXtea key s).draws = s.draws := rfl
@[simp] theorem loadXtea_staleReads (key : Bytes) (s : State) : (loadXtea key s).staleReads = s.staleReads := rfl

/-! ### `loadXxt`: the context of `XXT` -/

@[simp] theorem loadXxt_cmd (P : Params) (key : Bytes) (s : State) : (loadXxt P key s).cmd = s.cmd := rfl
@[simp] theorem loadXxt_err (P : Params) (key : Bytes) (s : State) : (loadXxt P key s).err = s.err := rfl
@[simp] theorem loadXxt_keyLen (P : Params) (key : Bytes) (s : State) : (loadXxt P key s).keyLen = s.keyLen := rfl
@[simp] theorem loadXxt_ivLen (P : Params) (key : Bytes) (s : State) : (loadXxt P key s).ivLen = s.ivLen := rfl
@[simp] theorem loadXxt_dinLen (P : Params) (key : Bytes) (s : State) : (loadXxt P key s).dinLen = s.dinLen := rfl
@[simp] theorem loadXxt_doutLen (P : Params) (key : Bytes) (s : State) : (loadXxt P key s).doutLen = s.doutLen := rfl
@[simp] theorem loadXxt_keyBuf (P : Params) (key : Bytes) (s : State) : (loadXxt P key s).keyBuf = s.keyBuf := rfl
@[simp] theorem loadXxt_ivBuf (P : Params) (key : Bytes) (s : State) : (loadXxt P key s).ivBuf = s.ivBuf := rfl
@[simp] theorem loadXxt_dinBuf (P : Params) (key : Bytes) (s : State) : (loadXxt P key s).dinBuf = s.dinBuf := rfl
@[simp] theorem loadXxt_doutBuf (P : Params) (key : Bytes) (s : State) : (loadXxt P key s).doutBuf = s.doutBuf := rfl
@[simp] theorem loadXxt_fei (P : Params) (key : Bytes) (s : State) : (loadXxt P key s).fei = s.fei := rfl
@[simp] theorem loadXxt_spn (P : Params) (key : Bytes) (s : State) : (loadXxt P key s).spn = s.spn := rfl
@[simp] theorem loadXxt_tea (P : Params) (key : Bytes) (s : State) : (loadXxt P key s).tea = s.tea := rfl
@[simp] theorem loadXxt_xtea (P : Params) (key : Bytes) (s : State) : (loadXxt P key s).xtea = s.xtea := rfl
@[simp] theorem loadXxt_xxt (P : Params) (key : Bytes) (s : State) : (loadXxt P key s).xxt = { keyed := true, k := xxtSchedule P key } := rfl
@[simp] theorem loadXxt_str (P : Params) (key : Bytes) (s : State) : (loadXxt P key s).str = s.str := rfl
@[simp] theorem loadXxt_pending (P : Params) (key : Bytes) (s : State) : (loadXxt P key s).pending = s.pending := rfl
@[simp] theorem loadXxt_response (P : Params) (key : Bytes) (s : State) : (loadXxt P key s).response = s.response := rfl
@[simp] theorem loadXxt_draws (P : Params) (key : Bytes) (s : State) : (loadXxt P key s).draws = s.draws := rfl
@[simp] theorem loadXxt_staleReads (P : Params) (key : Bytes) (s : State) : (loadXxt P key s).staleReads = s.staleReads := rfl

/-! ### `loadStr`: the context of `STR` -/

@[simp] theorem loadStr_cmd (P : Params) (key : Bytes) (s : State) : (loadStr P key s).cmd = s.cmd := rfl
@[simp] theorem loadStr_err (P : Params) (key : Bytes) (s : State) : (loadStr P key s).err = s.err := rfl
@[simp] theorem loadStr_keyLen (P : Params) (key : Bytes) (s : State) : (loadStr P key s).keyLen = s.keyLen := rfl
@[simp] theorem loadStr_ivLen (P : Params) (key : Bytes) (s : State) : (loadStr P key s).ivLen = s.ivLen := rfl
@[simp] theorem loadStr_dinLen (P : Params) (key : Bytes) (s : State) : (loadStr P key s).dinLen = s.dinLen := rfl
@[simp] theorem loadStr_doutLen (P : Params) (key : Bytes) (s : State) : (loadStr P key s).doutLen = s.doutLen := rfl
@[simp] theorem loadStr_keyBuf (P : Params) (key : Bytes) (s : State) : (loadStr P key s).keyBuf = s.keyBuf := rfl
@[simp] theorem loadStr_ivBuf (P : Params) (key : Bytes) (s : State) : (loadStr P key s).ivBuf = s.ivBuf := rfl
@[simp] theorem loadStr_dinBuf (P : Params) (key : Bytes) (s : State) : (loadStr P key s).dinBuf = s.dinBuf := rfl
@[simp] theorem loadStr_doutBuf (P : Params) (key : Bytes) (s : State) : (loadStr P key s).doutBuf = s.doutBuf := rfl
@[simp] theorem loadStr_fei (P : Params) (key : Bytes) (s : State) : (loadStr P key s).fei = s.fei := rfl
@[simp] theorem loadStr_spn (P : Params) (key : Bytes) (s : State) : (loadStr P key s).spn = s.spn := rfl
@[simp] theorem loadStr_tea (P : Params) (key : Bytes) (s : State) : (loadStr P key s).tea = s.tea := rfl
@[simp] theorem loadStr_xtea (P : Params) (key : Bytes) (s : State) : (loadStr P key s).xtea = s.xtea := rfl
@[simp] theorem loadStr_xxt (P : Params) (key : Bytes) (s : State) : (loadStr P key s).xxt = s.xxt := rfl
@[simp] theorem loadStr_str (P : Params) (key : Bytes) (s : State) : (loadStr P key s).str = { keyed := true, st := strSchedule P key } := rfl
@[simp] theorem loadStr_pending (P : Params) (key : Bytes) (s : State) : (loadStr P key s).pending = s.pending := rfl
@[simp] theorem loadStr_response (P : Params) (key : Bytes) (s : State) : (loadStr P key s).response = s.response := rfl
@[simp] theorem loadStr_draws (P : Params) (key : Bytes) (s : State) : (loadStr P key s).draws = s.draws := rfl
@[simp] theorem loadStr_staleReads (P : Params) (key : Bytes) (s : State) : (loadStr P key s).staleReads = s.staleReads := rfl

/-! ### `advanceStr`: the stream state -/

@[simp] theorem advanceStr_cmd (P : Params) (n : Nat) (s : State) : (advanceStr P n s).cmd = s.cmd := rfl
@[simp] theorem advanceStr_err (P : Params) (n : Nat) (s : State) : (advanceStr P n s).err = s.err := rfl
@[simp] theorem advanceStr_keyLen (P : Params) (n : Nat) (s : State) : (advanceStr P n s).keyLen = s.keyLen := rfl
@[simp] theorem advanceStr_ivLen (P : Params) (n : Nat) (s : State) : (advanceStr P n s).ivLen = s.ivLen := rfl
@[simp] theorem advanceStr_dinLen (P : Params) (n : Nat) (s : State) : (advanceStr P n s).dinLen = s.dinLen := rfl
@[simp] theorem advanceStr_doutLen (P : Params) (n : Nat) (s : State) : (advanceStr P n s).doutLen = s.doutLen := rfl
@[simp] theorem advanceStr_keyBuf (P : Params) (n : Nat) (s : State) : (advanceStr P n s).keyBuf = s.keyBuf := rfl
@[simp] theorem advanceStr_ivBuf (P : Params) (n : Nat) (s : State) : (advanceStr P n s).ivBuf = s.ivBuf := rfl
@[simp] theorem advanceStr_dinBuf (P : Params) (n : Nat) (s : State) : (advanceStr P n s).dinBuf = s.dinBuf := rfl
@[simp] theorem advanceStr_doutBuf (P : Params) (n : Nat) (s : State) : (advanceStr P n s).doutBuf = s.doutBuf := rfl
@[simp] theorem advanceStr_fei (P : Params) (n : Nat) (s : State) : (advanceStr P n s).fei = s.fei := rfl
@[simp] theorem advanceStr_spn (P : Params) (n : Nat) (s : State) : (advanceStr P n s).spn = s.spn := rfl
@[simp] theorem advanceStr_tea (P : Params) (n : Nat) (s : State) : (advanceStr P n s).tea = s.tea := rfl
@[simp] theorem advanceStr_xtea (P : Params) (n : Nat) (s : State) : (advanceStr P n s).xtea = s.xtea := rfl
@[simp] theorem advanceStr_xxt (P : Params) (n : Nat) (s : State) : (advanceStr P n s).xxt = s.xxt := rfl
@[simp] theorem advanceStr_str (P : Params) (n : Nat) (s : State) : (advanceStr P n s).str = { s.str with st := strCycles P n s.str.st } := rfl
@[simp] theorem advanceStr_pending (P : Params) (n : Nat) (s : State) : (advanceStr P n s).pending = s.pending := rfl
@[simp] theorem advanceStr_response (P : Params) (n : Nat) (s : State) : (advanceStr P n s).response = s.response := rfl
@[simp] theorem advanceStr_draws (P : Params) (n : Nat) (s : State) : (advanceStr P n s).draws = s.draws := rfl
@[simp] theorem advanceStr_staleReads (P : Params) (n : Nat) (s : State) : (advanceStr P n s).staleReads = s.staleReads := rfl

/-! ### `deliver`: the output and the code 0 -/

@[simp] theorem deliver_cmd (out : Bytes) (s : State) : (deliver out s).cmd = s.cmd := rfl
@[simp] theorem deliver_err (out : Bytes) (s : State) : (deliver out s).err = 0 := rfl
@[simp] theorem deliver_keyLen (out : Bytes) (s : State) : (deliver out s).keyLen = s.keyLen := rfl
@[simp] theorem deliver_ivLen (out : Bytes) (s : State) : (deliver out s).ivLen = s.ivLen := rfl
@[simp] theorem deliver_dinLen (out : Bytes) (s : State) : (deliver out s).dinLen = s.dinLen := rfl
@[simp] theorem deliver_doutLen (out : Bytes) (s : State) : (deliver out s).doutLen = out.length := rfl
@[simp] theorem deliver_keyBuf (out : Bytes) (s : State) : (deliver out s).keyBuf = s.keyBuf := rfl
@[simp] theorem deliver_ivBuf (out : Bytes) (s : State) : (deliver out s).ivBuf = s.ivBuf := rfl
@[simp] theorem deliver_dinBuf (out : Bytes) (s : State) : (deliver out s).dinBuf = s.dinBuf := rfl
@[simp] theorem deliver_doutBuf (out : Bytes) (s : State) : (deliver out s).doutBuf = s.doutBuf.writeBytes 0 out := rfl
@[simp] theorem deliver_fei (out : Bytes) (s : State) : (deliver out s).fei = s.fei := rfl
@[simp] theorem deliver_spn (out : Bytes) (s : State) : (deliver out s).spn = s.spn := rfl
@[simp] theorem deliver_tea (out : Bytes) (s : State) : (deliver out s).tea = s.tea := rfl
@[simp] theorem deliver_xtea (out : Bytes) (s : State) : (deliver out s).xtea = s.xtea := rfl
@[simp] theorem deliver_xxt (out : Bytes) (s : State) : (deliver out s).xxt = s.xxt := rfl
@[simp] theorem deliver_str (out : Bytes) (s : State) : (deliver out s).str = s.str := rfl
@[simp] theorem deliver_pending (out : Bytes) (s : State) : (deliver out s).pending = s.pending := rfl
@[simp] theorem deliver_response (out : Bytes) (s : State) : (deliver out s).response = s.response := rfl
@[simp] theorem deliver_draws (out : Bytes) (s : State) : (deliver out s).draws = s.draws := rfl
@[simp] theorem deliver_staleReads (out : Bytes) (s : State) : (deliver out s).staleReads = s.staleReads := rfl

/-! ### `applyReset`: everything but what is outside the hardware -/

@[simp] theorem applyReset_cmd (s : State) : (applyReset s).cmd = State.reset.cmd := rfl
@[simp] theorem applyReset_err (s : State) : (applyReset s).err = State.reset.err := rfl
@[simp] theorem applyReset_keyLen (s : State) : (applyReset s).keyLen = State.reset.keyLen := rfl
@[simp] theorem applyReset_ivLen (s : State) : (applyReset s).ivLen = State.reset.ivLen := rfl
@[simp] theorem applyReset_dinLen (s : State) : (applyReset s).dinLen = State.reset.dinLen := rfl
@[simp] theorem applyReset_doutLen (s : State) : (applyReset s).doutLen = State.reset.doutLen := rfl
@[simp] theorem applyReset_keyBuf (s : State) : (applyReset s).keyBuf = State.reset.keyBuf := rfl
@[simp] theorem applyReset_ivBuf (s : State) : (applyReset s).ivBuf = State.reset.ivBuf := rfl
@[simp] theorem applyReset_dinBuf (s : State) : (applyReset s).dinBuf = State.reset.dinBuf := rfl
@[simp] theorem applyReset_doutBuf (s : State) : (applyReset s).doutBuf = State.reset.doutBuf := rfl
@[simp] theorem applyReset_fei (s : State) : (applyReset s).fei = State.reset.fei := rfl
@[simp] theorem applyReset_spn (s : State) : (applyReset s).spn = State.reset.spn := rfl
@[simp] theorem applyReset_tea (s : State) : (applyReset s).tea = State.reset.tea := rfl
@[simp] theorem applyReset_xtea (s : State) : (applyReset s).xtea = State.reset.xtea := rfl
@[simp] theorem applyReset_xxt (s : State) : (applyReset s).xxt = State.reset.xxt := rfl
@[simp] theorem applyReset_str (s : State) : (applyReset s).str = State.reset.str := rfl
@[simp] theorem applyReset_pending (s : State) : (applyReset s).pending = s.pending := rfl
@[simp] theorem applyReset_response (s : State) : (applyReset s).response = State.reset.response := rfl
@[simp] theorem applyReset_draws (s : State) : (applyReset s).draws = s.draws := rfl
@[simp] theorem applyReset_staleReads (s : State) : (applyReset s).staleReads = s.staleReads := rfl

/-! ### `setBuf` -/

@[simp] theorem setBuf_cmd (s : State) (sp : Space) (m : Memory) : (setBuf s sp m).cmd = s.cmd := by cases sp <;> rfl
@[simp] theorem setBuf_err (s : State) (sp : Space) (m : Memory) : (setBuf s sp m).err = s.err := by cases sp <;> rfl
@[simp] theorem setBuf_keyLen (s : State) (sp : Space) (m : Memory) : (setBuf s sp m).keyLen = s.keyLen := by cases sp <;> rfl
@[simp] theorem setBuf_ivLen (s : State) (sp : Space) (m : Memory) : (setBuf s sp m).ivLen = s.ivLen := by cases sp <;> rfl
@[simp] theorem setBuf_dinLen (s : State) (sp : Space) (m : Memory) : (setBuf s sp m).dinLen = s.dinLen := by cases sp <;> rfl
@[simp] theorem setBuf_doutLen (s : State) (sp : Space) (m : Memory) : (setBuf s sp m).doutLen = s.doutLen := by cases sp <;> rfl
@[simp] theorem setBuf_fei (s : State) (sp : Space) (m : Memory) : (setBuf s sp m).fei = s.fei := by cases sp <;> rfl
@[simp] theorem setBuf_spn (s : State) (sp : Space) (m : Memory) : (setBuf s sp m).spn = s.spn := by cases sp <;> rfl
@[simp] theorem setBuf_tea (s : State) (sp : Space) (m : Memory) : (setBuf s sp m).tea = s.tea := by cases sp <;> rfl
@[simp] theorem setBuf_xtea (s : State) (sp : Space) (m : Memory) : (setBuf s sp m).xtea = s.xtea := by cases sp <;> rfl
@[simp] theorem setBuf_xxt (s : State) (sp : Space) (m : Memory) : (setBuf s sp m).xxt = s.xxt := by cases sp <;> rfl
@[simp] theorem setBuf_str (s : State) (sp : Space) (m : Memory) : (setBuf s sp m).str = s.str := by cases sp <;> rfl
@[simp] theorem setBuf_pending (s : State) (sp : Space) (m : Memory) : (setBuf s sp m).pending = s.pending := by cases sp <;> rfl
@[simp] theorem setBuf_response (s : State) (sp : Space) (m : Memory) : (setBuf s sp m).response = s.response := by cases sp <;> rfl
@[simp] theorem setBuf_draws (s : State) (sp : Space) (m : Memory) : (setBuf s sp m).draws = s.draws := by cases sp <;> rfl
@[simp] theorem setBuf_staleReads (s : State) (sp : Space) (m : Memory) : (setBuf s sp m).staleReads = s.staleReads := by cases sp <;> rfl
@[simp] theorem setBuf_key_keyBuf (s : State) (m : Memory) : (setBuf s .key m).keyBuf = m := rfl
@[simp] theorem setBuf_key_ivBuf (s : State) (m : Memory) : (setBuf s .key m).ivBuf = s.ivBuf := rfl
@[simp] theorem setBuf_key_dinBuf (s : State) (m : Memory) : (setBuf s .key m).dinBuf = s.dinBuf := rfl
@[simp] theorem setBuf_key_doutBuf (s : State) (m : Memory) : (setBuf s .key m).doutBuf = s.doutBuf := rfl
@[simp] theorem setBuf_iv_keyBuf (s : State) (m : Memory) : (setBuf s .iv m).keyBuf = s.keyBuf := rfl
@[simp] theorem setBuf_iv_ivBuf (s : State) (m : Memory) : (setBuf s .iv m).ivBuf = m := rfl
@[simp] theorem setBuf_iv_dinBuf (s : State) (m : Memory) : (setBuf s .iv m).dinBuf = s.dinBuf := rfl
@[simp] theorem setBuf_iv_doutBuf (s : State) (m : Memory) : (setBuf s .iv m).doutBuf = s.doutBuf := rfl
@[simp] theorem setBuf_din_keyBuf (s : State) (m : Memory) : (setBuf s .din m).keyBuf = s.keyBuf := rfl
@[simp] theorem setBuf_din_ivBuf (s : State) (m : Memory) : (setBuf s .din m).ivBuf = s.ivBuf := rfl
@[simp] theorem setBuf_din_dinBuf (s : State) (m : Memory) : (setBuf s .din m).dinBuf = m := rfl
@[simp] theorem setBuf_din_doutBuf (s : State) (m : Memory) : (setBuf s .din m).doutBuf = s.doutBuf := rfl
@[simp] theorem setBuf_dout_keyBuf (s : State) (m : Memory) : (setBuf s .dout m).keyBuf = s.keyBuf := rfl
@[simp] theorem setBuf_dout_ivBuf (s : State) (m : Memory) : (setBuf s .dout m).ivBuf = s.ivBuf := rfl
@[simp] theorem setBuf_dout_dinBuf (s : State) (m : Memory) : (setBuf s .dout m).dinBuf = s.dinBuf := rfl
@[simp] theorem setBuf_dout_doutBuf (s : State) (m : Memory) : (setBuf s .dout m).doutBuf = m := rfl

/-! ### `setLen` -/

@[simp] theorem setLen_cmd (s : State) (sp : Space) (n : Nat) : (setLen s sp n).cmd = s.cmd := by cases sp <;> rfl
@[simp] theorem setLen_err (s : State) (sp : Space) (n : Nat) : (setLen s sp n).err = s.err := by cases sp <;> rfl
@[simp] theorem setLen_keyBuf (s : State) (sp : Space) (n : Nat) : (setLen s sp n).keyBuf = s.keyBuf := by cases sp <;> rfl
@[simp] theorem setLen_ivBuf (s : State) (sp : Space) (n : Nat) : (setLen s sp n).ivBuf = s.ivBuf := by cases sp <;> rfl
@[simp] theorem setLen_dinBuf (s : State) (sp : Space) (n : Nat) : (setLen s sp n).dinBuf = s.dinBuf := by cases sp <;> rfl
@[simp] theorem setLen_doutBuf (s : State) (sp : Space) (n : Nat) : (setLen s sp n).doutBuf = s.doutBuf := by cases sp <;> rfl
@[simp] theorem setLen_fei (s : State) (sp : Space) (n : Nat) : (setLen s sp n).fei = s.fei := by cases sp <;> rfl
@[simp] theorem setLen_spn (s : State) (sp : Space) (n : Nat) : (setLen s sp n).spn = s.spn := by cases sp <;> rfl
@[simp] theorem setLen_tea (s : State) (sp : Space) (n : Nat) : (setLen s sp n).tea = s.tea := by cases sp <;> rfl
@[simp] theorem setLen_xtea (s : State) (sp : Space) (n : Nat) : (setLen s sp n).xtea = s.xtea := by cases sp <;> rfl
@[simp] theorem setLen_xxt (s : State) (sp : Space) (n : Nat) : (setLen s sp n).xxt = s.xxt := by cases sp <;> rfl
@[simp] theorem setLen_str (s : State) (sp : Space) (n : Nat) : (setLen s sp n).str = s.str := by cases sp <;> rfl
@[simp] theorem setLen_pending (s : State) (sp : Space) (n : Nat) : (setLen s sp n).pending = s.pending := by cases sp <;> rfl
@[simp] theorem setLen_response (s : State) (sp : Space) (n : Nat) : (setLen s sp n).response = s.response := by cases sp <;> rfl
@[simp] theorem setLen_draws (s : State) (sp : Space) (n : Nat) : (setLen s sp n).draws = s.draws := by cases sp <;> rfl
@[simp] theorem setLen_staleReads (s : State) (sp : Space) (n : Nat) : (setLen s sp n).staleReads = s.staleReads := by cases sp <;> rfl
@[simp] theorem setLen_key_keyLen (s : State) (n : Nat) : (setLen s .key n).keyLen = n := rfl
@[simp] theorem setLen_key_ivLen (s : State) (n : Nat) : (setLen s .key n).ivLen = s.ivLen := rfl
@[simp] theorem setLen_key_dinLen (s : State) (n : Nat) : (setLen s .key n).dinLen = s.dinLen := rfl
@[simp] theorem setLen_key_doutLen (s : State) (n : Nat) : (setLen s .key n).doutLen = s.doutLen := rfl
@[simp] theorem setLen_iv_keyLen (s : State) (n : Nat) : (setLen s .iv n).keyLen = s.keyLen := rfl
@[simp] theorem setLen_iv_ivLen (s : State) (n : Nat) : (setLen s .iv n).ivLen = n := rfl
@[simp] theorem setLen_iv_dinLen (s : State) (n : Nat) : (setLen s .iv n).dinLen = s.dinLen := rfl
@[simp] theorem setLen_iv_doutLen (s : State) (n : Nat) : (setLen s .iv n).doutLen = s.doutLen := rfl
@[simp] theorem setLen_din_keyLen (s : State) (n : Nat) : (setLen s .din n).keyLen = s.keyLen := rfl
@[simp] theorem setLen_din_ivLen (s : State) (n : Nat) : (setLen s .din n).ivLen = s.ivLen := rfl
@[simp] theorem setLen_din_dinLen (s : State) (n : Nat) : (setLen s .din n).dinLen = n := rfl
@[simp] theorem setLen_din_doutLen (s : State) (n : Nat) : (setLen s .din n).doutLen = s.doutLen := rfl
@[simp] theorem setLen_dout_keyLen (s : State) (n : Nat) : (setLen s .dout n).keyLen = s.keyLen := rfl
@[simp] theorem setLen_dout_ivLen (s : State) (n : Nat) : (setLen s .dout n).ivLen = s.ivLen := rfl
@[simp] theorem setLen_dout_dinLen (s : State) (n : Nat) : (setLen s .dout n).dinLen = s.dinLen := rfl
@[simp] theorem setLen_dout_doutLen (s : State) (n : Nat) : (setLen s .dout n).doutLen = n := rfl

/-! ### `memWrite` -/

@[simp] theorem memWrite_cmd (s : State) (sp : Space) (o : Nat) (v : Bytes) : (memWrite s sp o v).cmd = s.cmd := by cases sp <;> rfl
@[simp] theorem memWrite_err (s : State) (sp : Space) (o : Nat) (v : Bytes) : (memWrite s sp o v).err = s.err := by cases sp <;> rfl
@[simp] theorem memWrite_keyLen (s : State) (sp : Space) (o : Nat) (v : Bytes) : (memWrite s sp o v).keyLen = s.keyLen := by cases sp <;> rfl
@[simp] theorem memWrite_ivLen (s : State) (sp : Space) (o : Nat) (v : Bytes) : (memWrite s sp o v).ivLen = s.ivLen := by cases sp <;> rfl
@[simp] theorem memWrite_dinLen (s : State) (sp : Space) (o : Nat) (v : Bytes) : (memWrite s sp o v).dinLen = s.dinLen := by cases sp <;> rfl
@[simp] theorem memWrite_doutLen (s : State) (sp : Space) (o : Nat) (v : Bytes) : (memWrite s sp o v).doutLen = s.doutLen := by cases sp <;> rfl
@[simp] theorem memWrite_fei (s : State) (sp : Space) (o : Nat) (v : Bytes) : (memWrite s sp o v).fei = s.fei := by cases sp <;> rfl
@[simp] theorem memWrite_spn (s : State) (sp : Space) (o : Nat) (v : Bytes) : (memWrite s sp o v).spn = s.spn := by cases sp <;> rfl
@[simp] theorem memWrite_tea (s : State) (sp : Space) (o : Nat) (v : Bytes) : (memWrite s sp o v).tea = s.tea := by cases sp <;> rfl
@[simp] theorem memWrite_xtea (s : State) (sp : Space) (o : Nat) (v : Bytes) : (memWrite s sp o v).xtea = s.xtea := by cases sp <;> rfl
@[simp] theorem memWrite_xxt (s : State) (sp : Space) (o : Nat) (v : Bytes) : (memWrite s sp o v).xxt = s.xxt := by cases sp <;> rfl
@[simp] theorem memWrite_str (s : State) (sp : Space) (o : Nat) (v : Bytes) : (memWrite s sp o v).str = s.str := by cases sp <;> rfl
@[simp] theorem memWrite_pending (s : State) (sp : Space) (o : Nat) (v : Bytes) : (memWrite s sp o v).pending = s.pending := by cases sp <;> rfl
@[simp] theorem memWrite_response (s : State) (sp : Space) (o : Nat) (v : Bytes) : (memWrite s sp o v).response = s.response := by cases sp <;> rfl
@[simp] theorem memWrite_draws (s : State) (sp : Space) (o : Nat) (v : Bytes) : (memWrite s sp o v).draws = s.draws := by cases sp <;> rfl
@[simp] theorem memWrite_staleReads (s : State) (sp : Space) (o : Nat) (v : Bytes) : (memWrite s sp o v).staleReads = s.staleReads := by cases sp <;> rfl
@[simp] theorem memWrite_key_keyBuf (s : State) (o : Nat) (v : Bytes) : (memWrite s .key o v).keyBuf = s.keyBuf.writeBytes o v := rfl
@[simp] theorem memWrite_key_ivBuf (s : State) (o : Nat) (v : Bytes) : (memWrite s .key o v).ivBuf = s.ivBuf := rfl
@[simp] theorem memWrite_key_dinBuf (s : State) (o : Nat) (v : Bytes) : (memWrite s .key o v).dinBuf = s.dinBuf := rfl
@[simp] theorem memWrite_key_doutBuf (s : State) (o : Nat) (v : Bytes) : (memWrite s .key o v).doutBuf = s.doutBuf := rfl
@[simp] theorem memWrite_iv_keyBuf (s : State) (o : Nat) (v : Bytes) : (memWrite s .iv o v).keyBuf = s.keyBuf := rfl
@[simp] theorem memWrite_iv_ivBuf (s : State) (o : Nat) (v : Bytes) : (memWrite s .iv o v).ivBuf = s.ivBuf.writeBytes o v := rfl
@[simp] theorem memWrite_iv_dinBuf (s : State) (o : Nat) (v : Bytes) : (memWrite s .iv o v).dinBuf = s.dinBuf := rfl
@[simp] theorem memWrite_iv_doutBuf (s : State) (o : Nat) (v : Bytes) : (memWrite s .iv o v).doutBuf = s.doutBuf := rfl
@[simp] theorem memWrite_din_keyBuf (s : State) (o : Nat) (v : Bytes) : (memWrite s .din o v).keyBuf = s.keyBuf := rfl
@[simp] theorem memWrite_din_ivBuf (s : State) (o : Nat) (v : Bytes) : (memWrite s .din o v).ivBuf = s.ivBuf := rfl
@[simp] theorem memWrite_din_dinBuf (s : State) (o : Nat) (v : Bytes) : (memWrite s .din o v).dinBuf = s.dinBuf.writeBytes o v := rfl
@[simp] theorem memWrite_din_doutBuf (s : State) (o : Nat) (v : Bytes) : (memWrite s .din o v).doutBuf = s.doutBuf := rfl
@[simp] theorem memWrite_dout_keyBuf (s : State) (o : Nat) (v : Bytes) : (memWrite s .dout o v).keyBuf = s.keyBuf := rfl
@[simp] theorem memWrite_dout_ivBuf (s : State) (o : Nat) (v : Bytes) : (memWrite s .dout o v).ivBuf = s.ivBuf := rfl
@[simp] theorem memWrite_dout_dinBuf (s : State) (o : Nat) (v : Bytes) : (memWrite s .dout o v).dinBuf = s.dinBuf := rfl
@[simp] theorem memWrite_dout_doutBuf (s : State) (o : Nat) (v : Bytes) : (memWrite s .dout o v).doutBuf = s.doutBuf.writeBytes o v := rfl

/-! ### `putOperand` -/

@[simp] theorem putOperand_cmd (s : State) (sp : Space) (v : Bytes) : (putOperand sp v s).cmd = s.cmd := by cases sp <;> rfl
@[simp] theorem putOperand_err (s : State) (sp : Space) (v : Bytes) : (putOperand sp v s).err = s.err := by cases sp <;> rfl
@[simp] theorem putOperand_fei (s : State) (sp : Space) (v : Bytes) : (putOperand sp v s).fei = s.fei := by cases sp <;> rfl
@[simp] theorem putOperand_spn (s : State) (sp : Space) (v : Bytes) : (putOperand sp v s).spn = s.spn := by cases sp <;> rfl
@[simp] theorem putOperand_tea (s : State) (sp : Space) (v : Bytes) : (putOperand sp v s).tea = s.tea := by cases sp <;> rfl
@[simp] theorem putOperand_xtea (s : State) (sp : Space) (v : Bytes) : (putOperand sp v s).xtea = s.xtea := by cases sp <;> rfl
@[simp] theorem putOperand_xxt (s : State) (sp : Space) (v : Bytes) : (putOperand sp v s).xxt = s.xxt := by cases sp <;> rfl
@[simp] theorem putOperand_str (s : State) (sp : Space) (v : Bytes) : (putOperand sp v s).str = s.str := by cases sp <;> rfl
@[simp] theorem putOperand_pending (s : State) (sp : Space) (v : Bytes) : (putOperand sp v s).pending = s.pending := by cases sp <;> rfl
@[simp] theorem putOperand_response (s : State) (sp : Space) (v : Bytes) : (putOperand sp v s).response = s.response := by cases sp <;> rfl
@[simp] theorem putOperand_draws (s : State) (sp : Space) (v : Bytes) : (putOperand sp v s).draws = s.draws := by cases sp <;> rfl
@[simp] theorem putOperand_staleReads (s : State) (sp : Space) (v : Bytes) : (putOperand sp v s).staleReads = s.staleReads := by cases sp <;> rfl
@[simp] theorem putOperand_key_keyLen (s : State) (v : Bytes) : (putOperand .key v s).keyLen = v.length := rfl
@[simp] theorem putOperand_key_ivLen (s : State) (v : Bytes) : (putOperand .key v s).ivLen = s.ivLen := rfl
@[simp] theorem putOperand_key_dinLen (s : State) (v : Bytes) : (putOperand .key v s).dinLen = s.dinLen := rfl
@[simp] theorem putOperand_key_doutLen (s : State) (v : Bytes) : (putOperand .key v s).doutLen = s.doutLen := rfl
@[simp] theorem putOperand_key_keyBuf (s : State) (v : Bytes) : (putOperand .key v s).keyBuf = s.keyBuf.writeBytes 0 v := rfl
@[simp] theorem putOperand_key_ivBuf (s : State) (v : Bytes) : (putOperand .key v s).ivBuf = s.ivBuf := rfl
@[simp] theorem putOperand_key_dinBuf (s : State) (v : Bytes) : (putOperand .key v s).dinBuf = s.dinBuf := rfl
@[simp] theorem putOperand_key_doutBuf (s : State) (v : Bytes) : (putOperand .key v s).doutBuf = s.doutBuf := rfl
@[simp] theorem putOperand_iv_keyLen (s : State) (v : Bytes) : (putOperand .iv v s).keyLen = s.keyLen := rfl
@[simp] theorem putOperand_iv_ivLen (s : State) (v : Bytes) : (putOperand .iv v s).ivLen = v.length := rfl
@[simp] theorem putOperand_iv_dinLen (s : State) (v : Bytes) : (putOperand .iv v s).dinLen = s.dinLen := rfl
@[simp] theorem putOperand_iv_doutLen (s : State) (v : Bytes) : (putOperand .iv v s).doutLen = s.doutLen := rfl
@[simp] theorem putOperand_iv_keyBuf (s : State) (v : Bytes) : (putOperand .iv v s).keyBuf = s.keyBuf := rfl
@[simp] theorem putOperand_iv_ivBuf (s : State) (v : Bytes) : (putOperand .iv v s).ivBuf = s.ivBuf.writeBytes 0 v := rfl
@[simp] theorem putOperand_iv_dinBuf (s : State) (v : Bytes) : (putOperand .iv v s).dinBuf = s.dinBuf := rfl
@[simp] theorem putOperand_iv_doutBuf (s : State) (v : Bytes) : (putOperand .iv v s).doutBuf = s.doutBuf := rfl
@[simp] theorem putOperand_din_keyLen (s : State) (v : Bytes) : (putOperand .din v s).keyLen = s.keyLen := rfl
@[simp] theorem putOperand_din_ivLen (s : State) (v : Bytes) : (putOperand .din v s).ivLen = s.ivLen := rfl
@[simp] theorem putOperand_din_dinLen (s : State) (v : Bytes) : (putOperand .din v s).dinLen = v.length := rfl
@[simp] theorem putOperand_din_doutLen (s : State) (v : Bytes) : (putOperand .din v s).doutLen = s.doutLen := rfl
@[simp] theorem putOperand_din_keyBuf (s : State) (v : Bytes) : (putOperand .din v s).keyBuf = s.keyBuf := rfl
@[simp] theorem putOperand_din_ivBuf (s : State) (v : Bytes) : (putOperand .din v s).ivBuf = s.ivBuf := rfl
@[simp] theorem putOperand_din_dinBuf (s : State) (v : Bytes) : (putOperand .din v s).dinBuf = s.dinBuf.writeBytes 0 v := rfl
@[simp] theorem putOperand_din_doutBuf (s : State) (v : Bytes) : (putOperand .din v s).doutBuf = s.doutBuf := rfl
@[simp] theorem putOperand_dout_keyLen (s : State) (v : Bytes) : (putOperand .dout v s).keyLen = s.keyLen := rfl
@[simp] theorem putOperand_dout_ivLen (s : State) (v : Bytes) : (putOperand .dout v s).ivLen = s.ivLen := rfl
@[simp] theorem putOperand_dout_dinLen (s : State) (v : Bytes) : (putOperand .dout v s).dinLen = s.dinLen := rfl
@[simp] theorem putOperand_dout_doutLen (s : State) (v : Bytes) : (putOperand .dout v s).doutLen = v.length := rfl
@[simp] theorem putOperand_dout_keyBuf (s : State) (v : Bytes) : (putOperand .dout v s).keyBuf = s.keyBuf := rfl
@[simp] theorem putOperand_dout_ivBuf (s : State) (v : Bytes) : (putOperand .dout v s).ivBuf = s.ivBuf := rfl
@[simp] theorem putOperand_dout_dinBuf (s : State) (v : Bytes) : (putOperand .dout v s).dinBuf = s.dinBuf := rfl
@[simp] theorem putOperand_dout_doutBuf (s : State) (v : Bytes) : (putOperand .dout v s).doutBuf = s.doutBuf.writeBytes 0 v := rfl

/-! ### `resolveOperand` -/

/-- An operand that is not empty is left as it is. -/
theorem resolveOperand_of_ne {s : State} {sp : Space} (n : Nat) (h : lenOf s sp ≠ 0) : resolveOperand sp n s = s := if_neg h

/-- An empty operand is drawn. -/
theorem resolveOperand_of_eq {s : State} {sp : Space} (n : Nat) (h : lenOf s sp = 0) :
    resolveOperand sp n s = putOperand sp (rngBytes s.draws n) { s with draws := s.draws + n } := if_pos h

@[simp] theorem resolveOperand_cmd (s : State) (sp : Space) (n : Nat) : (resolveOperand sp n s).cmd = s.cmd := by
  unfold resolveOperand; split <;> simp
@[simp] theorem resolveOperand_err (s : State) (sp : Space) (n : Nat) : (resolveOperand sp n s).err = s.err := by
  unfold resolveOperand; split <;> simp
@[simp] theorem resolveOperand_fei (s : State) (sp : Space) (n : Nat) : (resolveOperand sp n s).fei = s.fei := by
  unfold resolveOperand; split <;> simp
@[simp] theorem resolveOperand_spn (s : State) (sp : Space) (n : Nat) : (resolveOperand sp n s).spn = s.spn := by
  unfold resolveOperand; split <;> simp
@[simp] theorem resolveOperand_tea (s : State) (sp : Space) (n : Nat) : (resolveOperand sp n s).tea = s.tea := by
  unfold resolveOperand; split <;> simp
@[simp] theorem resolveOperand_xtea (s : State) (sp : Space) (n : Nat) : (resolveOperand sp n s).xtea = s.xtea := by
  unfold resolveOperand; split <;> simp
@[simp] theorem resolveOperand_xxt (s : State) (sp : Space) (n : Nat) : (resolveOperand sp n s).xxt = s.xxt := by
  unfold resolveOperand; split <;> simp
@[simp] theorem resolveOperand_str (s : State) (sp : Space) (n : Nat) : (resolveOperand sp n s).str = s.str := by
  unfold resolveOperand; split <;> simp
@[simp] theorem resolveOperand_pending (s : State) (sp : Space) (n : Nat) : (resolveOperand sp n s).pending = s.pending := by
  unfold resolveOperand; split <;> simp
@[simp] theorem resolveOperand_response (s : State) (sp : Space) (n : Nat) : (resolveOperand sp n s).response = s.response := by
  unfold resolveOperand; split <;> simp
@[simp] theorem resolveOperand_staleReads (s : State) (sp : Space) (n : Nat) : (resolveOperand sp n s).staleReads = s.staleReads := by
  unfold resolveOperand; split <;> simp
@[simp] theorem resolveOperand_key_ivLen (s : State) (n : Nat) : (resolveOperand .key n s).ivLen = s.ivLen := by
  unfold resolveOperand; split <;> simp
@[simp] theorem resolveOperand_key_dinLen (s : State) (n : Nat) : (resolveOperand .key n s).dinLen = s.dinLen := by
  unfold resolveOperand; split <;> simp
@[simp] theorem resolveOperand_key_doutLen (s : State) (n : Nat) : (resolveOperand .key n s).doutLen = s.doutLen := by
  unfold resolveOperand; split <;> simp
@[simp] theorem resolveOperand_key_ivBuf (s : State) (n : Nat) : (resolveOperand .key n s).ivBuf = s.ivBuf := by
  unfold resolveOperand; split <;> simp
@[simp] theorem resolveOperand_key_dinBuf (s : State) (n : Nat) : (resolveOperand .key n s).dinBuf = s.dinBuf := by
  unfold resolveOperand; split <;> simp
@[simp] theorem resolveOperand_key_doutBuf (s : State) (n : Nat) : (resolveOperand .key n s).doutBuf = s.doutBuf := by
  unfold resolveOperand; split <;> simp
@[simp] theorem resolveOperand_iv_keyLen (s : State) (n : Nat) : (resolveOperand .iv n s).keyLen = s.keyLen := by
  unfold resolveOperand; split <;> simp
@[simp] theorem resolveOperand_iv_dinLen (s : State) (n : Nat) : (resolveOperand .iv n s).dinLen = s.dinLen := by
  unfold resolveOperand; split <;> simp
@[simp] theorem resolveOperand_iv_doutLen (s : State) (n : Nat) : (resolveOperand .iv n s).doutLen = s.doutLen := by
  unfold resolveOperand; split <;> simp
@[simp] theorem resolveOperand_iv_keyBuf (s : State) (n : Nat) : (resolveOperand .iv n s).keyBuf = s.keyBuf := by
  unfold resolveOperand; split <;> simp
@[simp] theorem resolveOperand_iv_dinBuf (s : State) (n : Nat) : (resolveOperand .iv n s).dinBuf = s.dinBuf := by
  unfold resolveOperand; split <;> simp
@[simp] theorem resolveOperand_iv_doutBuf (s : State) (n : Nat) : (resolveOperand .iv n s).doutBuf = s.doutBuf := by
  unfold resolveOperand; split <;> simp

/-! ### The accessors of an operand space -/

@[simp] theorem bufOf_key (s : State) : bufOf s .key = s.keyBuf := rfl
@[simp] theorem bufOf_iv (s : State) : bufOf s .iv = s.ivBuf := rfl
@[simp] theorem bufOf_din (s : State) : bufOf s .din = s.dinBuf := rfl
@[simp] theorem bufOf_dout (s : State) : bufOf s .dout = s.doutBuf := rfl
@[simp] theorem lenOf_key (s : State) : lenOf s .key = s.keyLen := rfl
@[simp] theorem lenOf_iv (s : State) : lenOf s .iv = s.ivLen := rfl
@[simp] theorem lenOf_din (s : State) : lenOf s .din = s.dinLen := rfl
@[simp] theorem lenOf_dout (s : State) : lenOf s .dout = s.doutLen := rfl

@[simp] theorem length_rngBytes (d n : Nat) : (rngBytes d n).length = n := by simp [rngBytes]
@[simp] theorem length_memRead (s : State) (sp : Space) (o n : Nat) : (memRead s sp o n).length = n := by simp [memRead]

end Sys2Proof.Machine
end

