-- ==== Sys2Proof/Laws/Ops.lean ====
section
/-! SUPPORT. What each shared operation can do, said once: how a command ends, how an empty operand is resolved, and the frames of
the commands (`initUnit`, `singleBlock`, `blockwise`, `chained`). -/

namespace Sys2Proof.Machine

open Config (Params)

/-! ## Operands -/

@[simp] theorem length_operand (s : State) (sp : Space) : (operand s sp).length = lenOf s sp := by simp [operand]

/-- A block of an operand is read from its buffer. -/
theorem operand_slice (s : State) (sp : Space) (o n : Nat) (h : o + n ≤ lenOf s sp) :
    ((operand s sp).drop o).take n = memRead s sp o n := by
  unfold operand memRead
  rw [Memory.take_drop_readBytes _ _ _ _ _ h, Nat.zero_add]

/-! ## How a command ends -/

/-- `raise` leaves the rejected state. -/
theorem raise_eq (e : ErrorKind) (s : State) : raise e s = rejected (errorCode e) s := rfl

/-- What `deliver` leaves: the code 0, the output in `DOUT`, nothing else changed. -/
theorem deliver_delivers {s : State} (h : s.doutBuf.wf) (out : Bytes) : Delivers out s (deliver out s) := by
  refine ⟨⟨rfl, rfl, rfl, ?_⟩, ?_⟩
  · intro sp a ha
    cases sp with
    | dout =>
      have ha : out.length ≤ a := by simpa [firstBytes] using ha
      change (s.doutBuf.writeBytes 0 out).read a = s.doutBuf.read a
      rw [Memory.read_writeBytes h, if_neg (by omega)]
    | _ => rfl
  · exact Memory.readBytes_writeBytes_self h 0 out

/-- The output a delivering command leaves is what it delivered. -/
theorem operand_dout_deliver {s : State} (h : s.doutBuf.wf) (out : Bytes) : operand (deliver out s) .dout = out :=
  Memory.readBytes_writeBytes_self h 0 out

/-- Part of the output. -/
theorem memRead_dout_deliver {s : State} (h : s.doutBuf.wf) (out : Bytes) (o n : Nat) (hn : o + n ≤ out.length) :
    memRead (deliver out s) .dout o n = (out.drop o).take n := by
  have := Memory.readBytes_writeBytes h 0 out o n hn
  rwa [Nat.zero_add] at this

/-! ## An empty key or IV -/

/-- 41 R131: what resolving `KEY` leaves. -/
theorem keyResolved_resolveOperand {s : State} (h : s.keyBuf.wf) (n : Nat) : KeyResolved n s (resolveOperand .key n s) := by
  refine ⟨fun h0 => resolveOperand_of_ne n h0, fun h0 => ?_⟩
  rw [resolveOperand_of_eq n (by exact h0)]
  refine ⟨by simp [putOperand, memWrite, setBuf, setLen], ?_, ?_⟩
  · have := Memory.readBytes_writeBytes_self h 0 (rngBytes s.draws n)
    rwa [length_rngBytes] at this
  · intro sp a ha
    cases sp with
    | key =>
      have ha : n ≤ a := by simpa [firstBytes] using ha
      change (s.keyBuf.writeBytes 0 (rngBytes s.draws n)).read a = s.keyBuf.read a
      rw [Memory.read_writeBytes h, if_neg (by rw [length_rngBytes]; omega)]
    | _ => rfl

/-- 42 R151: what resolving `IV` leaves. -/
theorem ivResolved_resolveOperand {s : State} (h : s.ivBuf.wf) (n : Nat) : IvResolved n s (resolveOperand .iv n s) := by
  refine ⟨fun h0 => resolveOperand_of_ne n h0, fun h0 => ?_⟩
  rw [resolveOperand_of_eq n (by exact h0)]
  refine ⟨by simp [putOperand, memWrite, setBuf, setLen], ?_, ?_⟩
  · have := Memory.readBytes_writeBytes_self h 0 (rngBytes s.draws n)
    rwa [length_rngBytes] at this
  · intro sp a ha
    cases sp with
    | iv =>
      have ha : n ≤ a := by simpa [firstBytes] using ha
      change (s.ivBuf.writeBytes 0 (rngBytes s.draws n)).read a = s.ivBuf.read a
      rw [Memory.read_writeBytes h, if_neg (by rw [length_rngBytes]; omega)]
    | _ => rfl

/-- Resolving keeps an accepted length: the operand has n bytes afterwards. -/
theorem resolveOperand_keyLen (s : State) (n : Nat) :
    (resolveOperand .key n s).keyLen = if s.keyLen = 0 then n else s.keyLen := by
  split
  · rw [resolveOperand_of_eq n (by assumption)]; simp
  · rw [resolveOperand_of_ne n (by assumption)]

/-- Resolving keeps an accepted length: the operand has n bytes afterwards. -/
theorem resolveOperand_ivLen (s : State) (n : Nat) :
    (resolveOperand .iv n s).ivLen = if s.ivLen = 0 then n else s.ivLen := by
  split
  · rw [resolveOperand_of_eq n (by assumption)]; simp
  · rw [resolveOperand_of_ne n (by assumption)]

/-- Resolving an operand leaves `DIN`. -/
@[simp] theorem operand_din_resolveOperand_iv (s : State) (n : Nat) : operand (resolveOperand .iv n s) .din = operand s .din := by
  simp [operand, memRead]

/-! ## The frames of the commands -/

/-- `initUnit` where the key is empty and a drawn key is accepted, or the key has an accepted length. -/
theorem initUnit_ok {s : State} {n : Nat} {lengths : List Nat} (load : Bytes → State → State)
    (h : (s.keyLen = 0 ∧ n ∈ lengths) ∨ (s.keyLen ≠ 0 ∧ s.keyLen ∈ lengths)) :
    initUnit n lengths load s =
      { load (operand (resolveOperand .key n s) .key) (resolveOperand .key n s) with err := 0, doutLen := 0 } := by
  unfold initUnit
  simp only [resolveOperand_keyLen]
  rcases h with ⟨h0, h1⟩ | ⟨h0, h1⟩
  · rw [if_pos h0, if_pos h1]; rfl
  · rw [if_neg h0, if_pos h1]; rfl

/-- `initUnit` where the key has a length that is not accepted. -/
theorem initUnit_bad {s : State} {n : Nat} {lengths : List Nat} (load : Bytes → State → State) (h0 : s.keyLen ≠ 0)
    (h1 : s.keyLen ∉ lengths) : initUnit n lengths load s = raise .keyLength s := by
  unfold initUnit
  rw [resolveOperand_of_ne n (by exact h0)]
  exact if_neg h1

/-- `singleBlock` raises `NotKeyed`, raises `BlockAlignmentError`, or delivers the block transformed. -/
theorem singleBlock_cases (keyed : Bool) (B : Nat) (f : Bytes → Bytes) (s : State) :
    (keyed = false ∧ singleBlock keyed B f s = raise .notKeyed s) ∨
    (keyed = true ∧ s.dinLen ≠ B ∧ singleBlock keyed B f s = raise .blockAlignment s) ∨
    (keyed = true ∧ s.dinLen = B ∧ singleBlock keyed B f s = deliver (f (memRead s .din 0 B)) s) := by
  unfold singleBlock
  cases keyed <;> by_cases h : s.dinLen = B <;> simp [h]

/-- `blockwise` raises `NotKeyed`, raises `BlockAlignmentError`, or delivers the blocks transformed. -/
theorem blockwise_cases (keyed : Bool) (B : Nat) (f : Bytes → Bytes) (s : State) :
    (keyed = false ∧ blockwise keyed B f s = raise .notKeyed s) ∨
    (keyed = true ∧ s.dinLen % B ≠ 0 ∧ blockwise keyed B f s = raise .blockAlignment s) ∨
    (keyed = true ∧ s.dinLen % B = 0 ∧ blockwise keyed B f s = deliver (ecb f (blocks B (operand s .din))) s) := by
  unfold blockwise
  cases keyed <;> by_cases h : s.dinLen % B = 0 <;> simp [h]

/-- `chained` raises one of three errors, or delivers the blocks transformed from the resolved IV. -/
theorem chained_cases (keyed ivOk aligned : Bool) (n B : Nat) (f : Bytes → List Bytes → Bytes) (s : State) :
    (keyed = false ∧ chained keyed ivOk aligned n B f s = raise .notKeyed s) ∨
    (keyed = true ∧ ivOk = false ∧ chained keyed ivOk aligned n B f s = raise .ivLength s) ∨
    (keyed = true ∧ ivOk = true ∧ (aligned = true ∧ s.dinLen % B ≠ 0) ∧
      chained keyed ivOk aligned n B f s = raise .blockAlignment s) ∨
    (keyed = true ∧ ivOk = true ∧ (aligned = true → s.dinLen % B = 0) ∧
      chained keyed ivOk aligned n B f s =
        deliver (f (memRead (resolveOperand .iv n s) .iv 0 n) (blocks B (operand s .din))) (resolveOperand .iv n s)) := by
  unfold chained
  cases keyed <;> cases ivOk <;> cases aligned <;> by_cases h : s.dinLen % B = 0 <;> simp [h]

/-! ## Blocks of an operand, and the output block by block -/

/-- Block i of an operand, as 20 R77 gives it. -/
theorem getElem_blocks_operand (s : State) (sp : Space) (B i : Nat) (h : i < (blocks B (operand s sp)).length) :
    (blocks B (operand s sp))[i] = memRead s sp (B * i) (min B (lenOf s sp - B * i)) := by
  rw [getElem_blocks]
  by_cases hb : B ≤ lenOf s sp - B * i
  · rw [min_eq_left hb]
    by_cases h0 : B = 0
    · subst h0
      simp [memRead, Memory.readBytes]
    · exact operand_slice _ _ _ _ (by omega)
  · rw [min_eq_right (by omega)]
    rw [List.take_of_length_le (by simp; omega), ← operand_slice _ _ _ _ (by
      rw [length_blocks, length_operand, blockCount] at h
      rw [Nat.lt_iff_add_one_le, Nat.le_div_iff_mul_le] at h
      · rw [Nat.add_mul] at h
        have : i * B = B * i := Nat.mul_comm _ _
        omega
      · rcases Nat.eq_zero_or_pos B with rfl | h'
        · simp at h
        · exact h')]
    rw [List.take_of_length_le]
    simp

/-- Where every output block is as long as the block of the message in its place, output block i is read from the place of block i. -/
theorem memRead_dout_block {r s : State} (hw : r.doutBuf.wf) {B : Nat} {os : List Bytes} (hB : 0 < B)
    (hlen : os.length = (blocks B (operand s .din)).length)
    (hos : ∀ i (hi : i < os.length), os[i].length = ((blocks B (operand s .din))[i]'(hlen ▸ hi)).length) (i : Nat) (hi : i < os.length) :
    memRead (deliver os.flatten r) .dout (B * i) (min B (s.dinLen - B * i)) = os[i] := by
  have h := slice_output hlen hos i hi
  rw [length_operand, lenOf_din] at h
  rw [memRead_dout_deliver hw, h]
  have := length_output hB hlen hos
  rw [this, length_operand, lenOf_din]
  have hi' := hi
  rw [hlen, length_blocks, length_operand, lenOf_din, blockCount, Nat.lt_iff_add_one_le, Nat.le_div_iff_mul_le hB, Nat.add_mul, Nat.mul_comm i] at hi'
  omega

end Sys2Proof.Machine
end

