-- ==== Sys2Proof/Laws/Exec.lean ====
section
/-! SUPPORT. The ways a command can end, said once for all 31: it raised, it loaded a context, or it delivered an output. -/

namespace Sys2Proof.Machine

open Config (Params)

/-- The states from which a data command delivers its output: the state it began in, that state with `IV` resolved, with the `IV` of
a decrypted message put in place, or with the stream advanced. -/
def Prepared (i : Instr) (s r : State) : Prop :=
  r = s ∨ (resolvesIv i = true ∧ ∃ n ≤ 16, r = resolveOperand .iv n s) ∨
  (i = .spnDecCbc ∧ ∃ v : Bytes, v.length = 16 ∧ r = putOperand .iv v s) ∨
  (i.form.unit = .str ∧ ∃ n, r = advanceStr params n s)

/-- The command raised. -/
def Raised (s t : State) : Prop := ∃ e, t = raise e s

/-- The command loaded the context of its unit, the key resolved. -/
def Loaded (i : Instr) (s t : State) : Prop :=
  i.form.op = .init ∧ ∃ n x, n ≤ 32 ∧ keyedFlag x i.form.unit = true ∧
    t = { withContextOf i.form.unit x (resolveOperand .key n s) with err := 0, doutLen := 0 }

/-- The command delivered an output. -/
def Delivered (i : Instr) (s t : State) : Prop :=
  i.form.op ≠ .init ∧ keyedFlag s i.form.unit = true ∧
    ∃ out r, out.length ≤ s.dinLen + 32 ∧ Prepared i s r ∧ t = deliver out r

/-- What a key load can do. -/
theorem initUnit_ends {i : Instr} (hi : i.form.op = .init) {n : Nat} (hn : n ≤ 32) {lengths : List Nat}
    (hmem : n ∈ lengths) (load : Bytes → State → State)
    (hload : ∀ key r, ∃ x, keyedFlag x i.form.unit = true ∧ load key r = withContextOf i.form.unit x r) (s : State) :
    Raised s (initUnit n lengths load s) ∨ Loaded i s (initUnit n lengths load s) := by
  by_cases h0 : s.keyLen = 0
  · obtain ⟨x, hx, hl⟩ := hload (operand (resolveOperand .key n s) .key) (resolveOperand .key n s)
    rw [initUnit_ok load (.inl ⟨h0, hmem⟩), hl]
    exact .inr ⟨hi, n, x, hn, hx, rfl⟩
  · by_cases h1 : s.keyLen ∈ lengths
    · obtain ⟨x, hx, hl⟩ := hload (operand (resolveOperand .key n s) .key) (resolveOperand .key n s)
      rw [initUnit_ok load (.inr ⟨h0, h1⟩), hl]
      exact .inr ⟨hi, n, x, hn, hx, rfl⟩
    · exact .inl ⟨_, initUnit_bad load h0 h1⟩

theorem singleBlock_ends {i : Instr} (hi : i.form.op ≠ .init) {keyed : Bool} {s : State} (hk : keyedFlag s i.form.unit = keyed)
    {B : Nat} {f : Bytes → Bytes} (hf : ∀ b, (f b).length = B) :
    Raised s (singleBlock keyed B f s) ∨ Delivered i s (singleBlock keyed B f s) := by
  rcases singleBlock_cases keyed B f s with ⟨_, h⟩ | ⟨_, _, h⟩ | ⟨h0, _, h⟩
  · exact .inl ⟨_, h⟩
  · exact .inl ⟨_, h⟩
  · exact .inr ⟨hi, hk.trans h0, _, s, by rw [hf]; omega, .inl rfl, h⟩

theorem blockwise_ends {i : Instr} (hi : i.form.op ≠ .init) {keyed : Bool} {s : State} (hk : keyedFlag s i.form.unit = keyed)
    {f : Bytes → Bytes} (hf : ∀ b, (f b).length = 8) :
    Raised s (blockwise keyed 8 f s) ∨ Delivered i s (blockwise keyed 8 f s) := by
  rcases blockwise_cases keyed 8 f s with ⟨_, h⟩ | ⟨_, _, h⟩ | ⟨h0, h1, h⟩
  · exact .inl ⟨_, h⟩
  · exact .inl ⟨_, h⟩
  · refine .inr ⟨hi, hk.trans h0, _, s, ?_, .inl rfl, h⟩
    rw [length_ecb hf, length_blocks, length_operand, lenOf_din, blockCount]
    omega

theorem chained_ends {i : Instr} (hi : i.form.op ≠ .init) {keyed ivOk aligned : Bool} {s : State}
    (hk : keyedFlag s i.form.unit = keyed) {n B : Nat} (hn : n ≤ 16) {f : Bytes → List Bytes → Bytes}
    (hr : resolvesIv i = true ∨ (ivOk = true → s.ivLen ≠ 0))
    (hf : ∀ iv : Bytes, iv.length = n → (aligned = true → s.dinLen % B = 0) →
      (f iv (blocks B (operand s .din))).length ≤ s.dinLen + 32) :
    Raised s (chained keyed ivOk aligned n B f s) ∨ Delivered i s (chained keyed ivOk aligned n B f s) := by
  rcases chained_cases keyed ivOk aligned n B f s with ⟨_, h⟩ | ⟨_, _, h⟩ | ⟨_, _, _, h⟩ | ⟨h0, h1, h2, h⟩
  · exact .inl ⟨_, h⟩
  · exact .inl ⟨_, h⟩
  · exact .inl ⟨_, h⟩
  · refine .inr ⟨hi, hk.trans h0, _, resolveOperand .iv n s, hf _ (length_memRead _ _ _ _) h2, ?_, h⟩
    rcases hr with hr | hr
    · exact .inr (.inl ⟨hr, n, hn, rfl⟩)
    · exact .inl (resolveOperand_of_ne n (hr h1))

/-- The output of a mode over whole 8-byte blocks is as long as the message. -/
theorem length_whole8 {s : State} (h : s.dinLen % 8 = 0) : 8 * (blocks 8 (operand s .din)).length = s.dinLen := by
  rw [length_blocks, length_operand, lenOf_din, blockCount_of_dvd (by decide) h]
  omega

/-- Every command ends in a next state, in one of three ways. -/
theorem exec_ends (i : Instr) (s : State) : ∃ t, exec i s = .next t ∧ (Raised s t ∨ Loaded i s t ∨ Delivered i s t) := by
  have flat8 : (blocks 8 (operand s .din)).flatten.length = s.dinLen := by rw [flatten_blocks (by decide)]; simp
  have flat16 : (blocks 16 (operand s .din)).flatten.length = s.dinLen := by rw [flatten_blocks (by decide)]; simp
  have init {i : Instr} {t : State} (h : Raised s t ∨ Loaded i s t) : Raised s t ∨ Loaded i s t ∨ Delivered i s t := by tauto
  have data {i : Instr} {t : State} (h : Raised s t ∨ Delivered i s t) : Raised s t ∨ Loaded i s t ∨ Delivered i s t := by tauto
  cases i with
  | feiInit =>
    exact ⟨_, rfl, init (initUnit_ends (i := .feiInit) rfl (n := Config.feiKeyBytes) (by decide) (lengths := [Config.feiKeyBytes]) (by decide) loadFei
      (fun key r => ⟨loadFei key r, rfl, rfl⟩) s)⟩
  | spnInit =>
    exact ⟨_, rfl, init (initUnit_ends (i := .spnInit) rfl (n := Config.spnRandomKeyBytes) (by decide) (lengths := Config.spnKeyBytes) (by decide) (loadSpn params)
      (fun key r => ⟨loadSpn params key r, rfl, rfl⟩) s)⟩
  | teaInit =>
    exact ⟨_, rfl, init (initUnit_ends (i := .teaInit) rfl (n := Config.arxKeyBytes) (by decide) (lengths := [Config.arxKeyBytes]) (by decide) loadTea
      (fun key r => ⟨loadTea key r, rfl, rfl⟩) s)⟩
  | xteaInit =>
    exact ⟨_, rfl, init (initUnit_ends (i := .xteaInit) rfl (n := Config.arxKeyBytes) (by decide) (lengths := [Config.arxKeyBytes]) (by decide) loadXtea
      (fun key r => ⟨loadXtea key r, rfl, rfl⟩) s)⟩
  | xxtInit =>
    exact ⟨_, rfl, init (initUnit_ends (i := .xxtInit) rfl (n := Config.arxKeyBytes) (by decide) (lengths := [Config.arxKeyBytes]) (by decide) (loadXxt params)
      (fun key r => ⟨loadXxt params key r, rfl, rfl⟩) s)⟩
  | strInit =>
    exact ⟨_, rfl, init (initUnit_ends (i := .strInit) rfl (n := Config.strKeyBytes) (by decide) (lengths := [Config.strKeyBytes]) (by decide) (loadStr params)
      (fun key r => ⟨loadStr params key r, rfl, rfl⟩) s)⟩
  | feiEncb => exact ⟨_, rfl, data (singleBlock_ends (i := .feiEncb) (by decide) rfl (length_feiE _ _))⟩
  | feiDecb => exact ⟨_, rfl, data (singleBlock_ends (i := .feiDecb) (by decide) rfl (length_feiD _ _))⟩
  | spnEncb => exact ⟨_, rfl, data (singleBlock_ends (i := .spnEncb) (by decide) rfl (length_spnE _ _))⟩
  | spnDecb => exact ⟨_, rfl, data (singleBlock_ends (i := .spnDecb) (by decide) rfl (length_spnD _ _))⟩
  | feiEncEcb => exact ⟨_, rfl, data (blockwise_ends (i := .feiEncEcb) (by decide) rfl (length_feiE _ _))⟩
  | feiDecEcb => exact ⟨_, rfl, data (blockwise_ends (i := .feiDecEcb) (by decide) rfl (length_feiD _ _))⟩
  | teaEnc => exact ⟨_, rfl, data (blockwise_ends (i := .teaEnc) (by decide) rfl (length_teaE _ _))⟩
  | teaDec => exact ⟨_, rfl, data (blockwise_ends (i := .teaDec) (by decide) rfl (length_teaD _ _))⟩
  | xteaEnc => exact ⟨_, rfl, data (blockwise_ends (i := .xteaEnc) (by decide) rfl (length_xteaE _ _))⟩
  | xteaDec => exact ⟨_, rfl, data (blockwise_ends (i := .xteaDec) (by decide) rfl (length_xteaD _ _))⟩
  | feiEncCbc =>
    refine ⟨_, rfl, data (chained_ends (i := .feiEncCbc) (by decide) rfl (n := 8) (by decide) (.inl rfl) fun iv hiv h => ?_)⟩
    rw [length_cbcEnc (length_feiE _ _), length_whole8 (h rfl)]; omega
  | feiDecCbc =>
    refine ⟨_, rfl, data (chained_ends (i := .feiDecCbc) (by decide) rfl (n := 8) (by decide) (.inr ?_) fun iv hiv h => ?_)⟩
    · intro h; simp only [ivAcceptedDec, beq_iff_eq, Config.feiIvBytes] at h; omega
    · rw [length_cbcDec (length_feiD _ _) _ _ hiv (length_of_mem_blocks (by decide) (by simpa using h rfl)),
        length_whole8 (h rfl)]; omega
  | feiEncCfb =>
    refine ⟨_, rfl, data (chained_ends (i := .feiEncCfb) (by decide) rfl (n := 8) (by decide) (.inl rfl) fun iv hiv h => ?_)⟩
    rw [length_cfbEnc (length_feiE _ _) _ _ length_le_of_mem_blocks, flat8]; omega
  | feiDecCfb =>
    refine ⟨_, rfl, data (chained_ends (i := .feiDecCfb) (by decide) rfl (n := 8) (by decide) (.inr ?_) fun iv hiv h => ?_)⟩
    · intro h; simp only [ivAcceptedDec, beq_iff_eq, Config.feiIvBytes] at h; omega
    · rw [length_cfbDec (length_feiE _ _) _ _ length_le_of_mem_blocks, flat8]; omega
  | feiEncCtr =>
    refine ⟨_, rfl, data (chained_ends (i := .feiEncCtr) (by decide) rfl (n := 4) (by decide) (.inl rfl) fun iv hiv h => ?_)⟩
    rw [length_ctrMode (length_feiE _ _) _ _ _ length_le_of_mem_blocks, flat8]; omega
  | feiDecCtr =>
    refine ⟨_, rfl, data (chained_ends (i := .feiDecCtr) (by decide) rfl (n := 4) (by decide) (.inr ?_) fun iv hiv h => ?_)⟩
    · intro h; simp only [ivAcceptedDec, beq_iff_eq, Config.feiNonceBytes] at h; omega
    · rw [length_ctrMode (length_feiE _ _) _ _ _ length_le_of_mem_blocks, flat8]; omega
  | spnEncEcb =>
    refine ⟨_, rfl, data ?_⟩
    unfold spnEncEcb
    split
    · exact .inl ⟨_, rfl⟩
    · rename_i hk
      refine .inr ⟨by decide, by simpa [keyedFlag, Instr.form] using hk, _, s, ?_, .inl rfl, rfl⟩
      rw [length_ecb (length_spnE _ _), length_blocks, blockCount_of_dvd (by decide) (length_pad16_mod _), length_pad16]
      simp; omega
  | spnDecEcb =>
    refine ⟨_, rfl, data ?_⟩
    unfold spnDecEcb
    split
    · exact .inl ⟨_, rfl⟩
    · rename_i hk
      split
      · exact .inl ⟨_, rfl⟩
      · split
        · exact .inl ⟨_, rfl⟩
        · rename_i p hp
          have hp := length_unpad16_le hp
          rw [length_ecb (length_spnD _ _), length_blocks, blockCount, length_operand, lenOf_din] at hp
          exact .inr ⟨by decide, by simpa [keyedFlag, Instr.form] using hk, _, s, by simp only [Config.spnBlockBytes] at hp; omega,
            .inl rfl, rfl⟩
  | spnEncCbc =>
    refine ⟨_, rfl, data ?_⟩
    unfold spnEncCbc
    split
    · exact .inl ⟨_, rfl⟩
    · rename_i hk
      split
      · exact .inl ⟨_, rfl⟩
      · refine .inr ⟨by decide, by simpa [keyedFlag, Instr.form] using hk, _, resolveOperand .iv 16 s, ?_,
          .inr (.inl ⟨rfl, 16, by decide, rfl⟩), rfl⟩
        rw [List.length_append, length_cbcEnc (length_spnE _ _), length_blocks, blockCount_of_dvd (by decide) (length_pad16_mod _),
          length_pad16]
        simp [Config.spnIvBytes]; omega
  | spnDecCbc =>
    refine ⟨_, rfl, data ?_⟩
    unfold spnDecCbc
    split
    · exact .inl ⟨_, rfl⟩
    · rename_i hk
      split
      · exact .inl ⟨_, rfl⟩
      · rename_i hl
        simp only
        split
        · exact .inl ⟨_, rfl⟩
        · rename_i p hp
          have hp := length_unpad16_le hp
          simp only [Config.spnBlockBytes, Config.spnIvBytes] at hl hp
          have hd : ((operand s .din).drop 16).length % 16 = 0 := by simp at hl ⊢; omega
          rw [length_cbcDec (length_spnD _ _) _ _ (length_memRead _ _ _ _) (length_of_mem_blocks (by decide) hd),
            length_blocks, blockCount_of_dvd (by decide) hd] at hp
          exact .inr ⟨by decide, by simpa [keyedFlag, Instr.form] using hk, _, _, by simp at hp; omega,
            .inr (.inr (.inl ⟨rfl, _, length_memRead _ _ _ _, rfl⟩)), rfl⟩
  | xxtEnc =>
    refine ⟨_, rfl, data ?_⟩
    unfold xxtEnc
    split
    · exact .inl ⟨_, rfl⟩
    · rename_i hk
      refine .inr ⟨by decide, by simpa [keyedFlag, Instr.form] using hk, _, s, ?_, .inl rfl, rfl⟩
      rw [length_xxtE, length_xxtPad]
      simp; omega
  | xxtDec =>
    refine ⟨_, rfl, data ?_⟩
    unfold xxtDec
    split
    · exact .inl ⟨_, rfl⟩
    · rename_i hk
      split
      · exact .inl ⟨_, rfl⟩
      · refine .inr ⟨by decide, by simpa [keyedFlag, Instr.form] using hk, _, s, ?_, .inl rfl, rfl⟩
        rw [length_xxtD]
        simp; omega
  | strEnc =>
    refine ⟨_, rfl, data ?_⟩
    unfold strEnc strApply
    split
    · exact .inl ⟨_, rfl⟩
    · rename_i hk
      refine .inr ⟨by decide, by simpa [keyedFlag, Instr.form] using hk, _, _, ?_, .inr (.inr (.inr ⟨rfl, _, rfl⟩)), rfl⟩
      rw [length_strCrypt _ _ _ length_le_of_mem_blocks, flat16]; omega
  | strDec =>
    refine ⟨_, rfl, data ?_⟩
    unfold strDec strApply
    split
    · exact .inl ⟨_, rfl⟩
    · rename_i hk
      refine .inr ⟨by decide, by simpa [keyedFlag, Instr.form] using hk, _, _, ?_, .inr (.inr (.inr ⟨rfl, _, rfl⟩)), rfl⟩
      rw [length_strCrypt _ _ _ length_le_of_mem_blocks, flat16]; omega
  | strKsb =>
    refine ⟨_, rfl, data ?_⟩
    unfold strKsb
    split
    · exact .inl ⟨_, rfl⟩
    · rename_i hk
      exact .inr ⟨by decide, by simpa [keyedFlag, Instr.form] using hk, _, _, by simp, .inr (.inr (.inr ⟨rfl, _, rfl⟩)), rfl⟩

/-- What a command can do, from its outcome. -/
theorem exec_cases {i : Instr} {s t : State} (h : exec i s = .next t) : Raised s t ∨ Loaded i s t ∨ Delivered i s t := by
  obtain ⟨u, hu, hc⟩ := exec_ends i s
  rw [h] at hu
  cases hu
  exact hc

end Sys2Proof.Machine
end

