-- ==== Sys2Proof/Laws/Host.lean ====
section
/-! SUPPORT. What a host access reaches and what a step does with it (10 R37, 20 R73, R78), said once. -/

namespace Sys2Proof.Machine

open Config (Params)

/-! ## The step -/

theorem step_nil {s : State} (h : s.pending = []) : step s = .next s := by
  unfold step
  rw [h]

theorem step_cons {s : State} {i : Input} {rest : List Input} (h : s.pending = i :: rest) :
    step s = applyInput params i { s with pending := rest } := by
  unfold step
  rw [h]

/-! ## The map -/

theorem coveredOffsets_byte (a : Nat) : coveredOffsets .byte a = [a] := rfl
theorem coveredOffsets_half (a : Nat) : coveredOffsets .half a = [a, a + 1] := rfl
theorem coveredOffsets_word (a : Nat) : coveredOffsets .word a = [a, a + 1, a + 2, a + 3] := rfl

/-- A register at its offset. -/
theorem targetOf_register (P : Params) (r : Register) : targetOf P .word (registerOffset r) = .register r := by
  cases r <;> rfl

theorem regionOf_key (P : Params) {o : Nat} (h : o < 64) : regionOf P (0x40 + o) = .buffer .key o := by
  unfold regionOf
  rw [if_neg (by omega), if_pos (by omega), Nat.add_sub_cancel_left]

theorem regionOf_iv (P : Params) {o : Nat} (h : o < 32) : regionOf P (0x80 + o) = .buffer .iv o := by
  unfold regionOf
  rw [if_neg (by omega), if_neg (by omega), if_pos (by omega), Nat.add_sub_cancel_left]

theorem regionOf_din (P : Params) {o : Nat} (h : o < P.bufCap) : regionOf P (0x10000 + o) = .buffer .din o := by
  have := P.bufCap_le
  unfold regionOf
  rw [if_neg (by omega), if_neg (by omega), if_neg (by omega), if_neg (by omega), if_pos (by omega), Nat.add_sub_cancel_left,
    if_pos h]

theorem regionOf_dout (P : Params) {o : Nat} (h : o < P.bufCap + 32) : regionOf P (0x20000 + o) = .buffer .dout o := by
  have := P.bufCap_le
  unfold regionOf
  rw [if_neg (by omega), if_neg (by omega), if_neg (by omega), if_neg (by omega), if_neg (by omega), if_pos (by omega),
    Nat.add_sub_cancel_left, if_pos h]

/-- A buffer byte at its offset. -/
theorem regionOf_bufferOffset (P : Params) (sp : Space) {o : Nat} (h : o < capOf P sp) :
    regionOf P (bufferOffset sp + o) = .buffer sp o := by
  cases sp
  · exact regionOf_key P h
  · exact regionOf_iv P h
  · exact regionOf_din P h
  · exact regionOf_dout P h

/-- A byte access goes where its one offset lies. -/
theorem targetOf_byte (P : Params) (a : Nat) : targetOf P .byte a =
    match regionOf P a with
    | .register _ => .unsupported
    | .buffer sp o => .buffer sp o
    | .aboveBuffer | .reserved => .reserved
    | .outside => .unsupported := by
  unfold targetOf
  rw [coveredOffsets_byte]
  cases h : regionOf P a <;> simp [h, registerAccessOk, bufferAccessOk]

/-- A buffer byte, as a target. -/
theorem targetOf_bufferOffset (P : Params) (sp : Space) {o : Nat} (h : o < capOf P sp) :
    targetOf P .byte (bufferOffset sp + o) = .buffer sp o := by
  rw [targetOf_byte, regionOf_bufferOffset P sp h]

/-- The reserved offsets of 10 R37 in no buffer window. -/
theorem regionOf_reserved (P : Params) {a : Nat} (h : (0x18 ≤ a ∧ a < 0x40) ∨ (0xA0 ≤ a ∧ a < 0x10000)) :
    regionOf P a = .reserved := by
  unfold regionOf
  by_cases h0 : a < 0x40
  · rw [if_pos h0]
    have h6 : 6 ≤ a / 4 := by omega
    obtain ⟨d, hd⟩ := Nat.exists_eq_add_of_le h6
    rw [hd, Nat.add_comm]
    rfl
  · rw [if_neg h0, if_neg (by omega), if_neg (by omega), if_pos (by omega)]

/-- The reserved offsets of the two windows of 10 R37. -/
theorem regionOf_aboveBuffer (P : Params) {a : Nat} (h : (0x10000 + P.bufCap ≤ a ∧ a < 0x20000) ∨
    (0x20000 + P.bufCap + 32 ≤ a ∧ a < 0x30000)) : regionOf P a = .aboveBuffer := by
  unfold regionOf
  rw [if_neg (by omega), if_neg (by omega), if_neg (by omega), if_neg (by omega)]
  by_cases h2 : a < 0x20000
  · rw [if_pos h2, if_neg (by omega)]
  · rw [if_neg h2, if_pos (by omega), if_neg (by simp only [Config.doutExtra]; omega)]

/-- The offsets in no window of the map. -/
theorem regionOf_outside (P : Params) {a : Nat} (h : 0x30000 ≤ a) : regionOf P a = .outside := by
  unfold regionOf
  rw [if_neg (by omega), if_neg (by omega), if_neg (by omega), if_neg (by omega), if_neg (by omega), if_neg (by omega)]

/-- An offset of a buffer or of its window is no other reserved offset. -/
theorem regionOf_window_ne_reserved (P : Params) {a : Nat} (h : (0x40 ≤ a ∧ a < 0xA0) ∨ 0x10000 ≤ a) : regionOf P a ≠ .reserved := by
  unfold regionOf
  rw [if_neg (by omega)]
  repeat' split
  all_goals first | omega | exact Region.noConfusion

/-- An access that covers reserved offsets in no window, and nothing else. -/
theorem targetOf_reserved (P : Params) {size : AccessSize} {a : Nat} (h : (0x18 ≤ a ∧ a + size.bytes ≤ 0x40) ∨
    (0xA0 ≤ a ∧ a + size.bytes ≤ 0x10000)) : targetOf P size a = .reserved := by
  unfold targetOf
  refine if_pos (List.all_eq_true.2 fun b hb => ?_)
  obtain ⟨k, hk, rfl⟩ := List.mem_map.1 hb
  have := List.mem_range.1 hk
  exact decide_eq_true (regionOf_reserved P (by omega))

/-- A byte access to a reserved offset of a window. -/
theorem targetOf_aboveBuffer (P : Params) {a : Nat} (h : (0x10000 + P.bufCap ≤ a ∧ a < 0x20000) ∨
    (0x20000 + P.bufCap + 32 ≤ a ∧ a < 0x30000)) : targetOf P .byte a = .reserved := by
  rw [targetOf_byte, regionOf_aboveBuffer P h]

/-- 20 R73: an access wider than one byte that touches a buffer, its window, or what lies above the map. -/
theorem targetOf_wide (P : Params) {size : AccessSize} {a : Nat} (hs : size ≠ .byte)
    (h : ∃ k < size.bytes, (0x40 ≤ a + k ∧ a + k < 0xA0) ∨ 0x10000 ≤ a + k) : targetOf P size a = .unsupported := by
  obtain ⟨k, hk, hw⟩ := h
  have hb : size.bytes ≤ 4 := by cases size <;> decide
  unfold targetOf
  rw [if_neg]
  · split
    · rename_i r hr
      refine if_neg fun hok => ?_
      simp only [registerAccessOk, Bool.and_eq_true, beq_iff_eq] at hok
      have hlt : a < 0x40 := by
        by_contra hn
        unfold regionOf at hr
        rw [if_neg hn] at hr
        repeat' split at hr
        all_goals cases hr
      have hd : a = 0x3C := by omega
      omega
    · exact if_neg (by simp [bufferAccessOk, hs])
    · exact if_neg (by simp [bufferAccessOk, hs])
    · rfl
    · rfl
  · intro hall
    have hmem : a + k ∈ coveredOffsets size a := List.mem_map.2 ⟨k, List.mem_range.2 hk, rfl⟩
    exact regionOf_window_ne_reserved P hw (of_decide_eq_true (List.all_eq_true.1 hall _ hmem))

/-- 20 R73: a narrower or misaligned access to a control register. -/
theorem targetOf_register_unsupported (P : Params) {size : AccessSize} {a : Nat} (ha : a < 0x18)
    (h : size ≠ .word ∨ a % 4 ≠ 0) : targetOf P size a = .unsupported := by
  have hr : ∃ r, regionOf P a = .register r := by
    unfold regionOf
    rw [if_pos (by omega)]
    have hq : a / 4 < 6 := by omega
    rcases hd : a / 4 with _ | _ | _ | _ | _ | _ | d
    all_goals first | exact ⟨_, rfl⟩ | omega
  obtain ⟨r, hr⟩ := hr
  have hmem : a ∈ coveredOffsets size a := List.mem_map.2 ⟨0, List.mem_range.2 (by cases size <;> decide), rfl⟩
  unfold targetOf
  rw [if_neg, hr]
  · refine if_neg fun hok => ?_
    simp only [registerAccessOk, Bool.and_eq_true, beq_iff_eq] at hok
    exact h.elim (fun h => h hok.1) fun h => h hok.2
  · intro hall
    have := of_decide_eq_true (List.all_eq_true.1 hall _ hmem)
    rw [hr] at this
    cases this

/-- An access that starts in no window of the map. -/
theorem targetOf_outside (P : Params) (size : AccessSize) {a : Nat} (h : 0x30000 ≤ a) : targetOf P size a = .unsupported := by
  have hmem : a ∈ coveredOffsets size a := List.mem_map.2 ⟨0, List.mem_range.2 (by cases size <;> decide), rfl⟩
  unfold targetOf
  rw [if_neg, regionOf_outside P h]
  intro hall
  exact regionOf_window_ne_reserved P (.inr (by omega)) (of_decide_eq_true (List.all_eq_true.1 hall _ hmem))

/-! ## The accesses of the host's software -/

/-- "Read register r". -/
theorem applyInput_readReg (P : Params) (r : Register) (s : State) :
    applyInput P (readReg r) s = .next (respond (registerValue s r) s) := by
  simp only [applyInput, readReg, hostRead, targetOf_register]

/-- "Write register r with v". -/
theorem applyInput_writeReg (P : Params) (r : Register) (v : Word) (s : State) :
    applyInput P (writeReg r v) s = writeRegister P r v (noResponse s) := by
  simp only [applyInput, writeReg, hostWrite, targetOf_register]

/-- "Read byte o of space S". -/
theorem applyInput_readByte (P : Params) (sp : Space) {o : Nat} (h : o < capOf P sp) (s : State) :
    applyInput P (readByte sp o) s = .next (readBufferByte sp o s) := by
  simp only [applyInput, readByte, hostRead, targetOf_bufferOffset P sp h]

/-- "Write byte o of space S with b". -/
theorem applyInput_writeByte (P : Params) (sp : Space) {o : Nat} (h : o < capOf P sp) (b : Byte) (s : State) :
    applyInput P (writeByte sp o b) s = .next (writeBufferByte sp o b (noResponse s)) := by
  simp only [applyInput, writeByte, hostWrite, targetOf_bufferOffset P sp h]
  congr 2
  apply BitVec.eq_of_toNat_eq
  simp

/-- The write to `CMD` of a word that decodes. -/
theorem writeCommand_ok {w : Word} {i : Instr} (h : decode w = .ok i) (s : State) : writeCommand w s = exec i { s with cmd := w } := by
  simp only [writeCommand, h]

/-- The write to `CMD` of a word that does not. -/
theorem writeCommand_error {w : Word} {e : Illegal} (h : decode w = .error e) (s : State) :
    writeCommand w s = .next (raise .illegalCommand { s with cmd := w }) := by
  simp only [writeCommand, h]

/-! ## What an access can do -/

/-- What a host read that completes leaves: a response, and perhaps one more stale read. -/
theorem hostRead_cases {P : Params} {size : AccessSize} {a : Nat} {s t : State} (h : hostRead P size a s = .next t) :
    ∃ v n, t = { s with response := some v, staleReads := n } := by
  unfold hostRead at h
  split at h
  · cases h; exact ⟨_, s.staleReads, rfl⟩
  · cases h
    unfold readBufferByte
    split
    · exact ⟨_, _, rfl⟩
    · exact ⟨_, s.staleReads, rfl⟩
  · cases h; exact ⟨_, s.staleReads, rfl⟩
  · cases h

/-- What a host write that completes can be: the write to `CMD`; or a write that is ignored, of a length, or of a buffer byte. -/
theorem hostWrite_cases {P : Params} {size : AccessSize} {a : Nat} {v : Word} {s t : State} (h : hostWrite P size a v s = .next t) :
    (size = .word ∧ a = 0 ∧ writeCommand v (noResponse s) = .next t) ∨ t = noResponse s ∨
    (∃ sp, sp ≠ .dout ∧ v.toNat ≤ capOf P sp ∧ t = setLen (noResponse s) sp v.toNat) ∨
    ∃ sp o b, sp ≠ .dout ∧ o < capOf P sp ∧ t = memWrite (noResponse s) sp o [b] := by
  have region : ∀ a, (∀ r, regionOf P a = .register r → a < 0x18 ∧ (r = .cmd → a < 4)) ∧
      ∀ sp o, regionOf P a = .buffer sp o → o < capOf P sp := by
    intro a
    unfold regionOf
    constructor
    · intro r hr
      split at hr
      · have h6 : a / 4 < 6 ∧ (r = .cmd → a / 4 < 1) := by
          rcases hq : a / 4 with _ | _ | _ | _ | _ | _ | q <;> rw [hq] at hr <;> simp_all [registerOfNumber]
          all_goals cases hr; simp
        exact ⟨by omega, fun hc => by have := h6.2 hc; omega⟩
      · repeat' split at hr
        all_goals cases hr
    · intro sp o ho
      split at ho
      · split at ho <;> cases ho
      · repeat' split at ho
        all_goals first | (cases ho; simp only [capOf, Config.keyCap, Config.ivCap, Config.doutExtra] at *; omega) | cases ho
  have len : ∀ (sp : Space) (u : State), writeLength P sp v u = u ∨
      (sp ≠ .dout ∧ v.toNat ≤ capOf P sp ∧ writeLength P sp v u = setLen u sp v.toNat) := by
    intro sp u
    unfold writeLength
    split
    · rename_i hc
      refine .inr ⟨?_, hc.2, rfl⟩
      rintro rfl
      cases hc.1
    · exact .inl rfl
  have lenCase : ∀ sp : Space, Host.Outcome.next (writeLength P sp v (noResponse s)) = (Host.Outcome.next t : Outcome) →
      t = noResponse s ∨ ∃ sp, sp ≠ .dout ∧ v.toNat ≤ capOf P sp ∧ t = setLen (noResponse s) sp v.toNat := by
    intro sp hn
    cases hn
    rcases len sp (noResponse s) with hl | ⟨h1, h2, h3⟩
    · exact .inl hl
    · exact .inr ⟨sp, h1, h2, h3⟩
  unfold hostWrite at h
  split at h
  · rename_i r hr
    unfold writeRegister at h
    split at h
    · refine .inl ?_
      have hs : size = .word ∧ a = 0 := by
        unfold targetOf at hr
        split at hr
        · cases hr
        · split at hr
          · rename_i r' hr'
            have := (region a).1 _ hr'
            split at hr
            · rename_i hok
              simp only [registerAccessOk, Bool.and_eq_true, beq_iff_eq] at hok
              cases hr
              have := this.2 rfl
              exact ⟨hok.1, by omega⟩
            · cases hr
          · split at hr <;> cases hr
          · split at hr <;> cases hr
          · cases hr
          · cases hr
      exact ⟨hs.1, hs.2, h⟩
    · cases h; exact .inr (.inl rfl)
    · rcases lenCase _ h with h | h
      · exact .inr (.inl h)
      · exact .inr (.inr (.inl h))
    · rcases lenCase _ h with h | h
      · exact .inr (.inl h)
      · exact .inr (.inr (.inl h))
    · rcases lenCase _ h with h | h
      · exact .inr (.inl h)
      · exact .inr (.inr (.inl h))
    · rcases lenCase _ h with h | h
      · exact .inr (.inl h)
      · exact .inr (.inr (.inl h))
  · rename_i sp o ho
    cases h
    unfold writeBufferByte
    split
    · rename_i hw
      refine .inr (.inr (.inr ⟨sp, o, _, ?_, ?_, rfl⟩))
      · rintro rfl; cases hw
      · unfold targetOf at ho
        split at ho
        · cases ho
        · split at ho
          · split at ho <;> cases ho
          · rename_i sp' o' hr'
            have := (region a).2 _ _ hr'
            split at ho
            · cases ho; exact this
            · cases ho
          · split at ho <;> cases ho
          · cases ho
          · cases ho
    · exact .inr (.inl rfl)
  · cases h; exact .inr (.inl rfl)
  · cases h

/-- What a host access that completes can do, its own place in the order apart: answer a read, nothing, set a length, set a buffer
byte, or be the write to `CMD` that raises `IllegalCommand` or runs a command. -/
def AccessEnds (a : HostAccess) (s t : State) : Prop :=
  (∃ v n, t = { s with response := some v, staleReads := n }) ∨ t = noResponse s ∨
  (∃ sp n, sp ≠ .dout ∧ n ≤ capOf params sp ∧ t = setLen (noResponse s) sp n) ∨
  (∃ sp o b, sp ≠ .dout ∧ o < capOf params sp ∧ t = memWrite (noResponse s) sp o [b]) ∨
  ∃ w, a = .write .word 0 w ∧ ((∃ e, decode w = .error e ∧ t = raise .illegalCommand { s with response := none, cmd := w }) ∨
    ∃ i, decode w = .ok i ∧ exec i { s with response := none, cmd := w } = .next t)

/-- What a step that answers a next state can have done: waited, been reset, or taken one host access. -/
theorem step_cases {s t : State} (h : step s = .next t) :
    (s.pending = [] ∧ t = s) ∨ (∃ rest, s.pending = .reset :: rest ∧ t = applyReset { s with pending := rest }) ∨
    ∃ rest a, s.pending = .access a :: rest ∧ AccessEnds a { s with pending := rest } t := by
  rcases hp : s.pending with _ | ⟨i, rest⟩
  · rw [step_nil hp] at h
    cases h
    exact .inl ⟨rfl, rfl⟩
  · rw [step_cons hp] at h
    cases i with
    | reset =>
      cases h
      exact .inr (.inl ⟨rest, rfl, rfl⟩)
    | access a =>
      refine .inr (.inr ⟨rest, a, rfl, ?_⟩)
      cases a with
      | read size o => exact .inl (hostRead_cases h)
      | write size o v =>
        rcases hostWrite_cases h with ⟨rfl, rfl, h1⟩ | h1 | ⟨sp, h1, h2, h3⟩ | h1
        · refine .inr (.inr (.inr (.inr ⟨v, rfl, ?_⟩)))
          unfold writeCommand at h1
          split at h1
          · rename_i i hi
            exact .inr ⟨i, hi, h1⟩
          · rename_i e he
            cases h1
            exact .inl ⟨e, he, rfl⟩
        · exact .inr (.inl h1)
        · exact .inr (.inr (.inl ⟨sp, _, h1, h2, h3⟩))
        · exact .inr (.inr (.inr (.inl h1)))

/-! ## Runs -/

/-- No step. -/
theorem core_run_zero (s : State) : core.run 0 s = .next s := rfl

/-- A step that answers a next state, then the rest of the run. -/
theorem core_run_next {s t : State} (h : step s = .next t) (k : Nat) : core.run (k + 1) s = core.run k t := by
  simp only [Host.Core.run]
  rw [show core.step s = .next t from h]

theorem core_run_fault {s : State} {r : Fault} (h : step s = .fault r) (k : Nat) : core.run (k + 1) s = .fault r := by
  simp only [Host.Core.run]
  rw [show core.step s = .fault r from h]

theorem core_run_refused {s : State} {r : Refusal} (h : step s = .refused r) (k : Nat) : core.run (k + 1) s = .refused r := by
  simp only [Host.Core.run]
  rw [show core.step s = .refused r from h]

/-- A run is a run and then the rest of it. -/
theorem core_run_append (n m : Nat) {s t : State} (h : core.run n s = .next t) : core.run (n + m) s = core.run m t := by
  induction n generalizing s with
  | zero => cases h; rw [Nat.zero_add]
  | succ n ih =>
    rw [show n + 1 + m = n + m + 1 by omega]
    cases hs : step s with
    | next u => rw [core_run_next hs] at h ⊢; exact ih h
    | fault r => rw [core_run_fault hs] at h; cases h
    | refused r => rw [core_run_refused hs] at h; cases h

end Sys2Proof.Machine
end

