-- ==== Sys2Proof/Laws/PerInstr.lean ====
section
/-! SUPPORT. Per command: its encoded word holds the parts of its mnemonic in the four fields of 30 R100, and those parts name it. -/

namespace Sys2Proof.Laws

/-- The parts of a command are a command, name it alone, and stand in the fields of its word. -/
def Encoding.Statement (i : Instr) : Prop :=
  i.wellFormed = true ∧ instrOfForm i.form = some i ∧ zeroField (encode i) = 0 ∧ unitField (encode i) = i.form.unit.code ∧
  opField (encode i) = i.form.op.code ∧ modeField (encode i) = i.form.mode.code

theorem Encoding.feiInit : Encoding.Statement .feiInit := by unfold Encoding.Statement; decide
theorem Encoding.feiEncb : Encoding.Statement .feiEncb := by unfold Encoding.Statement; decide
theorem Encoding.feiDecb : Encoding.Statement .feiDecb := by unfold Encoding.Statement; decide
theorem Encoding.feiEncEcb : Encoding.Statement .feiEncEcb := by unfold Encoding.Statement; decide
theorem Encoding.feiEncCbc : Encoding.Statement .feiEncCbc := by unfold Encoding.Statement; decide
theorem Encoding.feiEncCfb : Encoding.Statement .feiEncCfb := by unfold Encoding.Statement; decide
theorem Encoding.feiEncCtr : Encoding.Statement .feiEncCtr := by unfold Encoding.Statement; decide
theorem Encoding.feiDecEcb : Encoding.Statement .feiDecEcb := by unfold Encoding.Statement; decide
theorem Encoding.feiDecCbc : Encoding.Statement .feiDecCbc := by unfold Encoding.Statement; decide
theorem Encoding.feiDecCfb : Encoding.Statement .feiDecCfb := by unfold Encoding.Statement; decide
theorem Encoding.feiDecCtr : Encoding.Statement .feiDecCtr := by unfold Encoding.Statement; decide
theorem Encoding.spnInit : Encoding.Statement .spnInit := by unfold Encoding.Statement; decide
theorem Encoding.spnEncb : Encoding.Statement .spnEncb := by unfold Encoding.Statement; decide
theorem Encoding.spnDecb : Encoding.Statement .spnDecb := by unfold Encoding.Statement; decide
theorem Encoding.spnEncEcb : Encoding.Statement .spnEncEcb := by unfold Encoding.Statement; decide
theorem Encoding.spnEncCbc : Encoding.Statement .spnEncCbc := by unfold Encoding.Statement; decide
theorem Encoding.spnDecEcb : Encoding.Statement .spnDecEcb := by unfold Encoding.Statement; decide
theorem Encoding.spnDecCbc : Encoding.Statement .spnDecCbc := by unfold Encoding.Statement; decide
theorem Encoding.teaInit : Encoding.Statement .teaInit := by unfold Encoding.Statement; decide
theorem Encoding.teaEnc : Encoding.Statement .teaEnc := by unfold Encoding.Statement; decide
theorem Encoding.teaDec : Encoding.Statement .teaDec := by unfold Encoding.Statement; decide
theorem Encoding.xteaInit : Encoding.Statement .xteaInit := by unfold Encoding.Statement; decide
theorem Encoding.xteaEnc : Encoding.Statement .xteaEnc := by unfold Encoding.Statement; decide
theorem Encoding.xteaDec : Encoding.Statement .xteaDec := by unfold Encoding.Statement; decide
theorem Encoding.xxtInit : Encoding.Statement .xxtInit := by unfold Encoding.Statement; decide
theorem Encoding.xxtEnc : Encoding.Statement .xxtEnc := by unfold Encoding.Statement; decide
theorem Encoding.xxtDec : Encoding.Statement .xxtDec := by unfold Encoding.Statement; decide
theorem Encoding.strInit : Encoding.Statement .strInit := by unfold Encoding.Statement; decide
theorem Encoding.strEnc : Encoding.Statement .strEnc := by unfold Encoding.Statement; decide
theorem Encoding.strDec : Encoding.Statement .strDec := by unfold Encoding.Statement; decide
theorem Encoding.strKsb : Encoding.Statement .strKsb := by unfold Encoding.Statement; decide

end Sys2Proof.Laws
end

