-- ==== Sys2Proof/Tests/Slice0.lean ====
section
/-! SUPPORT. The model's own tests. Expected values are those of spec/95_test_vectors.md, named V-…, or worked out from the rule named;
the open tables are instantiated as its section 2 says. The theorems named witness_<statement> show states and operands that meet
the hypotheses of that statement, clause by clause and at the boundaries. -/

namespace Sys2Proof.Tests

-- The kernel evaluates one theorem after another: many at once take too much memory.
set_option Elab.async false

open Sys2Proof Sys2Proof.Machine
open Sys2Proof.Config (Params)

/-! ## Helpers -/

/-- The byte string of `len` bytes written as one hexadecimal number, first byte first. -/
def bytesOf (len n : Nat) : Bytes := (List.range len).map fun i => BitVec.ofNat 8 (n / 256 ^ (len - 1 - i))

/-- The bytes a, a+1, a+2, … -/
def rising (a n : Nat) : Bytes := (List.range n).map fun i => BitVec.ofNat 8 (a + i)

/-- The state a step led to. -/
def after : Outcome → Option State
  | .next t => some t
  | .fault _ => none
  | .refused _ => none

/-- Whether a step was refused, and how. -/
def refusal : Outcome → Option Refusal
  | .next _ => none
  | .fault _ => none
  | .refused r => some r

/-- The code and the output a command left. -/
def result (t : State) : BitVec 4 × Bytes := (t.err, operand t .dout)

/-- Entry v of table j, each table one number of sixteen hexadecimal digits, entry 0 the last digit. -/
def tableEntry (tables : List Nat) (j v : Nat) : Nibble := BitVec.ofNat 4 (tables.getD j 0 / 16 ^ v)

/-- The tables of T-Z. -/
def tablesZ : List Nat :=
  [0x1F307D8E9B5A264C, 0xF0DB74E1C5A93286, 0x069C471EDAF2853B, 0xB9E35A076F4D128C,
   0xC24BE390D618A5F7, 0x0E34187BAC296FD5, 0x73AD0B4FC19652E8, 0x2BC96AF43850DE71]

/-- The tables of T-SER. -/
def tablesSer : List Nat :=
  [0xC90724DEB56A1F83, 0x43D68EB1A50972CF, 0x25B04E1DFAC39768, 0xE57A421D369C8BF0,
   0xD7E9A4526B0C38F1, 0x176D8E30C9A4B25F, 0x0A3DF19EB6485C27, 0x6539AC47B28E0FD1]

/-- Their inverses. -/
def inverseTablesSer : List Nat :=
  [0x289F74E1C56A0B3D, 0x0AD1974B3C6FE285, 0x7A85D63021EB4F9C, 0x1F842C53D6EB7A90,
   0x1DF46BC2E79A3805, 0x0AC7356BED1492F8, 0xB8C27E940635D1AF, 0x241A7BC58FE9D603]

theorem serSbox_left : ∀ (j : Fin 8) (v : Nibble), tableEntry inverseTablesSer j.val (tableEntry tablesSer j.val v.toNat).toNat = v := by
  decide +kernel

theorem serSbox_right : ∀ (j : Fin 8) (v : Nibble), tableEntry tablesSer j.val (tableEntry inverseTablesSer j.val v.toNat).toNat = v := by
  decide +kernel

/-- `SPN_SBOX` of T-SER. -/
def serSbox (j : Fin 8) : Equiv.Perm Nibble where
  toFun v := tableEntry tablesSer j.val v.toNat
  invFun v := tableEntry inverseTablesSer j.val v.toNat
  left_inv v := serSbox_left j v
  right_inv v := serSbox_right j v

/-- `SPN_IP` of T-SER. -/
def serIp : Equiv.Perm (Fin 128) where
  toFun i := ⟨i.val % 4 * 32 + i.val / 4, by omega⟩
  invFun i := ⟨i.val % 32 * 4 + i.val / 32, by omega⟩
  left_inv i := Fin.ext (show (i.val % 4 * 32 + i.val / 4) % 32 * 4 + (i.val % 4 * 32 + i.val / 4) / 32 = i.val by omega)
  right_inv i := Fin.ext (show (i.val % 32 * 4 + i.val / 32) % 4 * 32 + (i.val % 32 * 4 + i.val / 32) / 4 = i.val by omega)

/-- T-ID. -/
def paramsId : Params := { params with feiSbox := fun _ v => v }

/-- T-Z. -/
def paramsZ : Params := { params with feiSbox := fun j v => tableEntry tablesZ j.val v.toNat }

/-- T-SER. -/
def paramsSer : Params := { params with spnSbox := serSbox, spnIp := serIp, spnLinv := fun x => x }

/-- The reset state with an operand given. -/
def withDin (b : Bytes) (s : State) : State := putOperand .din b s

/-- The reset state, `FEI` keyed. -/
def feiState (key : Bytes) : State := loadFei key State.reset

/-- Round keys 0 to 11 of the key 00 01 … 0F under T-SER; `test_spn_schedule` says that they are. -/
def serKeysA : List (Vector Word 4) :=
  [#v[0x024047d8, 0x95e85f8a, 0x93d612d0, 0x3c800663], #v[0x03aa678d, 0x6c5154d8, 0xcdfbf085, 0x392c9c33], #v[0xf6f774f5, 0xbf4adecc, 0x5297f3a7, 0x62473819],
   #v[0xb1d10368, 0x4b30d3cc, 0x9fdafea2, 0x022c1e61], #v[0xf203c4cf, 0xae1245c7, 0x9e70034b, 0xd5d2418e], #v[0xac492cd1, 0x87f9faca, 0x98ab33ee, 0x50a02b28],
   #v[0x241d9ada, 0x5becce48, 0xb2c7ba27, 0xe47b3f87], #v[0x2ebfcad3, 0xb4a74d12, 0x99d1646f, 0x2aa04f64], #v[0x2dcca39a, 0xaf891078, 0x887040ce, 0xd62841ce],
   #v[0x6342f272, 0xa17de9fe, 0xedd24a3d, 0x9dbef978], #v[0x26bc5395, 0x57ebd7fa, 0xdf46a70f, 0xdcc42ad6], #v[0xcd949479, 0x2d0916af, 0x486b6350, 0xb1f2e731]]

/-- Round keys 12 to 23. -/
def serKeysB : List (Vector Word 4) :=
  [#v[0x311c630e, 0x3e4ca0ae, 0x7784ce85, 0x1bacdaaf], #v[0xb403972b, 0xe6106974, 0x7db4b666, 0x6465f4f6], #v[0xb22dc6e3, 0x94d1b742, 0x08f798ab, 0x3e6dcbee],
   #v[0xecf04d45, 0x1e2ecb5f, 0x13c01435, 0xa0742b95], #v[0x6675ea36, 0x0e4c5370, 0xf45c9ef9, 0xed071d4f], #v[0xa585cc8a, 0x50c6c9be, 0xdb33e074, 0x9ec98099],
   #v[0x747039a1, 0xaffa5a6f, 0x9a48ef56, 0x0d829510], #v[0x60ba6d6e, 0x7e0aca8c, 0x6bc84147, 0x597c0e03], #v[0xb8356437, 0xa5415992, 0xd21d250d, 0xb2be0068],
   #v[0x598317af, 0xe5dc4796, 0x12bd2d9b, 0x439d28b8], #v[0x82903fa6, 0x606bad28, 0x15d00b70, 0xf2673b52], #v[0xf9a38766, 0x5cd96677, 0x7e74ec91, 0x18a62558]]

/-- Round keys 24 to 32. -/
def serKeysC : List (Vector Word 4) :=
  [#v[0x6cf18732, 0x170c731f, 0xf5c76cba, 0x301445d3], #v[0x1c982675, 0x44913650, 0xbd6365ef, 0x1dc56df4], #v[0xdf668c29, 0x57439104, 0x81289636, 0x66aed386],
   #v[0x2fb18807, 0x4a103b39, 0x44d6cb69, 0xe323d008], #v[0xe208b4fa, 0xd8ea20d3, 0x05d2656f, 0x2ebb804a], #v[0x2ba46680, 0xd728adf2, 0xb7b104e5, 0x57d62390],
   #v[0xc12e3e30, 0x0fa0113d, 0x560ecb66, 0xb25fe9ed], #v[0x38bff4ea, 0xbb44ce99, 0xfa3b3f5c, 0x0920ece8], #v[0xb51b87bb, 0x6848db54, 0x4810c6da, 0xe960ced9]]

/-- The 33 round keys. -/
def serKeys : Vector (Vector Word 4) 33 := ⟨(serKeysA ++ serKeysB ++ serKeysC).toArray, rfl⟩

/-- The reset state, `SPN` keyed under T-SER with the key 00 01 … 0F. -/
def spnState : State := { State.reset with spn := { keyed := true, rk := serKeys } }

/-- 32 bytes 30. -/
def key30 : Bytes := List.replicate 32 0x30#8

/-- "testmsg!". -/
def testmsg : Bytes := bytesOf 8 0x746573746D736721

/-- "01234567". -/
def iv01234567 : Bytes := bytesOf 8 0x3031323334353637

/-! ## Commands and their encoding -/

/-- 30 R107: a form that fails each of the two checks, and only that one. -/
theorem smoke_form_checks_refuse :
    [Form.mk .tea .encb .ecb, .mk .fei .ksb .ecb, .mk .str .decb .ecb].map (fun f => (f.opExists, f.modeAllowed, f.wellFormed)) =
      [(false, true, false), (false, true, false), (false, true, false)] ∧
    [Form.mk .spn .enc .cfb, .mk .fei .init .cbc, .mk .str .dec .ctr].map (fun f => (f.opExists, f.modeAllowed, f.wellFormed)) =
      [(true, false, false), (true, false, false), (true, false, false)] := by decide

/-- 20 R73: accesses that fail the checks of width and alignment. -/
theorem smoke_access_checks_refuse :
    registerAccessOk .byte 0 = false ∧ registerAccessOk .half 4 = false ∧ registerAccessOk .word 2 = false ∧
    registerAccessOk .word 8 = true ∧ bufferAccessOk .half = false ∧ bufferAccessOk .word = false ∧ bufferAccessOk .byte = true := by
  decide

/-- 30 R100, R102 to R104: the four fields written out, for `FEI`: UNIT 000. -/
theorem test_decode_fei :
    [0#24 ++ 0b000#3 ++ 0b000#3 ++ 0b00#2, 0#24 ++ 0b000#3 ++ 0b001#3 ++ 0b00#2, 0#24 ++ 0b000#3 ++ 0b010#3 ++ 0b00#2,
     0#24 ++ 0b000#3 ++ 0b011#3 ++ 0b00#2, 0#24 ++ 0b000#3 ++ 0b011#3 ++ 0b01#2, 0#24 ++ 0b000#3 ++ 0b011#3 ++ 0b10#2,
     0#24 ++ 0b000#3 ++ 0b011#3 ++ 0b11#2, 0#24 ++ 0b000#3 ++ 0b100#3 ++ 0b00#2, 0#24 ++ 0b000#3 ++ 0b100#3 ++ 0b01#2,
     0#24 ++ 0b000#3 ++ 0b100#3 ++ 0b10#2, 0#24 ++ 0b000#3 ++ 0b100#3 ++ 0b11#2].map (fun w => (decode w).toOption) =
    [some .feiInit, some .feiEncb, some .feiDecb, some .feiEncEcb, some .feiEncCbc, some .feiEncCfb, some .feiEncCtr,
     some .feiDecEcb, some .feiDecCbc, some .feiDecCfb, some .feiDecCtr] := by decide

/-- `SPN`: UNIT 001. -/
theorem test_decode_spn :
    [0#24 ++ 0b001#3 ++ 0b000#3 ++ 0b00#2, 0#24 ++ 0b001#3 ++ 0b001#3 ++ 0b00#2, 0#24 ++ 0b001#3 ++ 0b010#3 ++ 0b00#2,
     0#24 ++ 0b001#3 ++ 0b011#3 ++ 0b00#2, 0#24 ++ 0b001#3 ++ 0b011#3 ++ 0b01#2, 0#24 ++ 0b001#3 ++ 0b100#3 ++ 0b00#2,
     0#24 ++ 0b001#3 ++ 0b100#3 ++ 0b01#2].map (fun w => (decode w).toOption) =
    [some .spnInit, some .spnEncb, some .spnDecb, some .spnEncEcb, some .spnEncCbc, some .spnDecEcb, some .spnDecCbc] := by decide

/-- `TEA`, `XTEA`, `XXT`: UNIT 010, 011, 100. -/
theorem test_decode_arx :
    [0#24 ++ 0b010#3 ++ 0b000#3 ++ 0b00#2, 0#24 ++ 0b010#3 ++ 0b011#3 ++ 0b00#2, 0#24 ++ 0b010#3 ++ 0b100#3 ++ 0b00#2,
     0#24 ++ 0b011#3 ++ 0b000#3 ++ 0b00#2, 0#24 ++ 0b011#3 ++ 0b011#3 ++ 0b00#2, 0#24 ++ 0b011#3 ++ 0b100#3 ++ 0b00#2,
     0#24 ++ 0b100#3 ++ 0b000#3 ++ 0b00#2, 0#24 ++ 0b100#3 ++ 0b011#3 ++ 0b00#2, 0#24 ++ 0b100#3 ++ 0b100#3 ++ 0b00#2].map
      (fun w => (decode w).toOption) =
    [some .teaInit, some .teaEnc, some .teaDec, some .xteaInit, some .xteaEnc, some .xteaDec, some .xxtInit, some .xxtEnc,
     some .xxtDec] := by decide

/-- `STR`: UNIT 101. -/
theorem test_decode_str :
    [0#24 ++ 0b101#3 ++ 0b000#3 ++ 0b00#2, 0#24 ++ 0b101#3 ++ 0b011#3 ++ 0b00#2, 0#24 ++ 0b101#3 ++ 0b100#3 ++ 0b00#2,
     0#24 ++ 0b101#3 ++ 0b101#3 ++ 0b00#2].map (fun w => (decode w).toOption) =
    [some .strInit, some .strEnc, some .strDec, some .strKsb] := by decide

/-- Why a word was rejected. -/
def illegalCause (w : Word) : Option Illegal :=
  match decode w with
  | .ok _ => none
  | .error c => some c

/-- 30 R107, 95 V-DEC-5 to V-DEC-9, V-STR-7: one word and more for each way a word is no command. -/
theorem test_decode_rejects :
    [0x100#32, 0x8000000C#32, 0xFFFFFFFF#32].map illegalCause = List.replicate 3 (some .zeroField) ∧
    [0xC0#32, 0xE0#32, 0xFF#32].map illegalCause = List.replicate 3 (some .reservedUnit) ∧
    [0x18#32, 0x1C#32, 0xB8#32].map illegalCause = List.replicate 3 (some .reservedOp) ∧
    [0x14#32, 0x44#32, 0x94#32, 0xA4#32].map illegalCause = List.replicate 4 (some .noSuchOperation) ∧
    [0x01#32, 0x05#32, 0x2E#32, 0x2F#32, 0x32#32, 0x4D#32, 0xAD#32].map illegalCause = List.replicate 7 (some .noSuchMode) := by
  decide

/-! ## BitWord primitives: V-BW-1 to V-BW-10 -/

theorem test_rotations :
    rotl 0x12345678#32 11 = 0xA2B3C091#32 ∧ rotl 0x12345678#32 13 = 0x8ACF0246#32 ∧ rotl 0x80000001#32 1 = 3#32 ∧
    rotl 0x12345678#32 0 = 0x12345678#32 ∧ rotl 0x12345678#32 32 = 0x12345678#32 ∧ rotr 1#32 1 = 0x80000000#32 ∧
    rotl 0x8001#16 1 = 3#16 ∧ rotl 0x1234#16 4 = 0x2341#16 := by decide +kernel

theorem test_words :
    0xFFFFFFFF#32 + 1#32 = 0#32 ∧ 0#32 - 1#32 = 0xFFFFFFFF#32 ∧ shl 0x80000001 4 = 0x10#32 ∧ shr 0x80000001 5 = 0x04000000#32 ∧
    be32 [1, 2, 3, 4] = 0x01020304#32 ∧ le32 [1, 2, 3, 4] = 0x04030201#32 ∧ le16 [1, 2] = 0x0201#16 ∧
    toBe32 0x9E3779B9 = [0x9E, 0x37, 0x79, 0xB9] ∧ toLe32 0x9E3779B9 = [0xB9, 0x79, 0x37, 0x9E] := by decide +kernel

/-! ## `FEI` -/

/-- V-FEI-2, V-FEI-3. -/
theorem test_fei_sub_and_f :
    feiSub paramsZ 0 = 0x1857CB6C#32 ∧ feiSub paramsZ 3 = 0x1857CB62#32 ∧ feiSub paramsZ 0x01234567 = 0x1EFADF59#32 ∧
    feiSub paramsZ 0xFEDCBA98 = 0x233B57EE#32 ∧ feiF paramsId 1 2 = 0x1800#32 ∧ feiF paramsId 0xFFFFFFFF 1 = 0#32 ∧
    feiF paramsZ 1 2 = 0xBE5B10C2#32 ∧ feiF paramsZ 0xFFFFFFFF 1 = 0xBE5B60C2#32 := by decide +kernel

/-- V-FEI-5: the halves after rounds 0 and 1, and before the last round. -/
theorem test_fei_rounds :
    let h0 : Word × Word := feiSplit paramsZ (bytesOf 8 0x0123456789ABCDEF)
    let sk := feiSchedule (rising 0 32)
    let h1 := feiEncRound paramsZ (feiRoundKey sk 0) h0
    h1 = (0x89ABCDEF, 0x58A4F743) ∧ feiEncRound paramsZ (feiRoundKey sk 1) h1 = (0x58A4F743, 0xC4672703) ∧
    feiEncRound paramsZ (feiRoundKey sk 24) (0x4F8F13D4, 0xDF0D653C) = (0xDF0D653C, 0xD44A2AD3) ∧
    feiDecRound paramsZ (feiRoundKey sk 31) (0xD617FE4D, 0x22584E6E) = (0xEC052860, 0xD617FE4D) := by decide +kernel

/-- V-FEI-9: both values of `FEI_FINAL_SWAP`. -/
theorem test_fei_final_swap :
    let sk := feiSchedule (bytesOf 32 0xFFEEDDCCBBAA99887766554433221100F0F1F2F3F4F5F6F7F8F9FAFBFCFDFEFF)
    feiE paramsZ sk (bytesOf 8 0xFEDCBA9876543210) = bytesOf 8 0xC2D8CA3D4EE901E5 ∧
    feiE { paramsZ with feiFinalSwap := true } sk (bytesOf 8 0xFEDCBA9876543210) = bytesOf 8 0x4EE901E5C2D8CA3D := by
  decide +kernel

/-- V-FEI-1, V-FEI-10: the subkeys of 00 01 … 1F; 31 and 33 bytes are rejected; an empty key becomes the draw. -/
theorem test_fei_init :
    (after (exec .feiInit (putOperand .key (rising 0 32) State.reset))).map (fun t => (t.fei.keyed, t.fei.sk[0], t.fei.sk[7])) =
      some (true, 0x00010203#32, 0x1C1D1E1F#32) ∧
    [31, 33].map (fun n => (after (exec .feiInit { State.reset with keyLen := n })).map (·.err)) = [some 1, some 1] ∧
    (after (exec .feiInit State.reset)).map (fun t => (t.err, t.keyLen, t.draws)) = some (0, 32, 32) := by
  refine ⟨by decide +kernel, by decide +kernel, rfl⟩

/-- V-FEI-5, V-FEI-8. -/
theorem test_fei_encb :
    result (feiEncb paramsZ (withDin (bytesOf 8 0x0123456789ABCDEF) (feiState (rising 0 32)))) = (0, bytesOf 8 0xD617FE4D22584E6E) ∧
    result (feiEncb paramsId (withDin testmsg (feiState key30))) = (0, bytesOf 8 0xB89801C05BCE16DB) := by decide +kernel

/-- V-FEI-7. -/
theorem test_fei_decb :
    result (feiDecb paramsZ (withDin (bytesOf 8 0x0123456789ABCDEF) (feiState (rising 0 32)))) = (0, bytesOf 8 0x89C4D446D0526E85) ∧
    result (feiDecb paramsId (withDin (bytesOf 8 0x083ABB8014CF9208) (feiState (rising 0 32)))) =
      (0, bytesOf 8 0x0123456789ABCDEF) := by decide +kernel

/-- V-FEI-10, V-FM-11: a block of 7, 9, 16 and 0 bytes; no key. -/
theorem test_fei_block_lengths :
    [7, 9, 16, 0].map (fun n => (after (exec .feiEncb { feiState key30 with dinLen := n })).map (·.err)) =
      [some 2, some 2, some 2, some 2] ∧
    (after (exec .feiDecb { State.reset with dinLen := 8 })).map (·.err) = some 5 := by decide +kernel

/-- V-FM-2. -/
theorem test_fei_enc_ecb :
    result (feiEncEcb paramsZ (withDin (testmsg ++ testmsg) (feiState key30))) = (0, bytesOf 16 0xE9EEB0D76486777DE9EEB0D76486777D) := by
  decide +kernel

/-- V-FM-2, V-FM-10. -/
theorem test_fei_dec_ecb :
    result (feiDecEcb paramsZ (withDin (bytesOf 16 0xE9EEB0D76486777DE9EEB0D76486777D) (feiState key30))) =
      (0, testmsg ++ testmsg) := by decide +kernel

/-- V-FM-4. -/
theorem test_fei_enc_cbc :
    result (feiEncCbc paramsZ (withDin (testmsg ++ testmsg) (putOperand .iv iv01234567 (feiState key30)))) =
      (0, bytesOf 16 0xBF985CE0C8AD0DEA737626A81720DD63) := by decide +kernel

/-- V-FM-10. -/
theorem test_fei_dec_cbc :
    result (feiDecCbc paramsZ (withDin (bytesOf 16 0xBF985CE0C8AD0DEA737626A81720DD63) (putOperand .iv iv01234567 (feiState key30)))) =
      (0, testmsg ++ testmsg) := by decide +kernel

/-- V-FM-5: "hello, world", a short last block. -/
theorem test_fei_enc_cfb :
    result (feiEncCfb paramsId (withDin (bytesOf 12 0x68656C6C6F2C20776F726C64) (putOperand .iv iv01234567 (feiState key30)))) =
      (0, bytesOf 12 0x1CA3EFE66A0C3DE8E742E02C) := by decide +kernel

/-- V-FM-5, V-FM-10. -/
theorem test_fei_dec_cfb :
    result (feiDecCfb paramsId (withDin (bytesOf 12 0x1CA3EFE66A0C3DE8E742E02C) (putOperand .iv iv01234567 (feiState key30)))) =
      (0, bytesOf 12 0x68656C6C6F2C20776F726C64) := by decide +kernel

/-- V-FM-7. -/
theorem test_fei_enc_ctr :
    result (feiEncCtr paramsZ (withDin (bytesOf 12 0x68656C6C6F2C20776F726C64) (putOperand .iv (bytesOf 4 0x30313233) (feiState key30)))) =
      (0, bytesOf 12 0xDFCFAD926BFFE3E676AEF444) := by decide +kernel

/-- V-FM-7, V-FM-10. -/
theorem test_fei_dec_ctr :
    result (feiDecCtr paramsZ (withDin (bytesOf 12 0xDFCFAD926BFFE3E676AEF444) (putOperand .iv (bytesOf 4 0x30313233) (feiState key30)))) =
      (0, bytesOf 12 0x68656C6C6F2C20776F726C64) := by decide +kernel

/-- V-FM-11: the lengths each mode rejects, the length of the IV before that of the message; an empty message is accepted. -/
theorem test_fei_mode_lengths :
    let s (iv n : Nat) : State := { feiState key30 with ivLen := iv, dinLen := n }
    let e (i : Instr) (iv n : Nat) : Option (BitVec 4) := (after (exec i (s iv n))).map (·.err)
    [e .feiEncEcb 0 7, e .feiEncCbc 8 7, e .feiEncCbc 7 7, e .feiEncCbc 16 8, e .feiEncCtr 8 8] =
      [some 2, some 2, some 3, some 3, some 3] ∧
    [e .feiDecCbc 0 8, e .feiDecCfb 0 8, e .feiDecCtr 0 8, e .feiEncCfb 8 0, e .feiDecCbc 8 0] =
      [some 3, some 3, some 3, some 0, some 0] := by decide +kernel

/-! ## `SPN` -/

/-- V-SPN-5. -/
theorem test_spn_components :
    spnL 1 = 0x20AB#32 ∧ spnL 0x80000000 = 0x80001055#32 ∧ spnL 0x12345678 = 0x7190B805#32 ∧ spnL 0xFFFFFFFF = 0#32 ∧
    spnNib paramsSer 0 0x01234567 = 0x38F1A65B#32 ∧ spnNib paramsSer 0 0x89ABCDEF = 0xED42709C#32 ∧
    spnNib paramsSer 7 0x01234567 = 0x1DF0E82B#32 ∧ spnNibInv paramsSer 0 0x38F1A65B = 0x01234567#32 := by decide +kernel

/-- V-SPN-5: the bit permutations under T-SER. -/
theorem test_spn_perm :
    permBits serIp (bytesOf 16 (2 * 256 ^ 15)) = bytesOf 16 (0x10 * 256 ^ 15) ∧ permBits serIp (bytesOf 16 0x80) = bytesOf 16 0x80 ∧
    permBits serIp.symm (bytesOf 16 (0x10 * 256 ^ 15)) = bytesOf 16 (2 * 256 ^ 15) := by decide +kernel

/-- V-SPN-1: the padded key and prekey words. -/
theorem test_spn_prekeys :
    spnPadKey (rising 0 16) = rising 0 16 ++ [1] ++ List.replicate 15 0 ∧
    ((spnPrekeys (spnPadKey (rising 0 24))).drop 4).take 8 =
      [0x13121110, 0x17161514, 1, 0, 0x6B050C29, 0x330C2709, 0x3A157589, 0x4868BE01] := by decide +kernel

/-- V-SPN-2: round keys 0 and 32 of the zero key, and round key 0 of a short key, in the context `SPN.INIT` loads. -/
theorem test_spn_init :
    let k (key : Bytes) (n : Fin 33) : List Word := ((spnInit paramsSer (putOperand .key key State.reset)).spn.rk[n]).toList
    k (List.replicate 32 0) 0 = [0x227077C8, 0x0644ADFC, 0x9DEA4F67, 0xC32E2951] ∧
    k (List.replicate 32 0) 32 = [0x02A4D6EC, 0x4CA868F9, 0xAC655F06, 0xD329C1B0] ∧
    k (rising 0 24) 0 = [0x523637FD, 0x1137FB3D, 0x1486B6ED, 0xAE5E2938] := by decide +kernel

/-- The round keys the tests below use; the first is V-SPN-2's, and V-SPN-4 to V-SPN-11 rest on all of them. -/
theorem test_spn_schedule :
    spnSchedule paramsSer (rising 0 16) = serKeys ∧ serKeys[0].toList = [0x024047D8, 0x95E85F8A, 0x93D612D0, 0x3C800663] := by
  decide +kernel

/-- V-SPN-12: key lengths. -/
theorem test_spn_init_lengths :
    [15, 17, 20, 31, 33].map (fun n => (after (exec .spnInit { State.reset with keyLen := n })).map (·.err)) =
      List.replicate 5 (some 1) := by decide +kernel

/-- V-SPN-4. -/
theorem test_spn_encb :
    result (spnEncb paramsSer (withDin (rising 0x10 16) spnState)) = (0, bytesOf 16 0x8EABE9AB0881FBE2EFF868644CB20DE0) := by
  decide +kernel

/-- V-SPN-7. -/
theorem test_spn_decb :
    result (spnDecb paramsSer (withDin (rising 0x10 16) spnState)) = (0, bytesOf 16 0xE2E9D57E289E6CA03EFAC667A74FF062) := by
  decide +kernel

/-- V-SPN-8. -/
theorem test_spn_padding :
    pad16 [] = List.replicate 16 0x10 ∧ pad16 (List.replicate 5 0x41) = List.replicate 5 0x41 ++ List.replicate 11 0x0B ∧
    unpad16 (List.replicate 16 0x10) = some [] ∧ unpad16 (List.replicate 15 0x41 ++ [1]) = some (List.replicate 15 0x41) ∧
    unpad16 (List.replicate 15 0x41 ++ [0]) = none ∧ unpad16 (List.replicate 15 0x41 ++ [0x11]) = none ∧
    unpad16 (List.replicate 13 0x41 ++ [2, 3, 3]) = none := by decide +kernel

/-- V-SPN-9. -/
theorem test_spn_enc_ecb :
    result (spnEncEcb paramsSer (withDin (List.replicate 5 0x41) spnState)) = (0, bytesOf 16 0x012A14BC9E2DE7C23C310E6197884AF5) ∧
    result (spnEncEcb paramsSer spnState) = (0, bytesOf 16 0xFBC4F459AAD52C1B899135E4ABEA886B) := by decide +kernel

/-- V-SPN-10. -/
theorem test_spn_enc_cbc :
    result (spnEncCbc paramsSer (withDin (List.replicate 16 0x42) (putOperand .iv (rising 0xA0 16) spnState))) =
      (0, rising 0xA0 16 ++ bytesOf 16 0x8737D1B62D37588E030B6CF219EAB329 ++ bytesOf 16 0x04DC8BBD3E1F6207918DEE1DD4003BDB) := by
  decide +kernel

/-- V-SPN-11: valid padding, and the invalid padding of a genuine ciphertext. -/
theorem test_spn_dec_ecb :
    result (spnDecEcb paramsSer (withDin (bytesOf 16 0xBD18AC994068CBE00BD51160AE5D3ED1) spnState)) = (0, List.replicate 5 0x41) ∧
    result (spnDecEcb paramsSer (withDin (bytesOf 16 0x012A14BC9E2DE7C23C310E6197884AF5) spnState)) = (6, []) := by decide +kernel

/-- V-SPN-11: `SPN.DEC.CBC`, and that it writes `IV`. -/
theorem test_spn_dec_cbc :
    let t := spnDecCbc paramsSer (withDin (rising 0xA0 16 ++ bytesOf 16 0xDA7001D1440E8ECA4CF13E440DF5B119 ++
      bytesOf 16 0x28231B44D6B6A2FE8A30F1BAF2B7AED8) spnState)
    result t = (0, List.replicate 16 0x42) ∧ operand t .iv = rising 0xA0 16 ∧
    (let u := spnDecCbc paramsSer (withDin (rising 0xA0 16 ++ bytesOf 16 0x7280E258EADF7C2889841635F1DE2B8D) spnState)
     (result u, u.ivLen) = ((6, []), 0)) := by decide +kernel

/-- V-SPN-12: message and IV lengths. -/
theorem test_spn_lengths :
    let e (i : Instr) (iv n : Nat) : Option (BitVec 4) := (after (exec i { spnState with ivLen := iv, dinLen := n })).map (·.err)
    [e .spnEncb 0 15, e .spnEncb 0 32, e .spnDecEcb 0 0, e .spnDecEcb 0 17, e .spnDecCbc 0 16, e .spnEncCbc 8 0] =
      [some 2, some 2, some 2, some 2, some 2, some 3] := by decide +kernel

/-! ## `TEA`, `XTEA` -/

/-- 44 R221, R227: the subkeys are big-endian. -/
theorem test_tea_init :
    (after (exec .teaInit (putOperand .key (rising 0 16) State.reset))).map (fun t => (t.tea.keyed, t.tea.k.toList)) =
      some (true, [0x00010203, 0x04050607, 0x08090A0B, 0x0C0D0E0F]) := by decide +kernel

/-- 44 R227; and `TEA` stays without a key. -/
theorem test_xtea_init :
    (after (exec .xteaInit (putOperand .key (rising 0 16) State.reset))).map (fun t => (t.xtea.keyed, t.tea.keyed, t.xtea.k.toList)) =
      some (true, false, [0x00010203, 0x04050607, 0x08090A0B, 0x0C0D0E0F]) := by decide +kernel

/-- V-TEA-5. -/
theorem test_tea_enc :
    (after (exec .teaEnc (withDin (bytesOf 8 0x0123456789ABCDEF ++ List.replicate 8 0) (loadTea (rising 0 16) State.reset)))).map result =
      some (0, bytesOf 16 0x14F0C75D2BEBD98DF7536548D0013AED) := by decide +kernel

/-- V-TEA-7. -/
theorem test_tea_dec :
    (after (exec .teaDec (withDin (List.replicate 8 0) (loadTea (List.replicate 16 0) State.reset)))).map result =
      some (0, bytesOf 8 0x1423FF6D9216EF3A) := by decide +kernel

/-- V-XTEA-4. -/
theorem test_xtea_enc :
    (after (exec .xteaEnc (withDin (bytesOf 8 0x0123456789ABCDEF ++ List.replicate 8 0) (loadXtea (rising 0 16) State.reset)))).map
      result = some (0, bytesOf 16 0xDB67A40C44BB17C5D5DDC472928D3A1D) := by decide +kernel

/-- V-XTEA-3: 32 rounds. -/
theorem test_xtea_enc_32_rounds :
    xteaE { params with xteaRounds := 32 } (arxSchedule (rising 0 16)) (bytesOf 8 0x0123456789ABCDEF) = bytesOf 8 0x14669763A456E1D8 := by
  decide +kernel

/-- V-XTEA-6. -/
theorem test_xtea_dec :
    (after (exec .xteaDec (withDin (List.replicate 8 0) (loadXtea (List.replicate 16 0) State.reset)))).map result =
      some (0, bytesOf 8 0x7AAA11847109A767) := by decide +kernel

/-- The corner cases after V-XTEA-6. -/
theorem test_tea_lengths :
    [0, 7, 12].map (fun n => (after (exec .teaEnc { loadTea [] State.reset with dinLen := n })).map (·.err)) =
      [some 0, some 2, some 2] ∧
    [15, 17, 32].map (fun n => (after (exec .xteaInit { State.reset with keyLen := n })).map (·.err)) = [some 1, some 1, some 1] ∧
    (after (exec .teaEnc (loadXtea [] State.reset))).map (·.err) = some 5 := by decide +kernel

/-! ## `XXT` -/

/-- 95 P4 step 1: the subkeys are little-endian. -/
theorem test_xxt_init :
    (after (exec .xxtInit (putOperand .key (rising 0 16) State.reset))).map (fun t => (t.xxt.keyed, t.xxt.k.toList)) =
      some (true, [0x03020100, 0x07060504, 0x0B0A0908, 0x0F0E0D0C]) := by decide +kernel

/-- V-XXT-1, V-XXT-6, V-XXT-8. -/
theorem test_xxt_enc :
    let r (m : Bytes) := (after (exec .xxtEnc (withDin m (loadXxt params (rising 0 16) State.reset)))).map result
    r (bytesOf 12 0x48656C6C6F2C205858544541) = some (0, bytesOf 12 0xDB9183403A065E739DFC7C36) ∧
    r (bytesOf 17 0x3031323334353637383961626364656667) = some (0, bytesOf 20 0x8A969B48DC1E3D498F1428C80E82B7A120714B93) ∧
    r (bytesOf 3 0x616263) = some (0, bytesOf 4 0x61626300) ∧ r [] = some (0, []) := by decide +kernel

/-- V-XXT-1 with the other word order; V-XXT-9, the key of zeros. -/
theorem test_xxt_enc_variants :
    (let P : Params := { params with xxtWordOrder := .big }
     xxtE P (xxtSchedule P (rising 0 16)) (bytesOf 12 0x48656C6C6F2C205858544541) = bytesOf 12 0x3DAD6973D038C7A077585C0F) ∧
    xxtE params (xxtSchedule params (List.replicate 16 0)) (List.replicate 8 0) = bytesOf 8 0xAB043705808C5D57 := by decide +kernel

/-- V-XXT-13, V-XXT-14, and the corner cases after them. -/
theorem test_xxt_dec :
    let r (m : Bytes) := (after (exec .xxtDec (withDin m (loadXxt params (rising 0 16) State.reset)))).map result
    r (bytesOf 8 0xBE94B1B93E420F07) = some (0, bytesOf 8 0x68656C6C6F000000) ∧
    r (List.replicate 12 0) = some (0, bytesOf 12 0x9610A81639DA779281CD2B4D) ∧
    r (bytesOf 4 0x61626364) = some (0, bytesOf 4 0x61626364) ∧ r (List.replicate 5 0) = some (2, []) := by decide +kernel

/-! ## `STR` -/

/-- V-STR-6. -/
theorem test_str_g : strG 9 = 81#32 ∧ strG 3 = 9#32 ∧ strG 0xFFFFFFFF = 0xFFFFFFFF#32 ∧ strG 0x00010000 = 1#32 := by decide +kernel

/-- V-STR-3: the context after key expansion and after `STR.INIT`. -/
theorem test_str_init :
    (strSetupDefault (rising 0 16)).x.toList =
      [0x03020100, 0x0D0C0B0A, 0x07060504, 0x01000F0E, 0x0B0A0908, 0x05040302, 0x0F0E0D0C, 0x09080706] ∧
    (strSetupDefault (rising 0 16)).c.toList =
      [0x09080B0A, 0x03020504, 0x0D0C0F0E, 0x07060908, 0x01000302, 0x0B0A0D0C, 0x05040706, 0x0F0E0100] ∧
    (after (exec .strInit (putOperand .key (rising 0 16) State.reset))).map
      (fun t => (t.str.keyed, t.str.st.x.toList, t.str.st.c.toList, t.str.st.carry)) =
      some (true, [0x798C2CEC, 0xCC05FFD4, 0x50D68324, 0x2C306745, 0xAD519559, 0x81595E7A, 0x29A589E2, 0x15212B97],
        [0x0E2024FD, 0x28C530D0, 0x5F172095, 0xB44E8435, 0xDE164044, 0xB8B558A1, 0xCFBB2E84, 0x99980DE3], 1) := by decide +kernel

/-- V-STR-3, call 1: the output, X, C and the carry. -/
theorem test_str_ksb :
    (after (exec .strKsb (loadStr params (rising 0 16) State.reset))).map
      (fun t => (result t, t.str.st.x.toList, t.str.st.c.toList, t.str.st.carry)) =
      some ((0, bytesOf 16 0xA1FBD418D1EF4F7A64383E203F0F3DA7),
        [0x91F10988, 0x676149B9, 0x3A55C1ED, 0x1E448925, 0x3B2F5F05, 0xF229401A, 0xEE84117B, 0x2E3C1B11],
        [0x5B54F84B, 0xFC1265A3, 0x93EA6DC9, 0x01835782, 0xB1637518, 0xED88A5D6, 0x1CF001D1, 0x6CE542B7], 1) := by decide +kernel

/-- V-STR-5: 17 bytes consume two cycles, none consume none. -/
theorem test_str_enc :
    (after (exec .strEnc (withDin (List.replicate 17 0x41) (loadStr params (rising 0 16) State.reset)))).map
      (fun t => (result t, t.str.st.carry, t.str.st.c[0])) =
      some ((0, bytesOf 17 0xE0BA955990AE0E3B25797F617E4E7CE64D), 1, 0xA889CB99#32) ∧
    (after (exec .strEnc (loadStr params (rising 0 16) State.reset))).map (fun t => (result t, t.str)) =
      some ((0, []), (loadStr params (rising 0 16) State.reset).str) := by decide +kernel

/-- V-STR-4. -/
theorem test_str_dec :
    (after (exec .strDec (withDin (bytesOf 32 0xE0BA955990AE0E3B25797F617E4E7CE64DA16629AFF3AA8452D3B66950CBC25D)
      (loadStr params (rising 0 16) State.reset)))).map result = some (0, List.replicate 32 0x41) := by decide +kernel

/-- V-STR-7. -/
theorem test_str_corner_cases :
    [15, 17, 32].map (fun n => (after (exec .strInit { State.reset with keyLen := n })).map (·.err)) = [some 1, some 1, some 1] ∧
    [Instr.strEnc, .strDec, .strKsb].map (fun i => (after (exec i State.reset)).map (·.err)) = [some 5, some 5, some 5] := by
  decide +kernel

/-! ## Host accesses -/

/-- The machine with one thing to come from outside. -/
def withInput (i : Input) (s : State) : State := { s with pending := [i] }

/-- 10 R37, 20 R73: the first and the last offset of each window; a word across reserved offsets is one in no window only. -/
theorem test_map :
    [0x00, 0x14].map (targetOf params .word) = [.register .cmd, .register .doutLen] ∧
    [0x40, 0x7F, 0x80, 0x9F, 0x10000, 0x10FFF, 0x20000, 0x2101F].map (targetOf params .byte) =
      [.buffer .key 0, .buffer .key 63, .buffer .iv 0, .buffer .iv 31, .buffer .din 0, .buffer .din 4095, .buffer .dout 0,
       .buffer .dout 4127] ∧
    [0x18, 0x3F, 0xA0, 0xFFFF, 0x11000, 0x1FFFF, 0x21020, 0x2FFFF].map (targetOf params .byte) = List.replicate 8 .reserved ∧
    [0x18, 0xA0, 0x3E, 0xFFFD, 0x11000, 0x21020, 0x2FFFF, 0x30000].map (targetOf params .word) =
      [.reserved, .reserved] ++ List.replicate 6 .unsupported ∧
    targetOf params .byte 0x30000 = .unsupported := by decide +kernel

/-- 30 R101, 95 P2 steps 1 and 9: the write to `CMD` of a legal word, of an illegal one, and as the first access after reset. -/
theorem test_write_cmd :
    (after (step (withInput (writeReg .cmd 0x0C) State.reset))).map (fun t => (t.cmd, statusWord t)) = some (0x0C, 5) ∧
    (after (step (withInput (writeReg .cmd 0x14) State.reset))).map (fun t => (t.cmd, statusWord t)) = some (0x14, 4) ∧
    (after (step (State.reset.withFetchWord 32 0xB4))).map (fun t => (t.cmd, statusWord t, t.pending)) = some (0xB4, 5, []) := by
  decide +kernel

/-- 10 R35, 95 P6 step 6: `STATUS` with three units keyed. -/
theorem test_read_status :
    (after (step (withInput (readReg .status) (loadFei [] (loadTea [] (loadXtea [] State.reset)))))).map (·.response) =
      some (some 0xD00) := by decide +kernel

/-- 10 R32: lengths at and above the capacity. -/
theorem test_write_lengths :
    [64, 65].map (fun v => (after (step (withInput (writeReg .keyLen v) { State.reset with keyLen := 7 }))).map (·.keyLen)) =
      [some 64, some 7] ∧
    [32, 33].map (fun v => (after (step (withInput (writeReg .ivLen v) State.reset))).map (·.ivLen)) = [some 32, some 0] ∧
    [4096, 4097].map (fun v => (after (step (withInput (writeReg .dinLen v) State.reset))).map (·.dinLen)) = [some 4096, some 0] ∧
    (after (step (withInput (writeReg .doutLen 5) State.reset))).map (·.doutLen) = some 0 := by decide +kernel

/-- 10 R32: a byte written and a byte read; `DOUTBUF` ignores writes. -/
theorem test_buffer_bytes :
    (after (step (withInput (writeByte .key 63 0xA5) State.reset))).map (·.keyBuf) = some [(63, 0xA5)] ∧
    (after (step (withInput (writeByte .dout 0 0xA5) State.reset))).map (·.doutBuf) = some [] ∧
    (after (step (withInput (readByte .iv 31) (putOperand .iv (rising 1 32) State.reset)))).map (·.response) = some (some 32) := by
  decide +kernel

/-- 20 R73: accesses outside the interface: of a register, of a buffer, of the rest of its window, above the map. -/
theorem test_stops :
    refusal (step (withInput (.access (.read .byte 0x04)) State.reset)) = some (.outsideInterface .byte 0x04) ∧
    refusal (step (withInput (.access (.write .word 0x02 0)) State.reset)) = some (.outsideInterface .word 0x02) ∧
    refusal (step (withInput (.access (.write .word 0x40 0)) State.reset)) = some (.outsideInterface .word 0x40) ∧
    refusal (step (withInput (.access (.read .word 0x11000)) State.reset)) = some (.outsideInterface .word 0x11000) ∧
    refusal (step (withInput (.access (.read .byte 0x30000)) State.reset)) = some (.outsideInterface .byte 0x30000) := by
  decide +kernel

/-- 70 R310: a reset from outside, from a state with two units keyed. -/
theorem test_reset :
    after (step (withInput .reset (withDin [1, 2] (loadFei [] (loadStr params [] State.reset))))) = some State.reset := by
  decide +kernel

/-! ## Witnesses -/

/-- The state with these lengths and every byte zero; every unit keyed, or none. -/
def bare (keyed : Bool) (k iv n : Nat) : State :=
  { State.reset with
    keyLen := k, ivLen := iv, dinLen := n
    fei := { State.reset.fei with keyed := keyed }, spn := { State.reset.spn with keyed := keyed }
    tea := { State.reset.tea with keyed := keyed }, xtea := { State.reset.xtea with keyed := keyed }
    xxt := { State.reset.xxt with keyed := keyed }, str := { State.reset.str with keyed := keyed } }

/-- Every length and every last byte at its capacity, and the last code. -/
def brim : State :=
  { bare true 64 32 4096 with
    doutLen := 4128, err := 6, keyBuf := [(63, 1)], ivBuf := [(31, 1)], dinBuf := [(4095, 1)], doutBuf := [(4127, 1)] }

theorem illegal_words :
    ([0x01#32, 0x14#32, 0xB5#32, 0x100#32, 0xFFFFFFFF#32].all fun w => opcodeMap.all fun p => p.2 != w) = true := by decide +kernel

theorem witness_IllegalWordRaisesIllegalCommand :
    (withInput (writeReg .cmd 0x14) State.reset).pending = writeReg .cmd 0x14 :: [] ∧
    ∀ w ∈ [0x01#32, 0x14#32, 0xB5#32, 0x100#32, 0xFFFFFFFF#32], ∀ i, (i, w) ∉ opcodeMap := by
  refine ⟨rfl, fun w hw i hi => ?_⟩
  have h := List.all_eq_true.1 (List.all_eq_true.1 illegal_words w hw) (i, w) hi
  simp at h

theorem witness_StepRunsTheDecodedCommand :
    Instr.feiEncCbc.wellFormed = true ∧ decode 0x0D#32 = .ok .feiEncCbc ∧
    (withInput (writeReg .cmd 0x0D) State.reset).pending = writeReg .cmd 0x0D :: [] := ⟨rfl, rfl, rfl⟩

theorem witness_HardwareWaitsForTheHost :
    State.reset.pending = [] ∧ exec .teaEnc (bare true 0 0 8) = .next (teaEnc params (bare true 0 0 8)) := ⟨rfl, rfl⟩

theorem witness_ResetLeavesTheSpecifiedValues : (withInput .reset (bare true 16 8 8)).pending = .reset :: [] := rfl

/-- At the capacities: a length above its capacity is written, and ignored. -/
theorem witness_EveryStepKeepsTheCapacities :
    Fits params (withInput (writeReg .keyLen 65) brim) ∧
    ∃ t, step (withInput (writeReg .keyLen 65) brim) = .next t ∧ t.keyLen = 64 := ⟨by decide +kernel, _, rfl, rfl⟩

/-- A zero byte is written over the one byte listed. -/
theorem witness_EveryStepKeepsMemoriesCanonical :
    Canonical (withInput (writeByte .key 63 0) brim) ∧
    ∃ t, step (withInput (writeByte .key 63 0) brim) = .next t ∧ t.keyBuf = [] := ⟨by decide +kernel, _, rfl, rfl⟩

theorem witness_EveryStepKeepsErrorCodesLegal :
    LegalErr (withInput (readReg .status) brim) ∧ ∃ t, step (withInput (readReg .status) brim) = .next t ∧ t.err = 6 :=
  ⟨by decide +kernel, _, rfl, rfl⟩

/-- An `INIT` with a key of the wrong length. -/
theorem witness_OnlyResetClearsKeyed :
    (∃ t, step (withInput (writeReg .cmd 0) (bare true 31 0 0)) = .next t ∧ t.err = 1) ∧
    (withInput (writeReg .cmd 0) (bare true 31 0 0)).pending.head? ≠ some .reset ∧
    keyedFlag (withInput (writeReg .cmd 0) (bare true 31 0 0)) .fei = true := ⟨⟨_, rfl, rfl⟩, by decide, rfl⟩

theorem witness_FailedCommandChangesOnlyErrAndDoutLen :
    exec .feiEncb (bare false 0 0 8) = .next (raise .notKeyed (bare false 0 0 8)) ∧ (raise .notKeyed (bare false 0 0 8)).err ≠ 0 :=
  ⟨rfl, by decide⟩

/-- Each of the four codes of the table, where the errors after it in the order apply too; none; and none yet. -/
theorem witness_ErrorReportedIsTheFirstInPriority :
    firstErrorCode .feiEncCbc (bare false 0 5 7) = 5 ∧ firstErrorCode .feiInit (bare true 33 5 7) = 1 ∧
    firstErrorCode .feiEncCbc (bare true 33 5 7) = 3 ∧ firstErrorCode .feiEncCbc (bare true 33 8 7) = 2 ∧
    (firstErrorCode .feiEncCbc (bare true 33 8 8) = 0 ∧ checksPadding .feiEncCbc = false) ∧
    (firstErrorCode .spnDecCbc (bare true 33 5 32) = 0 ∧ checksPadding .spnDecCbc = true) := by decide +kernel

theorem witness_OnlyAWriteToCmdExecutes :
    (withInput (writeReg .keyLen 16) brim).pending = .access (.write .word 0x08 16) :: [] ∧
    (∀ size v, HostAccess.write .word 0x08 16 ≠ .write size 0 v) ∧
    ∃ t, step (withInput (writeReg .keyLen 16) brim) = .next t ∧ t.keyLen = 16 := by
  refine ⟨rfl, fun size v h => ?_, _, rfl, rfl⟩
  injection h with _ h2
  exact absurd h2 (by decide)

/-- Another unit; and the unit's own, by a command that is no `INIT`. -/
theorem witness_CommandsKeepContextsOfOtherUnits :
    exec .teaInit (bare true 16 0 8) = .next (teaInit (bare true 16 0 8)) ∧ CipherUnit.xtea ≠ Instr.teaInit.form.unit ∧
    exec .teaEnc (bare true 16 0 8) = .next (teaEnc params (bare true 16 0 8)) ∧
    Instr.teaEnc.form.op ≠ .init ∧ CipherUnit.tea ≠ .str := ⟨rfl, by decide, rfl, by decide, by decide⟩

theorem witness_CommandsIgnoreContextsOfOtherUnits :
    CipherUnit.xtea ≠ Instr.teaEnc.form.unit ∧ exec .teaEnc (bare true 16 0 8) = .next (teaEnc params (bare true 16 0 8)) ∧
    withContextOf .xtea (loadXtea (rising 0 16) State.reset) (bare true 16 0 8) ≠ bare true 16 0 8 := ⟨by decide, rfl, by decide +kernel⟩

/-- An `INIT` that finds a key, a data command, and an encrypting command that finds an IV. -/
theorem witness_CommandsTouchOnlyTheirSpaces :
    (exec .teaInit (bare true 16 0 8) = .next (teaInit (bare true 16 0 8)) ∧ (bare true 16 0 8).keyLen ≠ 0 ∧
      resolvesIv .teaInit = false) ∧
    (exec .teaEnc (bare true 0 0 8) = .next (teaEnc params (bare true 0 0 8)) ∧ Instr.teaEnc.form.op ≠ .init) ∧
    (exec .feiEncCtr (bare true 0 4 0) = .next (feiEncCtr params (bare true 0 4 0)) ∧ resolvesIv .feiEncCtr = true ∧
      (bare true 0 4 0).ivLen ≠ 0 ∧ Instr.feiEncCtr ≠ .spnDecCbc) := by
  refine ⟨⟨rfl, by decide, rfl⟩, ⟨rfl, by decide⟩, rfl, rfl, by decide, by decide⟩

/-- A state that differs from `bare true 0 iv 8` in the key, in the earlier output and in its error code. -/
def brimWith (iv : Nat) : State := { brim with ivLen := iv, dinLen := 8, ivBuf := [], dinBuf := [] }

/-- Two states that differ in the key's length, in earlier output and its error code, for a command that may draw an IV and holds
one, and for two that draw none: one with, one without an IV. -/
theorem witness_OutputDependsOnContextIvAndDinOnly :
    ∀ p ∈ [(Instr.feiEncCtr, 4), (.feiDecCbc, 8), (.teaEnc, 0)], p.1.form.op ≠ .init ∧ (bare true 0 p.2 8).doutBuf.wf ∧
      (brimWith p.2).doutBuf.wf ∧ (resolvesIv p.1 = true → (bare true 0 p.2 8).ivLen ≠ 0) ∧
      SameContext p.1.form.unit (bare true 0 p.2 8) (brimWith p.2) ∧
      operand (bare true 0 p.2 8) .iv = operand (brimWith p.2) .iv ∧
      operand (bare true 0 p.2 8) .din = operand (brimWith p.2) .din := by
  intro p hp
  simp only [List.mem_cons, List.not_mem_nil, or_false] at hp
  rcases hp with rfl | rfl | rfl <;>
    exact ⟨by decide, by decide, by decide +kernel, by decide, rfl, by decide +kernel, by decide +kernel⟩

/-- Two states that differ in a context without a key and in a byte of `DOUTBUF` beyond `DOUTLEN`; one command apart. -/
theorem witness_UnspecifiedStateIsNeverObservable :
    let s := withInput (writeReg .cmd 0x4C) { bare false 0 0 8 with doutLen := 1, doutBuf := [(0, 7)] }
    let s' : State := { s with tea := { keyed := false, k := #v[1, 2, 3, 4] }, doutBuf := [(0, 7), (1, 9)] }
    s.doutBuf.wf ∧ s'.doutBuf.wf ∧ s ≠ s' ∧ ObservablyEqual s s' := by
  refine ⟨by decide, by decide, by decide, by decide, by decide⟩

/-- Reset memories are canonical whatever the lengths. -/
theorem canonical_bare (keyed : Bool) (k iv n : Nat) : Canonical (bare keyed k iv n) := by
  refine ⟨?_, ?_, ?_, ?_⟩ <;> exact ⟨List.Pairwise.nil, fun _ h => absurd h List.not_mem_nil⟩

/-- Key lengths 0, 32; 31, 33. -/
theorem witness_FeiInitRule :
    (∀ k ∈ [0, 32], Canonical (bare false k 0 0) ∧ ((bare false k 0 0).keyLen = 0 ∨ (bare false k 0 0).keyLen = 32)) ∧
    ∀ k ∈ [31, 33], Canonical (bare true k 0 0) ∧ (bare true k 0 0).keyLen ≠ 0 ∧ (bare true k 0 0).keyLen ≠ 32 := by decide

theorem witness_FeiSingleBlockRules :
    (Canonical (bare false 0 0 8) ∧ (bare false 0 0 8).fei.keyed = false) ∧
    (∀ n ∈ [0, 7, 9], Canonical (bare true 0 0 n) ∧ (bare true 0 0 n).fei.keyed = true ∧ (bare true 0 0 n).dinLen ≠ 8) ∧
    (Canonical (bare true 0 0 8) ∧ (bare true 0 0 8).fei.keyed = true ∧ (bare true 0 0 8).dinLen = 8) := by decide

theorem witness_FeiDecryptionInvertsEncryption : (rising 0 8).length = 8 := by decide

theorem witness_FeiEcbRules :
    (Canonical (bare false 0 0 8) ∧ (bare false 0 0 8).fei.keyed = false) ∧
    (∀ n ∈ [7, 9], Canonical (bare true 0 0 n) ∧ (bare true 0 0 n).fei.keyed = true ∧ (bare true 0 0 n).dinLen % 8 ≠ 0) ∧
    (∀ n ∈ [0, 8, 16], Canonical (bare true 0 0 n) ∧ (bare true 0 0 n).fei.keyed = true ∧ (bare true 0 0 n).dinLen % 8 = 0) := by
  decide

/-- IV lengths 7 and 9; 0 and 8 with 7 and with 0, 8, 16 bytes; for decryption also 0. -/
theorem witness_FeiCbcRules :
    (Canonical (bare false 0 8 8) ∧ (bare false 0 8 8).fei.keyed = false) ∧
    (∀ iv ∈ [7, 9], Canonical (bare true 0 iv 8) ∧ (bare true 0 iv 8).fei.keyed = true ∧ (bare true 0 iv 8).ivLen ≠ 0 ∧
      (bare true 0 iv 8).ivLen ≠ 8) ∧
    (∀ iv ∈ [0, 8], Canonical (bare true 0 iv 7) ∧ (bare true 0 iv 7).fei.keyed = true ∧
      ((bare true 0 iv 7).ivLen = 0 ∨ (bare true 0 iv 7).ivLen = 8) ∧ (bare true 0 iv 7).dinLen % 8 ≠ 0) ∧
    (∀ iv ∈ [0, 8], ∀ n ∈ [0, 8, 16], Canonical (bare true 0 iv n) ∧ (bare true 0 iv n).fei.keyed = true ∧
      ((bare true 0 iv n).ivLen = 0 ∨ (bare true 0 iv n).ivLen = 8) ∧ (bare true 0 iv n).dinLen % 8 = 0) ∧
    (bare true 0 0 8).ivLen ≠ 8 := ⟨by decide, by decide, by decide, by decide, by decide⟩

theorem witness_FeiCfbRules :
    (Canonical (bare false 0 8 8) ∧ (bare false 0 8 8).fei.keyed = false) ∧
    (∀ iv ∈ [7, 9], Canonical (bare true 0 iv 8) ∧ (bare true 0 iv 8).fei.keyed = true ∧ (bare true 0 iv 8).ivLen ≠ 0 ∧
      (bare true 0 iv 8).ivLen ≠ 8) ∧
    (∀ iv ∈ [0, 8], ∀ n ∈ [0, 1, 8, 17], Canonical (bare true 0 iv n) ∧ (bare true 0 iv n).fei.keyed = true ∧
      ((bare true 0 iv n).ivLen = 0 ∨ (bare true 0 iv n).ivLen = 8)) ∧
    (bare true 0 0 8).ivLen ≠ 8 := ⟨by decide, by decide, by decide, by decide⟩

theorem witness_FeiCtrRules :
    (Canonical (bare false 0 4 8) ∧ (bare false 0 4 8).fei.keyed = false) ∧
    (∀ iv ∈ [3, 5, 8], Canonical (bare true 0 iv 8) ∧ (bare true 0 iv 8).fei.keyed = true ∧ (bare true 0 iv 8).ivLen ≠ 0 ∧
      (bare true 0 iv 8).ivLen ≠ 4) ∧
    (∀ iv ∈ [0, 4], ∀ n ∈ [0, 1, 8, 17], Canonical (bare true 0 iv n) ∧ (bare true 0 iv n).fei.keyed = true ∧
      ((bare true 0 iv n).ivLen = 0 ∨ (bare true 0 iv n).ivLen = 4)) ∧
    (bare true 0 0 8).ivLen ≠ 4 := ⟨by decide, by decide, by decide, by decide⟩

/-- The state a command leaves, with its output moved to `DIN`, as `MOVDIN` does (30 R109). -/
def moved (t : State) : State := { t with dinBuf := t.doutBuf, dinLen := t.doutLen }

theorem operand_moved (t : State) : operand (moved t) .din = operand t .dout := rfl

/-- On two blocks, with an IV of the length its mode takes, an encrypting command completes. -/
theorem feiEnc_delivers : ∀ p ∈ [(Instr.feiEncEcb, 8), (.feiEncCbc, 8), (.feiEncCfb, 8), (.feiEncCtr, 4)],
    ∃ out, exec p.1 (bare true 0 p.2 16) = .next (deliver out (bare true 0 p.2 16)) := by
  intro p hp
  simp only [List.mem_cons, List.not_mem_nil, or_false] at hp
  rcases hp with rfl | rfl | rfl | rfl <;> exact ⟨_, rfl⟩

/-- Two blocks in each of the four modes. -/
theorem witness_FeiModesRoundTrip : ∀ q ∈ [((Instr.feiEncEcb, Instr.feiDecEcb), 8), ((.feiEncCbc, .feiDecCbc), 8),
      ((.feiEncCfb, .feiDecCfb), 8), ((.feiEncCtr, .feiDecCtr), 4)],
    q.1 ∈ [(Instr.feiEncEcb, Instr.feiDecEcb), (.feiEncCbc, .feiDecCbc), (.feiEncCfb, .feiDecCfb), (.feiEncCtr, .feiDecCtr)] ∧
    ∃ t, Canonical (bare true 0 q.2 16) ∧ Canonical (moved t) ∧ exec q.1.1 (bare true 0 q.2 16) = .next t ∧ t.err = 0 ∧
      (moved t).fei = t.fei ∧ operand (moved t) .iv = operand t .iv ∧ operand (moved t) .din = operand t .dout := by
  have hc : ∀ n out, Canonical (moved (deliver out (bare true 0 n 16))) := fun n out =>
    have h0 := canonical_bare true 0 n 16
    ⟨h0.1, h0.2.1, Memory.wf_writeBytes h0.2.2.2 0 out, Memory.wf_writeBytes h0.2.2.2 0 out⟩
  have hm : ∀ (out : Bytes) (s : State), (deliver out s).err = 0 ∧ (moved (deliver out s)).fei = (deliver out s).fei ∧
      operand (moved (deliver out s)) .iv = operand (deliver out s) .iv := fun _ _ => ⟨rfl, rfl, rfl⟩
  intro q hq
  obtain ⟨h1, h2⟩ : q.1 ∈ [(Instr.feiEncEcb, Instr.feiDecEcb), (.feiEncCbc, .feiDecCbc), (.feiEncCfb, .feiDecCfb),
      (.feiEncCtr, .feiDecCtr)] ∧ (q.1.1, q.2) ∈ [(Instr.feiEncEcb, 8), (.feiEncCbc, 8), (.feiEncCfb, 8), (.feiEncCtr, 4)] := by
    revert q; decide
  obtain ⟨out, h⟩ := feiEnc_delivers _ h2
  exact ⟨h1, _, canonical_bare true 0 q.2 16, hc _ out, h, (hm out _).1, (hm out _).2.1, (hm out _).2.2, operand_moved _⟩

theorem witness_SpnInitRule :
    (∀ k ∈ [0, 16, 24, 32], Canonical (bare false k 0 0) ∧ ((bare false k 0 0).keyLen = 0 ∨ (bare false k 0 0).keyLen = 16 ∨
      (bare false k 0 0).keyLen = 24 ∨ (bare false k 0 0).keyLen = 32)) ∧
    ∀ k ∈ [15, 17, 23, 25, 31, 33], Canonical (bare true k 0 0) ∧ (bare true k 0 0).keyLen ≠ 0 ∧ (bare true k 0 0).keyLen ≠ 16 ∧
      (bare true k 0 0).keyLen ≠ 24 ∧ (bare true k 0 0).keyLen ≠ 32 := by decide

theorem witness_SpnSingleBlockRules :
    (Canonical (bare false 0 0 16) ∧ (bare false 0 0 16).spn.keyed = false) ∧
    (∀ n ∈ [0, 15, 17], Canonical (bare true 0 0 n) ∧ (bare true 0 0 n).spn.keyed = true ∧ (bare true 0 0 n).dinLen ≠ 16) ∧
    (Canonical (bare true 0 0 16) ∧ (bare true 0 0 16).spn.keyed = true ∧ (bare true 0 0 16).dinLen = 16) := by decide

theorem witness_SpnPermutationsAreInverse : (rising 0 16).length = 16 := by decide

/-- Parameters with identity S-boxes. -/
theorem witness_SpnWithIdentitySboxesIgnoresTheBlock :
    ∀ n v, ({ params with spnSbox := fun _ => Equiv.refl _ } : Params).spnSbox n v = v := fun _ _ => rfl

/-- One block of nothing but padding, and a last block with one byte of it. -/
theorem witness_UnpaddingUndoesExactlyPadding :
    (List.replicate 16 0x10#8 ≠ [] ∧ (List.replicate 16 0x10#8).length % 16 = 0 ∧
      unpad16 (List.replicate 16 0x10#8) = some [] ∧ List.replicate 16 0x10#8 = pad16 []) ∧
    (rising 1 15 ++ [1#8] ≠ [] ∧ (rising 1 15 ++ [1#8]).length % 16 = 0 ∧ unpad16 (rising 1 15 ++ [1#8]) = some (rising 1 15)) := by
  decide +kernel

/-- The clauses on the state. Whether the decrypted message unpads depends on the open tables; `test_spn_dec_ecb` shows both
cases under T-SER. -/
theorem witness_SpnEcbRules :
    (Canonical (bare false 0 0 16) ∧ (bare false 0 0 16).spn.keyed = false) ∧
    (∀ n ∈ [0, 15, 16, 17], Canonical (bare true 0 0 n) ∧ (bare true 0 0 n).spn.keyed = true) ∧
    (∀ n ∈ [0, 15, 17], (bare true 0 0 n).dinLen = 0 ∨ (bare true 0 0 n).dinLen % 16 ≠ 0) ∧
    ∀ n ∈ [16, 32], (bare true 0 0 n).dinLen ≠ 0 ∧ (bare true 0 0 n).dinLen % 16 = 0 := by decide

theorem witness_SpnEncCbcRule :
    (Canonical (bare false 0 16 0) ∧ (bare false 0 16 0).spn.keyed = false) ∧
    (∀ iv ∈ [8, 15, 17], Canonical (bare true 0 iv 0) ∧ (bare true 0 iv 0).spn.keyed = true ∧ (bare true 0 iv 0).ivLen ≠ 0 ∧
      (bare true 0 iv 0).ivLen ≠ 16) ∧
    ∀ iv ∈ [0, 16], ∀ n ∈ [0, 15, 16], Canonical (bare true 0 iv n) ∧ (bare true 0 iv n).spn.keyed = true ∧
      ((bare true 0 iv n).ivLen = 0 ∨ (bare true 0 iv n).ivLen = 16) := by decide

/-- As `witness_SpnEcbRules`; `test_spn_dec_cbc` shows both cases of the padding. -/
theorem witness_SpnDecCbcRule :
    (Canonical (bare false 0 0 32) ∧ (bare false 0 0 32).spn.keyed = false) ∧
    (∀ n ∈ [0, 16, 31, 33], Canonical (bare true 0 0 n) ∧ (bare true 0 0 n).spn.keyed = true ∧
      ((bare true 0 0 n).dinLen < 32 ∨ (bare true 0 0 n).dinLen % 16 ≠ 0)) ∧
    ∀ n ∈ [32, 48], Canonical (bare true 0 0 n) ∧ (bare true 0 0 n).spn.keyed = true ∧ 32 ≤ (bare true 0 0 n).dinLen ∧
      (bare true 0 0 n).dinLen % 16 = 0 := by decide

theorem witness_TeaAndXteaInitRules :
    (∀ k ∈ [0, 16], Canonical (bare false k 0 0) ∧ ((bare false k 0 0).keyLen = 0 ∨ (bare false k 0 0).keyLen = 16)) ∧
    ∀ k ∈ [15, 17, 32], Canonical (bare true k 0 0) ∧ (bare true k 0 0).keyLen ≠ 0 ∧ (bare true k 0 0).keyLen ≠ 16 := by decide

theorem witness_TeaAndXteaRules :
    (Canonical (bare false 0 0 8) ∧ (bare false 0 0 8).tea.keyed = false ∧ (bare false 0 0 8).xtea.keyed = false) ∧
    (∀ n ∈ [7, 9, 12], Canonical (bare true 0 0 n) ∧ (bare true 0 0 n).tea.keyed = true ∧ (bare true 0 0 n).xtea.keyed = true ∧
      (bare true 0 0 n).dinLen % 8 ≠ 0) ∧
    ∀ n ∈ [0, 8, 16], Canonical (bare true 0 0 n) ∧ (bare true 0 0 n).tea.keyed = true ∧ (bare true 0 0 n).xtea.keyed = true ∧
      (bare true 0 0 n).dinLen % 8 = 0 := by decide

/-- A block of either unit. -/
theorem witness_TeaAndXteaRoundTrip :
    ((rising 0 8).length = 8 ∧ params.teaMix = teaMixDefault ∧ params.xteaMix = xteaMixDefault) ∧
    Canonical (withDin (rising 1 8) (bare true 0 0 0)) ∧
    ∀ q ∈ [((Instr.teaEnc, Instr.teaDec), teaEnc params (withDin (rising 1 8) (bare true 0 0 0))),
        ((.xteaEnc, .xteaDec), xteaEnc params (withDin (rising 1 8) (bare true 0 0 0)))],
      q.1 ∈ [(Instr.teaEnc, Instr.teaDec), (.xteaEnc, .xteaDec)] ∧ Canonical (moved q.2) ∧
      exec q.1.1 (withDin (rising 1 8) (bare true 0 0 0)) = .next q.2 ∧ q.2.err = 0 ∧ (moved q.2).tea = q.2.tea ∧
      (moved q.2).xtea = q.2.xtea ∧ operand (moved q.2) .din = operand q.2 .dout := by
  refine ⟨⟨by decide, rfl, rfl⟩, by decide +kernel, fun q hq => ?_⟩
  have hx : ∀ s, exec .teaEnc s = .next (teaEnc params s) ∧ exec .xteaEnc s = .next (xteaEnc params s) := fun _ => ⟨rfl, rfl⟩
  have hm : ∀ t, (moved t).tea = t.tea ∧ (moved t).xtea = t.xtea := fun _ => ⟨rfl, rfl⟩
  simp only [List.mem_cons, List.not_mem_nil, or_false] at hq
  rcases hq with rfl | rfl
  · exact ⟨by decide, by decide +kernel, (hx _).1, by decide +kernel, (hm _).1, (hm _).2, operand_moved _⟩
  · exact ⟨by decide, by decide +kernel, (hx _).2, by decide +kernel, (hm _).1, (hm _).2, operand_moved _⟩

theorem witness_XxtInitRule :
    (∀ k ∈ [0, 16], Canonical (bare false k 0 0) ∧ ((bare false k 0 0).keyLen = 0 ∨ (bare false k 0 0).keyLen = 16)) ∧
    ∀ k ∈ [15, 17, 32], Canonical (bare true k 0 0) ∧ (bare true k 0 0).keyLen ≠ 0 ∧ (bare true k 0 0).keyLen ≠ 16 := by decide

theorem witness_XxtRoundCounts : 2 ≤ 2 ∧ (27 ≤ 27 ∧ 27 ≤ 52) ∧ (27 ≤ 52 ∧ 52 ≤ 52) ∧ 53 ≤ 53 := by decide

theorem witness_XxtPassesFollowThePseudocode : 2 ≤ [1#32, 2].length := by decide

/-- Lengths below, at and above one word and two words; the padded ones for `XXT.ENC`. -/
theorem witness_XxtRules :
    (Canonical (bare false 0 0 8) ∧ (bare false 0 0 8).xxt.keyed = false) ∧
    (∀ n ∈ [0, 1, 4], Canonical (bare true 0 0 n) ∧ (bare true 0 0 n).xxt.keyed = true ∧ (bare true 0 0 n).dinLen ≤ 4) ∧
    (∀ n ∈ [5, 8, 9], Canonical (bare true 0 0 n) ∧ (bare true 0 0 n).xxt.keyed = true ∧ 4 < (bare true 0 0 n).dinLen) ∧
    (∀ n ∈ [1, 5, 9], (bare true 0 0 n).dinLen % 4 ≠ 0) ∧ ∀ n ∈ [0, 4, 8], (bare true 0 0 n).dinLen % 4 = 0 := by decide

/-- Five bytes, padded to two words. -/
theorem witness_XxtRoundTrip :
    2 ≤ [1#32, 2].length ∧ Canonical (withDin (rising 1 5) (bare true 0 0 0)) ∧
    ∃ t, Canonical (moved t) ∧ exec .xxtEnc (withDin (rising 1 5) (bare true 0 0 0)) = .next t ∧ t.err = 0 ∧
      (moved t).xxt = t.xxt ∧ operand (moved t) .din = operand t .dout := by
  have hx : ∀ s, exec .xxtEnc s = .next (xxtEnc params s) := fun _ => rfl
  have hm : ∀ t, (moved t).xxt = t.xxt := fun _ => rfl
  exact ⟨by decide, by decide +kernel, xxtEnc params (withDin (rising 1 5) (bare true 0 0 0)), by decide +kernel, hx _,
    by decide +kernel, hm _, operand_moved _⟩

theorem witness_StrInitRule :
    (∀ k ∈ [0, 16], Canonical (bare false k 0 0) ∧ ((bare false k 0 0).keyLen = 0 ∨ (bare false k 0 0).keyLen = 16)) ∧
    ∀ k ∈ [15, 17, 32], Canonical (bare true k 0 0) ∧ (bare true k 0 0).keyLen ≠ 0 ∧ (bare true k 0 0).keyLen ≠ 16 := by decide

theorem witness_StrKsbRule :
    (Canonical (bare false 0 0 0) ∧ (bare false 0 0 0).str.keyed = false) ∧
    (Canonical (bare true 0 0 0) ∧ (bare true 0 0 0).str.keyed = true) := by decide

theorem witness_StrEncAndDecRules :
    (Canonical (bare false 0 0 16) ∧ (bare false 0 0 16).str.keyed = false) ∧
    ∀ n ∈ [0, 1, 16, 17], Canonical (bare true 0 0 n) ∧ (bare true 0 0 n).str.keyed = true := by decide

/-- Five bytes. -/
theorem witness_StrRoundTripFromTheSameState :
    let s := withDin (rising 1 5) (loadStr params (rising 0 16) State.reset)
    let s' := { moved (strEnc params s) with str := s.str }
    s.doutBuf.wf ∧ s'.doutBuf.wf ∧ s.str.keyed = true ∧ s'.str = s.str ∧ operand s' .din = operand (strEnc params s) .dout := by
  have hs : ∀ (t : State) (c : StrContext), ({ moved t with str := c } : State).str = c := fun _ _ => rfl
  have hd : ∀ (t : State) (c : StrContext), operand { moved t with str := c } .din = operand t .dout := fun _ _ => rfl
  exact ⟨by decide +kernel, by decide +kernel, by decide +kernel, hs _ _, hd _ _⟩

/-- 20 bytes split after 16. -/
theorem witness_StrSplitAtWholeBlocksIsSeamless :
    let s0 := loadStr params (rising 0 16) State.reset
    let s := withDin (rising 1 20) s0
    let s1 := withDin (rising 1 16) s0
    let s2 := { withDin (rising 17 4) s0 with str := (strEnc params s1).str }
    Canonical s ∧ Canonical s1 ∧ Canonical s2 ∧ s.str.keyed = true ∧ s1.str = s.str ∧ s1.dinLen % 16 = 0 ∧
    operand s .din = operand s1 .din ++ operand s2 .din ∧ exec .strEnc s = .next (strEnc params s) ∧
    exec .strEnc s1 = .next (strEnc params s1) ∧ s2.str = (strEnc params s1).str := by
  have hk : ∀ b s, (withDin b s).str = s.str := fun _ _ => rfl
  have he : ∀ s, exec .strEnc s = .next (strEnc params s) := fun _ => rfl
  exact ⟨by decide +kernel, by decide +kernel, by decide +kernel, by decide +kernel, (hk _ _).trans (hk _ _).symm, by decide +kernel,
    by decide +kernel, he _, he _, rfl⟩

theorem witness_RotationsMoveBitsCyclically : 0 < 32 ∧ 0 < 32 ∧ 31 < 32 := by decide

theorem witness_HostReadsRegisters : (withInput (readReg .doutLen) brim).pending = readReg .doutLen :: [] := rfl

/-- The last byte of each buffer; the last byte of the output and the one after it. -/
theorem witness_HostReadsBufferBytes :
    (63 < capOf params .key ∧ 31 < capOf params .iv ∧ 4095 < capOf params .din ∧ 4127 < capOf params .dout) ∧
    (withInput (readByte .dout 7) { brim with doutLen := 8 }).pending = readByte .dout 7 :: [] ∧
    7 < ({ brim with doutLen := 8 } : State).doutLen ∧ ({ brim with doutLen := 8 } : State).doutLen ≤ 8 := by
  refine ⟨by decide, rfl, by decide, by decide⟩

theorem witness_HostWritesLengths :
    (withInput (writeReg .keyLen 64) brim).pending = writeReg .keyLen 64 :: [] ∧
    (withInput (writeReg .ivLen 33) brim).pending = writeReg .ivLen 33 :: [] ∧
    (withInput (writeReg .dinLen 4097) brim).pending = writeReg .dinLen 4097 :: [] := ⟨rfl, rfl, rfl⟩

theorem witness_HostWritesBufferBytes :
    Canonical (withInput (writeByte .din 4095 0) brim) ∧ Space.din ≠ .dout ∧ 4095 < capOf params .din ∧
    (withInput (writeByte .din 4095 0) brim).pending = writeByte .din 4095 0 :: [] := ⟨by decide +kernel, by decide, by decide, rfl⟩

/-- The last byte of `DOUTBUF`; words at both ends of the two gaps, bytes at both ends of what is reserved in the two windows. -/
theorem witness_ReadOnlyAndReservedLocations :
    (4127 < params.bufCap + 32 ∧ (withInput (writeByte .dout 4127 5) brim).pending = writeByte .dout 4127 5 :: []) ∧
    (∀ p ∈ [(AccessSize.word, 0x18), (.word, 0x3C), (.byte, 0x3F), (.word, 0xA0), (.word, 0xFFFC), (.byte, 0x11000),
        (.byte, 0x1FFFF), (.byte, 0x21020), (.byte, 0x2FFFF)],
      (0x18 ≤ p.2 ∧ p.2 + p.1.bytes ≤ 0x40) ∨ (0xA0 ≤ p.2 ∧ p.2 + p.1.bytes ≤ 0x10000) ∨
        (p.1 = .byte ∧ ((0x10000 + params.bufCap ≤ p.2 ∧ p.2 < 0x20000) ∨ (0x20000 + params.bufCap + 32 ≤ p.2 ∧ p.2 < 0x30000)))) ∧
    (withInput (.access (.read .word 0x3C)) brim).pending = .access (.read .word 0x3C) :: [] ∧
    (withInput (.access (.write .byte 0x2FFFF 1)) brim).pending = .access (.write .byte 0x2FFFF 1) :: [] := by
  refine ⟨⟨by decide, rfl⟩, by decide, rfl, rfl⟩

/-- A byte read and a misaligned write of registers; wide accesses that touch a buffer or a window at either end, those that start
before it included; the first offset above the map. -/
theorem witness_AccessesOutsideTheInterfaceStop :
    (withInput (.access (.read .byte 0x17)) brim).pending = .access (.read .byte 0x17) :: [] ∧
    (∀ v, HostAccess.write .word 0x16 v = .read .word 0x16 ∨ HostAccess.write .word 0x16 v = .write .word 0x16 v) ∧
    (0x17 < 0x18 ∧ (AccessSize.byte ≠ .word ∨ 0x17 % 4 ≠ 0)) ∧ (0x16 < 0x18 ∧ (AccessSize.word ≠ .word ∨ 0x16 % 4 ≠ 0)) ∧
    (∀ p ∈ [(AccessSize.half, 0x3F), (.word, 0x3D), (.half, 0x9F), (.half, 0xFFFF), (.word, 0xFFFD), (.word, 0x11000),
        (.half, 0x2FFFF)], p.1 ≠ .byte ∧
      ∃ k < p.1.bytes, (0x40 ≤ p.2 + k ∧ p.2 + k < 0xA0) ∨ (0x10000 ≤ p.2 + k ∧ p.2 + k < 0x30000)) ∧
    0x30000 ≤ 0x30000 := by
  refine ⟨rfl, fun _ => .inr rfl, by decide, by decide, by decide, by decide⟩

/-- An empty value, and one of the whole buffer. -/
theorem witness_SetOperandMacroSetsTheValue :
    ∀ n ∈ [0, 64],
      Canonical { brim with pending := setOperandMacro .key (rising 0 n) ++ [readReg .status] } ∧ Space.key ≠ .dout ∧
      (rising 0 n).length ≤ capOf params .key ∧
      ({ brim with pending := setOperandMacro .key (rising 0 n) ++ [readReg .status] } : State).pending =
        setOperandMacro .key (rising 0 n) ++ [readReg .status] := by decide +kernel

end Sys2Proof.Tests
end

/-! PROOFS. The primitives of 00 R15, R16 and R20: what a rotation does to each bit, and the packings as sums with their inverses. -/

namespace Sys2Proof.Machine

/-! ## Rotations (00 R15, R16) -/

/-- The low part of R15's sum is below `2 ^ (r % n)` and the high part a multiple of it, so the sum is the disjunction of two shifts. -/
theorem rotl_eq_rotateLeft {n : Nat} (hn : 0 < n) (x : BitVec n) (r : Nat) : rotl x r = x.rotateLeft r := by
  have hr : r % n < n := Nat.mod_lt r hn
  have hpow : 2 ^ n = 2 ^ (r % n) * 2 ^ (n - r % n) := by rw [← pow_add, Nat.add_sub_cancel' hr.le]
  have hlow : x.toNat / 2 ^ (n - r % n) < 2 ^ (r % n) :=
    Nat.div_lt_of_lt_mul (by rw [mul_comm, ← hpow]; exact x.isLt)
  have hhigh : x.toNat * 2 ^ (r % n) % 2 ^ n = 2 ^ (r % n) * (x.toNat % 2 ^ (n - r % n)) := by
    rw [hpow, mul_comm, Nat.mul_mod_mul_left]
  have hsum : x.toNat * 2 ^ (r % n) % 2 ^ n + x.toNat / 2 ^ (n - r % n) = (x.rotateLeft r).toNat := by
    rw [BitVec.toNat_rotateLeft, Nat.shiftLeft_eq, Nat.shiftRight_eq_div_pow, hhigh, Nat.two_pow_add_eq_or_of_lt hlow]
  rw [rotl, hsum, BitVec.ofNat_toNat, BitVec.setWidth_eq]

/-- R15 bit by bit: either bit `i` is shifted out and comes in below, or it stays below the top. -/
theorem getLsbD_rotl {n : Nat} (x : BitVec n) (r : Nat) {i : Nat} (hi : i < n) :
    (rotl x r).getLsbD ((i + r) % n) = x.getLsbD i := by
  have hr : r % n < n := Nat.mod_lt r (by omega)
  rw [rotl_eq_rotateLeft (by omega), BitVec.getLsbD_rotateLeft, Nat.add_mod_eq_ite, Nat.mod_eq_of_lt hi]
  split
  next hout =>
    have hback : n - r % n + (i + r % n - n) = i := by omega
    have hbelow : i + r % n - n < r % n := by omega
    simp [hback, hbelow]
  next hstay =>
    have hbelow : i + r % n < n := by omega
    simp [hbelow]

/-- Rotating the positions reaches every one of them, so words that agree at the rotated positions are equal. -/
theorem eq_of_getLsbD_rotated {n : Nat} {x y : BitVec n} (r : Nat)
    (h : ∀ i < n, x.getLsbD ((i + r) % n) = y.getLsbD ((i + r) % n)) : x = y := by
  refine BitVec.eq_of_getLsbD_eq fun j hj => ?_
  have hr : r % n < n := Nat.mod_lt r (by omega)
  have hreach : ((j + (n - r % n)) % n + r) % n = j := by
    rw [Nat.mod_add_mod, ← Nat.add_mod_mod, show j + (n - r % n) + r % n = j + n by omega, Nat.add_mod_right,
      Nat.mod_eq_of_lt hj]
  simpa only [hreach] using h _ (Nat.mod_lt (j + (n - r % n)) (by omega))

theorem rotl_rotl {n : Nat} (x : BitVec n) (r t : Nat) : rotl (rotl x r) t = rotl x (r + t) := by
  refine eq_of_getLsbD_rotated (r + t) fun i hi => ?_
  have hstep : (i + (r + t)) % n = ((i + r) % n + t) % n := by rw [Nat.mod_add_mod, add_assoc]
  calc (rotl (rotl x r) t).getLsbD ((i + (r + t)) % n)
      = (rotl x r).getLsbD ((i + r) % n) := by rw [hstep, getLsbD_rotl _ _ (Nat.mod_lt _ (by omega))]
    _ = x.getLsbD i := getLsbD_rotl x r hi
    _ = (rotl x (r + t)).getLsbD ((i + (r + t)) % n) := (getLsbD_rotl x (r + t) hi).symm

theorem rotl_of_mod_eq_zero {n : Nat} (x : BitVec n) {r : Nat} (hr : r % n = 0) : rotl x r = x := by
  refine eq_of_getLsbD_rotated r fun i hi => ?_
  rw [getLsbD_rotl x r hi, ← Nat.add_mod_mod, hr, add_zero, Nat.mod_eq_of_lt hi]

/-- The amounts of a left and a right rotation by `r` add up to whole turns. -/
theorem add_sub_mod_mod_self {n : Nat} (hn : 0 < n) (r : Nat) : (r + (n - r % n)) % n = 0 := by
  rw [← Nat.mod_add_mod, Nat.add_sub_cancel' (Nat.mod_lt r hn).le, Nat.mod_self]

theorem rotr_rotl {n : Nat} (hn : 0 < n) (x : BitVec n) (r : Nat) : rotr (rotl x r) r = x := by
  rw [rotr, rotl_rotl, rotl_of_mod_eq_zero x (add_sub_mod_mod_self hn r)]

theorem rotl_rotr {n : Nat} (hn : 0 < n) (x : BitVec n) (r : Nat) : rotl (rotr x r) r = x := by
  rw [rotr, rotl_rotl, add_comm, rotl_of_mod_eq_zero x (add_sub_mod_mod_self hn r)]

/-- Settles O53: the bits by `getLsbD_rotl`, the two inverses because the amounts add up to whole turns. -/
theorem rotationsMoveBitsCyclically : Obligations.RotationsMoveBitsCyclically :=
  fun _ x r hn => ⟨fun _ hi => getLsbD_rotl x r hi, rotr_rotl hn x r, rotl_rotr hn x r⟩

/-! ## Packing (00 R20)

The little-endian packing is the big-endian one of the reversed bytes, so only the latter is computed. -/

theorem le32_eq_be32_reverse (b0 b1 b2 b3 : Byte) : le32 [b0, b1, b2, b3] = be32 [b3, b2, b1, b0] := rfl

theorem toLe32_eq_reverse_toBe32 (w : Word) : toLe32 w = (toBe32 w).reverse := rfl

theorem toNat_append_byte {m : Nat} (x : BitVec m) (b : Byte) : (x ++ b).toNat = x.toNat * 2 ^ 8 + b.toNat := by
  rw [BitVec.toNat_append, ← Nat.shiftLeft_add_eq_or_of_lt b.isLt, Nat.shiftLeft_eq]

theorem toNat_be32 (b0 b1 b2 b3 : Byte) :
    (be32 [b0, b1, b2, b3]).toNat = b0.toNat * 2 ^ 24 + b1.toNat * 2 ^ 16 + b2.toNat * 2 ^ 8 + b3.toNat := by
  have hbytes : be32 [b0, b1, b2, b3] = b0 ++ b1 ++ b2 ++ b3 := rfl
  rw [hbytes, toNat_append_byte, toNat_append_byte, toNat_append_byte]
  ring

theorem toNat_le32 (b0 b1 b2 b3 : Byte) :
    (le32 [b0, b1, b2, b3]).toNat = b0.toNat + b1.toNat * 2 ^ 8 + b2.toNat * 2 ^ 16 + b3.toNat * 2 ^ 24 := by
  rw [le32_eq_be32_reverse, toNat_be32]
  ring

theorem toNat_le16 (b0 b1 : Byte) : (le16 [b0, b1]).toNat = b0.toNat + b1.toNat * 2 ^ 8 := by
  have hbytes : le16 [b0, b1] = b1 ++ b0 := rfl
  rw [hbytes, toNat_append_byte, add_comm]

theorem toNat_extractLsb'_byte (w : Word) (k : Nat) : (w.extractLsb' k 8).toNat = w.toNat / 2 ^ k % 2 ^ 8 := by
  rw [BitVec.extractLsb'_toNat, Nat.shiftRight_eq_div_pow]

/-- Each byte is a digit to base 256 of the sum, because the bytes below it add up to less than its weight. -/
@[simp] theorem toBe32_be32 (b0 b1 b2 b3 : Byte) : toBe32 (be32 [b0, b1, b2, b3]) = [b0, b1, b2, b3] := by
  have h0 := b0.isLt
  have h1 := b1.isLt
  have h2 := b2.isLt
  have h3 := b3.isLt
  simp only [toBe32, List.cons.injEq, and_true, ← BitVec.toNat_inj, toNat_extractLsb'_byte, toNat_be32]
  omega

@[simp] theorem toLe32_le32 (b0 b1 b2 b3 : Byte) : toLe32 (le32 [b0, b1, b2, b3]) = [b0, b1, b2, b3] := by
  rw [le32_eq_be32_reverse, toLe32_eq_reverse_toBe32, toBe32_be32]
  rfl

/-- A word is the sum of its digits to base 256 times their weights. -/
@[simp] theorem be32_toBe32 (w : Word) : be32 (toBe32 w) = w := by
  have hw := w.isLt
  simp only [toBe32, ← BitVec.toNat_inj, toNat_be32, toNat_extractLsb'_byte]
  omega

@[simp] theorem le32_toLe32 (w : Word) : le32 (toLe32 w) = w := be32_toBe32 w

/-- Settles O52: the sums byte by byte, the inverses by the digits of the sum. -/
theorem packingIsPositional : Obligations.PackingIsPositional :=
  ⟨fun b0 b1 b2 b3 => ⟨toNat_be32 b0 b1 b2 b3, toNat_le32 b0 b1 b2 b3, toNat_le16 b0 b1, toBe32_be32 b0 b1 b2 b3,
    toLe32_le32 b0 b1 b2 b3⟩, fun w => ⟨be32_toBe32 w, le32_toLe32 w⟩⟩

end Sys2Proof.Machine

/-! PROOFS. The invariants of a step (10 R31, R32, R36; log 20): what every storage operation keeps, every step keeps. -/

namespace Sys2Proof.Machine

open Config (Params)

/-! ## The operand spaces after an update -/

theorem bufOf_setLen (s : State) (sp : Space) (n : Nat) (sp' : Space) : bufOf (setLen s sp n) sp' = bufOf s sp' := by
  cases sp' <;> simp

theorem lenOf_setLen (s : State) (sp : Space) (n : Nat) (sp' : Space) :
    lenOf (setLen s sp n) sp' = if sp' = sp then n else lenOf s sp' := by
  cases sp <;> cases sp' <;> rfl

theorem bufOf_memWrite (s : State) (sp : Space) (o : Nat) (v : Bytes) (sp' : Space) :
    bufOf (memWrite s sp o v) sp' = if sp' = sp then (bufOf s sp).writeBytes o v else bufOf s sp' := by
  cases sp <;> cases sp' <;> rfl

theorem lenOf_memWrite (s : State) (sp : Space) (o : Nat) (v : Bytes) (sp' : Space) :
    lenOf (memWrite s sp o v) sp' = lenOf s sp' := by
  cases sp' <;> simp

@[simp] theorem capOf_key (P : Params) : capOf P .key = 64 := rfl
@[simp] theorem capOf_iv (P : Params) : capOf P .iv = 32 := rfl
@[simp] theorem capOf_din (P : Params) : capOf P .din = P.bufCap := rfl
@[simp] theorem capOf_dout (P : Params) : capOf P .dout = P.bufCap + 32 := rfl

/-- The two states hold the same bytes and lengths in the four operand spaces. -/
def SameStorage (s t : State) : Prop := ∀ sp, bufOf t sp = bufOf s sp ∧ lenOf t sp = lenOf s sp

theorem sameStorage_withContextOf (u : CipherUnit) (x s : State) : SameStorage s (withContextOf u x s) := by
  intro sp
  cases u <;> cases sp <;> exact ⟨rfl, rfl⟩

/-- No register but the four lengths stores anything. -/
theorem sameStorage_bookkeeping (s : State) {cmd : Word} {err : BitVec 4} {pending : List Input} {response : Option Word}
    {draws stale : Nat} :
    SameStorage s { s with cmd := cmd, err := err, pending := pending, response := response, draws := draws, staleReads := stale } :=
  fun sp => by cases sp <;> exact ⟨rfl, rfl⟩

/-- `raise` stores what the length 0 in `DOUTLEN` stores. -/
theorem sameStorage_raise (e : ErrorKind) (s : State) : SameStorage (setLen s .dout 0) (raise e s) :=
  fun sp => by cases sp <;> exact ⟨rfl, rfl⟩

/-- `deliver` stores what the output put into `DOUT` stores. -/
theorem sameStorage_deliver (out : Bytes) (s : State) : SameStorage (putOperand .dout out s) (deliver out s) :=
  fun sp => by cases sp <;> exact ⟨rfl, rfl⟩

/-! ## Invariants of the storage -/

/-- A property of the operand spaces alone that each storage operation keeps: a length or bytes within the capacity, an output no
longer than `DIN` and the 32 bytes more that 10 R31 gives `DOUTBUF`, and a reset. -/
structure StorageInvariant (I : State → Prop) : Prop where
  congr : ∀ {s t}, SameStorage s t → I s → I t
  setLen : ∀ {s} sp n, n ≤ capOf params sp → I s → I (setLen s sp n)
  memWrite : ∀ {s} sp o v, o + v.length ≤ capOf params sp → I s → I (memWrite s sp o v)
  output : ∀ {s} out, out.length ≤ s.dinLen + 32 → I s → I (putOperand .dout out s)
  reset : I State.reset

section
variable {I : State → Prop}

theorem StorageInvariant.putOperand (h : StorageInvariant I) {s : State} (sp : Space) (v : Bytes)
    (hv : v.length ≤ capOf params sp) (hs : I s) : I (putOperand sp v s) :=
  h.setLen sp _ hv (h.memWrite sp 0 v (by omega) hs)

theorem StorageInvariant.resolveOperand (h : StorageInvariant I) {s : State} (sp : Space) (n : Nat)
    (hn : n ≤ capOf params sp) (hs : I s) : I (resolveOperand sp n s) := by
  by_cases h0 : lenOf s sp = 0
  · rw [resolveOperand_of_eq n h0]
    exact h.putOperand sp _ (by simpa using hn) (h.congr (sameStorage_bookkeeping _) hs)
  · rwa [resolveOperand_of_ne n h0]

theorem StorageInvariant.raise (h : StorageInvariant I) {s : State} (e : ErrorKind) (hs : I s) : I (raise e s) :=
  h.congr (sameStorage_raise e s) (h.setLen .dout 0 (Nat.zero_le _) hs)

/-- The state a command delivers from has the invariant, and the same `DINLEN`. -/
theorem StorageInvariant.prepared (h : StorageInvariant I) {i : Instr} {s r : State} (hr : Prepared i s r) (hs : I s) :
    I r ∧ r.dinLen = s.dinLen := by
  rcases hr with rfl | ⟨-, n, hn, rfl⟩ | ⟨-, v, hv, rfl⟩ | ⟨-, n, rfl⟩
  · exact ⟨hs, rfl⟩
  · exact ⟨h.resolveOperand .iv n (by simp; omega) hs, by simp⟩
  · exact ⟨h.putOperand .iv v (by simp; omega) hs, rfl⟩
  · exact ⟨h.congr (sameStorage_withContextOf .str (advanceStr params n s) s) hs, rfl⟩

theorem StorageInvariant.exec (h : StorageInvariant I) {i : Instr} {s t : State} (ht : exec i s = .next t) (hs : I s) : I t := by
  rcases exec_cases ht with ⟨e, rfl⟩ | ⟨-, n, x, hn, -, rfl⟩ | ⟨-, -, out, r, hout, hr, rfl⟩
  · exact h.raise e hs
  · have hres := h.resolveOperand .key n (by simp; omega) hs
    have hctx := h.congr (sameStorage_withContextOf i.form.unit x _) hres
    exact h.congr (sameStorage_bookkeeping _) (h.setLen .dout 0 (Nat.zero_le _) hctx)
  · obtain ⟨hIr, hdin⟩ := h.prepared hr hs
    exact h.congr (sameStorage_deliver out r) (h.output out (by rw [hdin]; exact hout) hIr)

theorem StorageInvariant.access (h : StorageInvariant I) {a : HostAccess} {s t : State} (ht : AccessEnds a s t) (hs : I s) :
    I t := by
  have hquiet : I (noResponse s) := h.congr (sameStorage_bookkeeping s) hs
  rcases ht with ⟨v, n, rfl⟩ | rfl | ⟨sp, n, -, hn, rfl⟩ | ⟨sp, o, b, -, ho, rfl⟩ | ⟨w, -, hcmd⟩
  · exact h.congr (sameStorage_bookkeeping _) hs
  · exact hquiet
  · exact h.setLen sp n hn hquiet
  · exact h.memWrite sp o [b] ho hquiet
  · have hstored : I { s with response := none, cmd := w } := h.congr (sameStorage_bookkeeping _) hs
    rcases hcmd with ⟨_, _, rfl⟩ | ⟨i, _, hexec⟩
    · exact h.raise _ hstored
    · exact h.exec hexec hstored

/-- A step waits, is a reset, or is one host access. -/
theorem StorageInvariant.step (h : StorageInvariant I) {s t : State} (ht : step s = .next t) (hs : I s) : I t := by
  rcases step_cases ht with ⟨_, rfl⟩ | ⟨rest, _, rfl⟩ | ⟨rest, a, _, ha⟩
  · exact hs
  · exact h.congr (sameStorage_bookkeeping _) h.reset
  · exact h.access ha (h.congr (sameStorage_bookkeeping _) hs)

end

/-! ## The capacities and the canonical form -/

theorem fits_iff (P : Params) (s : State) : Fits P s ↔ ∀ sp, lenOf s sp ≤ capOf P sp ∧ (bufOf s sp).within (capOf P sp) := by
  constructor
  · rintro ⟨⟨hk, hi, hd, ho⟩, hkb, hib, hdb, hob⟩ sp
    cases sp
    exacts [⟨hk, hkb⟩, ⟨hi, hib⟩, ⟨hd, hdb⟩, ⟨ho, hob⟩]
  · intro h
    exact ⟨⟨(h .key).1, (h .iv).1, (h .din).1, (h .dout).1⟩, (h .key).2, (h .iv).2, (h .din).2, (h .dout).2⟩

theorem canonical_iff (s : State) : Canonical s ↔ ∀ sp, (bufOf s sp).wf := by
  constructor
  · rintro ⟨hk, hi, hd, ho⟩ sp
    cases sp
    exacts [hk, hi, hd, ho]
  · intro h
    exact ⟨h .key, h .iv, h .din, h .dout⟩

theorem fits_reset : Fits params State.reset := by
  refine (fits_iff _ _).2 fun sp => ?_
  cases sp <;> exact ⟨Nat.zero_le _, fun _ hc => absurd hc List.not_mem_nil⟩

theorem canonical_reset : Canonical State.reset := by
  refine (canonical_iff _).2 fun sp => ?_
  cases sp <;> exact ⟨List.Pairwise.nil, fun _ hc => absurd hc List.not_mem_nil⟩

theorem fits_setLen {P : Params} {s : State} (sp : Space) (n : Nat) (hn : n ≤ capOf P sp) (h : Fits P s) : Fits P (setLen s sp n) := by
  refine (fits_iff _ _).2 fun sp' => ?_
  have hs := (fits_iff _ _).1 h sp'
  rw [bufOf_setLen, lenOf_setLen]
  refine ⟨?_, hs.2⟩
  split
  next heq => rwa [heq]
  next => exact hs.1

theorem fits_memWrite {P : Params} {s : State} (sp : Space) (o : Nat) (v : Bytes) (hv : o + v.length ≤ capOf P sp) (h : Fits P s) :
    Fits P (memWrite s sp o v) := by
  refine (fits_iff _ _).2 fun sp' => ?_
  have hs := (fits_iff _ _).1 h sp'
  rw [bufOf_memWrite, lenOf_memWrite]
  refine ⟨hs.1, ?_⟩
  split
  next heq => subst heq; exact Memory.within_writeBytes hs.2 hv
  next => exact hs.2

theorem canonical_memWrite {s : State} (sp : Space) (o : Nat) (v : Bytes) (h : Canonical s) : Canonical (memWrite s sp o v) := by
  refine (canonical_iff _).2 fun sp' => ?_
  have hs := (canonical_iff _).1 h
  rw [bufOf_memWrite]
  split
  · exact Memory.wf_writeBytes (hs sp) o v
  · exact hs sp'

theorem canonical_setLen {s : State} (sp : Space) (n : Nat) (h : Canonical s) : Canonical (setLen s sp n) :=
  (canonical_iff _).2 fun sp' => by rw [bufOf_setLen]; exact (canonical_iff _).1 h sp'

/-- The longest output fits because `DINLEN` does, and `DOUTBUF` holds 32 bytes more than `DINBUF`. -/
theorem fits_storageInvariant : StorageInvariant (Fits params) where
  congr hst hs := (fits_iff _ _).2 fun sp => by rw [(hst sp).1, (hst sp).2]; exact (fits_iff _ _).1 hs sp
  setLen sp n hn hs := fits_setLen sp n hn hs
  memWrite sp o v hv hs := fits_memWrite sp o v hv hs
  output {s} out hout hs := by
    have hdin : s.dinLen ≤ params.bufCap := ((fits_iff _ _).1 hs .din).1
    have hcap : out.length ≤ capOf params .dout := by rw [capOf_dout]; omega
    exact fits_setLen .dout _ hcap (fits_memWrite .dout 0 out (by omega) hs)
  reset := fits_reset

theorem canonical_storageInvariant : StorageInvariant Canonical where
  congr hst hs := (canonical_iff _).2 fun sp => by rw [(hst sp).1]; exact (canonical_iff _).1 hs sp
  setLen sp n _ hs := canonical_setLen sp n hs
  memWrite sp o v _ hs := canonical_memWrite sp o v hs
  output out _ hs := canonical_setLen .dout _ (canonical_memWrite .dout 0 out hs)
  reset := canonical_reset

/-- Settles O8: every storage operation of a step stays within the capacities. -/
theorem everyStepKeepsTheCapacities : Obligations.EveryStepKeepsTheCapacities :=
  fun _ _ hs ht => fits_storageInvariant.step ht hs

/-- Settles O9: every storage operation of a step keeps the canonical form. -/
theorem everyStepKeepsMemoriesCanonical : Obligations.EveryStepKeepsMemoriesCanonical :=
  fun _ _ hs ht => canonical_storageInvariant.step ht hs

end Sys2Proof.Machine

/-! PROOFS. Who writes which context (10 R40), and that only a reset clears a `KEYED` flag (10 R55). -/

namespace Sys2Proof.Machine

/-! ## The contexts after an update -/

theorem SameContext.refl (u : CipherUnit) (s : State) : SameContext u s s := by cases u <;> rfl

theorem SameContext.symm {u : CipherUnit} {s t : State} (h : SameContext u s t) : SameContext u t s := by
  cases u <;> exact Eq.symm h

theorem SameContext.trans {u : CipherUnit} {s t r : State} (h : SameContext u s t) (h' : SameContext u t r) :
    SameContext u s r := by
  cases u <;> exact Eq.trans h h'

theorem SameContext.keyedFlag_eq {u : CipherUnit} {s t : State} (h : SameContext u s t) : keyedFlag t u = keyedFlag s u := by
  cases u
  case fei => exact congrArg FeiContext.keyed h.symm
  case spn => exact congrArg SpnContext.keyed h.symm
  case str => exact congrArg StrContext.keyed h.symm
  all_goals exact congrArg ArxContext.keyed h.symm

theorem sameContext_setLen (u : CipherUnit) (s : State) (sp : Space) (n : Nat) : SameContext u s (setLen s sp n) := by
  cases u <;> simp [SameContext]

theorem sameContext_memWrite (u : CipherUnit) (s : State) (sp : Space) (o : Nat) (v : Bytes) :
    SameContext u s (memWrite s sp o v) := by
  cases u <;> simp [SameContext]

theorem sameContext_putOperand (u : CipherUnit) (s : State) (sp : Space) (v : Bytes) : SameContext u s (putOperand sp v s) :=
  (sameContext_memWrite u s sp 0 v).trans (sameContext_setLen u _ sp v.length)

theorem sameContext_resolveOperand (u : CipherUnit) (s : State) (sp : Space) (n : Nat) :
    SameContext u s (resolveOperand sp n s) := by
  cases u <;> simp [SameContext]

/-- No register but the contexts' own holds part of a context. -/
theorem sameContext_bookkeeping (u : CipherUnit) (s : State) {cmd : Word} {err : BitVec 4} {doutLen : Nat} {pending : List Input}
    {response : Option Word} {draws stale : Nat} :
    SameContext u s { s with
      cmd := cmd, err := err, doutLen := doutLen, pending := pending, response := response, draws := draws, staleReads := stale } := by
  cases u <;> rfl

theorem sameContext_raise (u : CipherUnit) (e : ErrorKind) (s : State) : SameContext u s (raise e s) := sameContext_bookkeeping u s

theorem sameContext_deliver (u : CipherUnit) (out : Bytes) (s : State) : SameContext u s (deliver out s) :=
  (sameContext_putOperand u s .dout out).trans (sameContext_bookkeeping u _)

theorem sameContext_withContextOf {u v : CipherUnit} (h : u ≠ v) (x s : State) : SameContext u s (withContextOf v x s) := by
  cases v <;> cases u <;> first | rfl | exact absurd rfl h

/-- The context put in place is the one of the other state. -/
theorem sameContext_withContextOf_self (u : CipherUnit) (x s : State) : SameContext u x (withContextOf u x s) := by
  cases u <;> rfl

theorem sameContext_advanceStr {u : CipherUnit} (h : u ≠ .str) (n : Nat) (s : State) : SameContext u s (advanceStr params n s) :=
  sameContext_withContextOf h (advanceStr params n s) s

/-! ## Commands -/

/-- What a command prepares before it delivers changes no context but that of `STR`. -/
theorem Prepared.sameContext {i : Instr} {s r : State} (h : Prepared i s r) {u : CipherUnit} (hu : u ≠ .str ∨ i.form.unit ≠ .str) :
    SameContext u s r := by
  rcases h with rfl | ⟨-, n, -, rfl⟩ | ⟨-, v, -, rfl⟩ | ⟨hstr, n, rfl⟩
  · exact .refl u r
  · exact sameContext_resolveOperand u s .iv n
  · exact sameContext_putOperand u s .iv v
  · exact sameContext_advanceStr (hu.resolve_right (not_not_intro hstr)) n s

/-- To advance the stream keeps the `KEYED` flag of `STR`. -/
theorem Prepared.keyedFlag_eq {i : Instr} {s r : State} (h : Prepared i s r) (u : CipherUnit) : keyedFlag r u = keyedFlag s u := by
  by_cases hstr : i.form.unit = .str ∧ u = .str
  · rcases h with rfl | ⟨-, n, -, rfl⟩ | ⟨-, v, -, rfl⟩ | ⟨-, n, rfl⟩
    · rfl
    · exact (sameContext_resolveOperand u s .iv n).keyedFlag_eq
    · exact (sameContext_putOperand u s .iv v).keyedFlag_eq
    · rw [hstr.2]; rfl
  · exact (h.sameContext (by tauto)).keyedFlag_eq

theorem exec_sameContext {i : Instr} {s t : State} {u : CipherUnit} (ht : exec i s = .next t)
    (hu : u ≠ i.form.unit ∨ (i.form.op ≠ .init ∧ u ≠ .str)) : SameContext u s t := by
  rcases exec_cases ht with ⟨e, rfl⟩ | ⟨hinit, n, x, -, -, rfl⟩ | ⟨-, -, out, r, -, hr, rfl⟩
  · exact sameContext_raise u e s
  · have hother : u ≠ i.form.unit := hu.resolve_right fun h => h.1 hinit
    exact ((sameContext_resolveOperand u s .key n).trans (sameContext_withContextOf hother x _)).trans (sameContext_bookkeeping u _)
  · have hstr : u ≠ .str ∨ i.form.unit ≠ .str := by
      rcases hu with hne | ⟨-, hne⟩
      · by_cases heq : u = .str
        · exact .inr (heq ▸ hne.symm)
        · exact .inl heq
      · exact .inl hne
    exact (hr.sameContext hstr).trans (sameContext_deliver u out r)

/-- A command leaves its own unit keyed as it was or loads a key, and the others as they were. -/
theorem exec_keepsKeyed {i : Instr} {s t : State} {u : CipherUnit} (ht : exec i s = .next t) (hk : keyedFlag s u = true) :
    keyedFlag t u = true := by
  rcases exec_cases ht with ⟨e, rfl⟩ | ⟨hinit, n, x, -, hx, rfl⟩ | ⟨-, -, out, r, -, hr, rfl⟩
  · rwa [(sameContext_raise u e s).keyedFlag_eq]
  · by_cases hu : u = i.form.unit
    · subst hu
      rw [(sameContext_bookkeeping _ _).keyedFlag_eq, (sameContext_withContextOf_self _ x _).keyedFlag_eq, hx]
    · rwa [(exec_sameContext ht (.inl hu)).keyedFlag_eq]
  · rwa [(sameContext_deliver u out r).keyedFlag_eq, hr.keyedFlag_eq]

theorem access_keepsKeyed {a : HostAccess} {s t : State} {u : CipherUnit} (ht : AccessEnds a s t) (hk : keyedFlag s u = true) :
    keyedFlag t u = true := by
  have hquiet : SameContext u s (noResponse s) := sameContext_bookkeeping u s
  rcases ht with ⟨v, n, rfl⟩ | rfl | ⟨sp, n, -, -, rfl⟩ | ⟨sp, o, b, -, -, rfl⟩ | ⟨w, -, hcmd⟩
  · rwa [(sameContext_bookkeeping u s).keyedFlag_eq]
  · rwa [hquiet.keyedFlag_eq]
  · rwa [(hquiet.trans (sameContext_setLen u _ sp n)).keyedFlag_eq]
  · rwa [(hquiet.trans (sameContext_memWrite u _ sp o [b])).keyedFlag_eq]
  · have hstored : keyedFlag { s with response := none, cmd := w } u = true := by
      rwa [(sameContext_bookkeeping u s).keyedFlag_eq]
    rcases hcmd with ⟨_, _, rfl⟩ | ⟨i, _, hexec⟩
    · rwa [(sameContext_raise u _ _).keyedFlag_eq]
    · exact exec_keepsKeyed hexec hstored

/-- Settles O15: by what a command can do, `INIT` alone loads its own context and `STR` alone advances its own. -/
theorem commandsKeepContextsOfOtherUnits : Obligations.CommandsKeepContextsOfOtherUnits :=
  fun _ _ _ _ ht hu => exec_sameContext ht hu

/-- Settles O11: of what a step can do, only the reset clears a flag. -/
theorem onlyResetClearsKeyed : Obligations.OnlyResetClearsKeyed := by
  intro s t u ht hreset hk
  rcases step_cases ht with ⟨_, rfl⟩ | ⟨rest, hp, rfl⟩ | ⟨rest, a, _, ha⟩
  · exact hk
  · exact absurd (by rw [hp, List.head?_cons]) hreset
  · exact access_keepsKeyed ha (by rwa [(sameContext_bookkeeping u s).keyedFlag_eq])

end Sys2Proof.Machine

/-! PROOFS. What a command cannot tell apart (10 R40, R48): from two states related by any relation its own operations keep, a command
ends in two states so related. -/

namespace Sys2Proof.Machine

open Config (Params)

/-! ## Relations that the commands of a unit keep -/

/-- A relation that the commands of a unit keep: related states agree on what those commands read (`KEY`, `IV`, `DIN`, the draws, the
unit's `KEYED` flag, and its context where it is keyed), and stay related under what those commands write. -/
structure CommandRelation (u : CipherUnit) (R : State → State → Prop) : Prop where
  lenOf : ∀ {s s'}, R s s' → ∀ sp, sp ≠ .dout → lenOf s' sp = lenOf s sp
  bufOf : ∀ {s s'}, R s s' → ∀ sp, sp ≠ .dout → bufOf s' sp = bufOf s sp
  draws : ∀ {s s'}, R s s' → s'.draws = s.draws
  keyed : ∀ {s s'}, R s s' → keyedFlag s' u = keyedFlag s u
  context : ∀ {s s'}, R s s' → keyedFlag s u = true → SameContext u s s'
  setErr : ∀ {s s'} c, R s s' → R { s with err := c } { s' with err := c }
  setDraws : ∀ {s s'} d, R s s' → R { s with draws := d } { s' with draws := d }
  dropOutput : ∀ {s s'}, R s s' → R { s with doutLen := 0 } { s' with doutLen := 0 }
  put : ∀ {s s'} sp v, R s s' → R (putOperand sp v s) (putOperand sp v s')
  load : ∀ {s s'} x, R s s' → R (withContextOf u x s) (withContextOf u x s')

/-- 60 R289: an unkeyed unit's commands but `INIT` raise `NotKeyed` before anything else. -/
theorem exec_of_not_keyed {i : Instr} (hi : i.form.op ≠ .init) {s : State} (h : keyedFlag s i.form.unit = false) :
    exec i s = .next (raise .notKeyed s) := by
  cases i
  case feiInit | spnInit | teaInit | xteaInit | xxtInit | strInit => exact absurd rfl hi
  all_goals exact congrArg Host.Outcome.next (if_pos h)

namespace CommandRelation

variable {u : CipherUnit} {R : State → State → Prop} {s s' : State}

theorem memRead (hR : CommandRelation u R) (h : R s s') {sp : Space} (hsp : sp ≠ .dout) (o n : Nat) :
    memRead s' sp o n = memRead s sp o n := congrArg (fun m => Memory.readBytes m o n) (hR.bufOf h sp hsp)

theorem operand (hR : CommandRelation u R) (h : R s s') {sp : Space} (hsp : sp ≠ .dout) : operand s' sp = operand s sp := by
  rw [Machine.operand, Machine.operand, hR.lenOf h sp hsp, hR.memRead h hsp]

theorem dinLen (hR : CommandRelation u R) (h : R s s') : s'.dinLen = s.dinLen := hR.lenOf h .din (by decide)

theorem ivLen (hR : CommandRelation u R) (h : R s s') : s'.ivLen = s.ivLen := hR.lenOf h .iv (by decide)

theorem keyLen (hR : CommandRelation u R) (h : R s s') : s'.keyLen = s.keyLen := hR.lenOf h .key (by decide)

theorem raise (hR : CommandRelation u R) (h : R s s') (e : ErrorKind) : R (raise e s) (raise e s') :=
  hR.setErr (errorCode e) (hR.dropOutput h)

theorem deliver (hR : CommandRelation u R) (h : R s s') (out : Bytes) : R (deliver out s) (deliver out s') :=
  hR.setErr 0 (hR.put .dout out h)

theorem resolveOperand (hR : CommandRelation u R) (h : R s s') {sp : Space} (hsp : sp ≠ .dout) (n : Nat) :
    R (resolveOperand sp n s) (resolveOperand sp n s') := by
  by_cases h0 : Machine.lenOf s sp = 0
  · rw [resolveOperand_of_eq n h0, resolveOperand_of_eq n (by rwa [hR.lenOf h sp hsp]), hR.draws h]
    exact hR.put sp _ (hR.setDraws _ h)
  · rwa [resolveOperand_of_ne n h0, resolveOperand_of_ne n (by rwa [hR.lenOf h sp hsp])]

/-! ### The frames of the commands -/

theorem initUnit (hR : CommandRelation u R) (h : R s s') (n : Nat) (lengths : List Nat) {load : Bytes → State → State}
    (hload : ∀ key r, load key r = withContextOf u (load key State.reset) r) :
    R (initUnit n lengths load s) (initUnit n lengths load s') := by
  have hr := hR.resolveOperand h (sp := .key) (by decide) n
  unfold Machine.initUnit
  simp only [hR.keyLen hr, hR.operand hr (sp := .key) (by decide)]
  split
  · rw [hload _ (Machine.resolveOperand .key n s), hload _ (Machine.resolveOperand .key n s')]
    exact hR.setErr 0 (hR.dropOutput (hR.load _ hr))
  · exact hR.raise hr _

theorem singleBlock (hR : CommandRelation u R) (h : R s s') (keyed : Bool) (B : Nat) (f : Bytes → Bytes) :
    R (singleBlock keyed B f s) (singleBlock keyed B f s') := by
  unfold Machine.singleBlock
  rw [hR.dinLen h, hR.memRead h (by decide)]
  split_ifs
  · exact hR.raise h _
  · exact hR.raise h _
  · exact hR.deliver h _

theorem blockwise (hR : CommandRelation u R) (h : R s s') (keyed : Bool) (B : Nat) (f : Bytes → Bytes) :
    R (blockwise keyed B f s) (blockwise keyed B f s') := by
  unfold Machine.blockwise
  rw [hR.dinLen h, hR.operand h (by decide)]
  split_ifs
  · exact hR.raise h _
  · exact hR.raise h _
  · exact hR.deliver h _

theorem chained (hR : CommandRelation u R) (h : R s s') (keyed ivOk aligned : Bool) (n B : Nat) (f : Bytes → List Bytes → Bytes) :
    R (chained keyed ivOk aligned n B f s) (chained keyed ivOk aligned n B f s') := by
  have hr := hR.resolveOperand h (sp := .iv) (by decide) n
  unfold Machine.chained
  simp only [hR.dinLen h, hR.memRead hr (sp := .iv) (by decide), hR.operand hr (sp := .din) (by decide)]
  split_ifs
  · exact hR.raise h _
  · exact hR.raise h _
  · exact hR.raise h _
  · exact hR.deliver hr _

/-- A chaining command that encrypts, its unit's context the same in both states. -/
theorem chainedEnc (hR : CommandRelation u R) (h : R s s') (keyed aligned : Bool) (n B : Nat) (f : Bytes → List Bytes → Bytes) :
    R (Machine.chained keyed (ivAcceptedEnc n s) aligned n B f s) (Machine.chained keyed (ivAcceptedEnc n s') aligned n B f s') := by
  rw [show ivAcceptedEnc n s' = ivAcceptedEnc n s by rw [ivAcceptedEnc, ivAcceptedEnc, hR.ivLen h]]
  exact hR.chained h _ _ _ _ _ _

/-- A chaining command that decrypts, its unit's context the same in both states. -/
theorem chainedDec (hR : CommandRelation u R) (h : R s s') (keyed aligned : Bool) (n B : Nat) (f : Bytes → List Bytes → Bytes) :
    R (Machine.chained keyed (ivAcceptedDec n s) aligned n B f s) (Machine.chained keyed (ivAcceptedDec n s') aligned n B f s') := by
  rw [show ivAcceptedDec n s' = ivAcceptedDec n s by rw [ivAcceptedDec, ivAcceptedDec, hR.ivLen h]]
  exact hR.chained h _ _ _ _ _ _

/-! ### The commands with a frame of their own, the context of the unit the same in both states -/

theorem spnEncEcb (hR : CommandRelation .spn R) (h : R s s') (hc : s.spn = s'.spn) (P : Params) :
    R (spnEncEcb P s) (spnEncEcb P s') := by
  unfold Machine.spnEncEcb
  rw [← hc, hR.operand h (by decide)]
  split_ifs
  · exact hR.raise h _
  · exact hR.deliver h _

theorem spnDecEcb (hR : CommandRelation .spn R) (h : R s s') (hc : s.spn = s'.spn) (P : Params) :
    R (spnDecEcb P s) (spnDecEcb P s') := by
  unfold Machine.spnDecEcb
  rw [← hc, hR.dinLen h, hR.operand h (by decide)]
  split_ifs
  · exact hR.raise h _
  · exact hR.raise h _
  · split
    · exact hR.raise h _
    · exact hR.deliver h _

theorem spnEncCbc (hR : CommandRelation .spn R) (h : R s s') (hc : s.spn = s'.spn) (P : Params) :
    R (spnEncCbc P s) (spnEncCbc P s') := by
  have hr := hR.resolveOperand h (sp := .iv) (by decide) Config.spnIvBytes
  unfold Machine.spnEncCbc ivAcceptedEnc
  simp only [← hc, hR.ivLen h, hR.memRead hr (sp := .iv) (by decide), hR.operand hr (sp := .din) (by decide)]
  split_ifs
  · exact hR.raise h _
  · exact hR.raise h _
  · exact hR.deliver hr _

theorem spnDecCbc (hR : CommandRelation .spn R) (h : R s s') (hc : s.spn = s'.spn) (P : Params) :
    R (spnDecCbc P s) (spnDecCbc P s') := by
  unfold Machine.spnDecCbc
  simp only [← hc, hR.dinLen h, hR.memRead h (sp := .din) (by decide), hR.operand h (sp := .din) (by decide)]
  split_ifs
  · exact hR.raise h _
  · exact hR.raise h _
  · split
    · exact hR.raise h _
    · exact hR.deliver (hR.put .iv _ h) _

theorem xxtEnc (hR : CommandRelation .xxt R) (h : R s s') (hc : s.xxt = s'.xxt) (P : Params) : R (xxtEnc P s) (xxtEnc P s') := by
  unfold Machine.xxtEnc
  rw [← hc, hR.operand h (by decide)]
  split_ifs
  · exact hR.raise h _
  · exact hR.deliver h _

theorem xxtDec (hR : CommandRelation .xxt R) (h : R s s') (hc : s.xxt = s'.xxt) (P : Params) : R (xxtDec P s) (xxtDec P s') := by
  unfold Machine.xxtDec
  rw [← hc, hR.dinLen h, hR.operand h (by decide)]
  split_ifs
  · exact hR.raise h _
  · exact hR.raise h _
  · exact hR.deliver h _

theorem advanceStr (hR : CommandRelation .str R) (h : R s s') (hc : s.str = s'.str) (P : Params) (n : Nat) :
    R (advanceStr P n s) (advanceStr P n s') := by
  have hload : Machine.advanceStr P n s' = withContextOf .str (Machine.advanceStr P n s) s' := by
    rw [Machine.advanceStr, ← hc]; rfl
  rw [hload]
  exact hR.load (Machine.advanceStr P n s) h

theorem strKsb (hR : CommandRelation .str R) (h : R s s') (hc : s.str = s'.str) (P : Params) : R (strKsb P s) (strKsb P s') := by
  unfold Machine.strKsb
  rw [← hc]
  split_ifs
  · exact hR.raise h _
  · exact hR.deliver (hR.advanceStr h hc P 1) _

theorem strApply (hR : CommandRelation .str R) (h : R s s') (hc : s.str = s'.str) (P : Params) :
    R (strApply P s) (strApply P s') := by
  unfold Machine.strApply
  rw [← hc, hR.dinLen h, hR.operand h (by decide)]
  split_ifs
  · exact hR.raise h _
  · exact hR.deliver (hR.advanceStr h hc P _) _

end CommandRelation

/-! ## Every command -/

/-- `INIT` reads no context, so related states suffice. -/
theorem exec_init_related {i : Instr} (hi : i.form.op = .init) {R : State → State → Prop} (hR : CommandRelation i.form.unit R)
    {s s' : State} (h : R s s') : ∃ t t', exec i s = .next t ∧ exec i s' = .next t' ∧ R t t' := by
  cases i
  case feiInit | spnInit | teaInit | xteaInit | xxtInit | strInit =>
    exact ⟨_, _, rfl, rfl, hR.initUnit h _ _ fun _ _ => rfl⟩
  all_goals cases hi

/-- A data command reads the context of its unit and no other. -/
theorem exec_data_related {i : Instr} (hi : i.form.op ≠ .init) {R : State → State → Prop} (hR : CommandRelation i.form.unit R)
    {s s' : State} (h : R s s') (hc : SameContext i.form.unit s s') :
    ∃ t t', exec i s = .next t ∧ exec i s' = .next t' ∧ R t t' := by
  cases i
  case feiInit | spnInit | teaInit | xteaInit | xxtInit | strInit => exact absurd rfl hi
  case spnEncEcb => exact ⟨_, _, rfl, rfl, hR.spnEncEcb h hc _⟩
  case spnDecEcb => exact ⟨_, _, rfl, rfl, hR.spnDecEcb h hc _⟩
  case spnEncCbc => exact ⟨_, _, rfl, rfl, hR.spnEncCbc h hc _⟩
  case spnDecCbc => exact ⟨_, _, rfl, rfl, hR.spnDecCbc h hc _⟩
  case xxtEnc => exact ⟨_, _, rfl, rfl, hR.xxtEnc h hc _⟩
  case xxtDec => exact ⟨_, _, rfl, rfl, hR.xxtDec h hc _⟩
  case strEnc | strDec => exact ⟨_, _, rfl, rfl, hR.strApply h hc _⟩
  case strKsb => exact ⟨_, _, rfl, rfl, hR.strKsb h hc _⟩
  all_goals
    refine ⟨_, _, rfl, rfl, ?_⟩
    simp only [SameContext, Instr.form] at hc
  case feiEncb => rw [feiEncb, feiEncb, ← hc]; exact hR.singleBlock h _ _ _
  case feiDecb => rw [feiDecb, feiDecb, ← hc]; exact hR.singleBlock h _ _ _
  case spnEncb => rw [spnEncb, spnEncb, ← hc]; exact hR.singleBlock h _ _ _
  case spnDecb => rw [spnDecb, spnDecb, ← hc]; exact hR.singleBlock h _ _ _
  case feiEncEcb => rw [feiEncEcb, feiEncEcb, ← hc]; exact hR.blockwise h _ _ _
  case feiDecEcb => rw [feiDecEcb, feiDecEcb, ← hc]; exact hR.blockwise h _ _ _
  case teaEnc => rw [teaEnc, teaEnc, ← hc]; exact hR.blockwise h _ _ _
  case teaDec => rw [teaDec, teaDec, ← hc]; exact hR.blockwise h _ _ _
  case xteaEnc => rw [xteaEnc, xteaEnc, ← hc]; exact hR.blockwise h _ _ _
  case xteaDec => rw [xteaDec, xteaDec, ← hc]; exact hR.blockwise h _ _ _
  case feiEncCbc => rw [feiEncCbc, feiEncCbc, ← hc]; exact hR.chainedEnc h _ _ _ _ _
  case feiEncCfb => rw [feiEncCfb, feiEncCfb, ← hc]; exact hR.chainedEnc h _ _ _ _ _
  case feiEncCtr => rw [feiEncCtr, feiEncCtr, ← hc]; exact hR.chainedEnc h _ _ _ _ _
  case feiDecCbc => rw [feiDecCbc, feiDecCbc, ← hc]; exact hR.chainedDec h _ _ _ _ _
  case feiDecCfb => rw [feiDecCfb, feiDecCfb, ← hc]; exact hR.chainedDec h _ _ _ _ _
  case feiDecCtr => rw [feiDecCtr, feiDecCtr, ← hc]; exact hR.chainedDec h _ _ _ _ _

/-- From related states every command ends in related states. -/
theorem exec_related {i : Instr} {R : State → State → Prop} (hR : CommandRelation i.form.unit R) {s s' : State} (h : R s s') :
    ∃ t t', exec i s = .next t ∧ exec i s' = .next t' ∧ R t t' := by
  by_cases hi : i.form.op = .init
  · exact exec_init_related hi hR h
  · cases hk : keyedFlag s i.form.unit with
    | false => exact ⟨_, _, exec_of_not_keyed hi hk, exec_of_not_keyed hi (hR.keyed h ▸ hk), hR.raise h _⟩
    | true => exact exec_data_related hi hR h (hR.context h hk)

/-! ## The context of another unit replaced -/

theorem putOperand_withContextOf (u : CipherUnit) (x s : State) (sp : Space) (v : Bytes) :
    putOperand sp v (withContextOf u x s) = withContextOf u x (putOperand sp v s) := by
  cases u <;> cases sp <;> rfl

theorem withContextOf_comm {u v : CipherUnit} (h : u ≠ v) (x y s : State) :
    withContextOf v y (withContextOf u x s) = withContextOf u x (withContextOf v y s) := by
  cases u <;> cases v <;> first | rfl | exact absurd rfl h

/-- The commands of a unit keep the relation of two states of which the second has another unit's context replaced. -/
theorem commandRelation_withContextOf {u v : CipherUnit} (h : u ≠ v) (x : State) :
    CommandRelation v fun s s' => s' = withContextOf u x s where
  lenOf := by rintro s _ rfl sp -; exact (sameStorage_withContextOf u x s sp).2
  bufOf := by rintro s _ rfl sp -; exact (sameStorage_withContextOf u x s sp).1
  draws := by rintro s _ rfl; cases u <;> rfl
  keyed := by rintro s _ rfl; exact (sameContext_withContextOf h.symm x s).keyedFlag_eq
  context := by rintro s _ rfl -; exact sameContext_withContextOf h.symm x s
  setErr := by rintro s _ c rfl; cases u <;> rfl
  setDraws := by rintro s _ d rfl; cases u <;> rfl
  dropOutput := by rintro s _ rfl; cases u <;> rfl
  put := by rintro s _ sp w rfl; exact putOperand_withContextOf u x s sp w
  load := by rintro s _ y rfl; exact withContextOf_comm h x y s

/-- Settles O16: the replacement is a relation that the commands of every other unit keep. -/
theorem commandsIgnoreContextsOfOtherUnits : Obligations.CommandsIgnoreContextsOfOtherUnits := by
  intro i s x t u hu ht
  obtain ⟨t₁, _, ht₁, hexec, rfl⟩ := exec_related (commandRelation_withContextOf hu x) (rfl : withContextOf u x s = _)
  have heq : t = t₁ := Host.Outcome.next.inj (ht.symm.trans ht₁)
  rw [heq, hexec]

end Sys2Proof.Machine

/-! PROOFS. What the spec leaves unspecified is never observable (10 R32, R48, R55): to be observably equal is a relation that every
command and every host access keeps. -/

namespace Sys2Proof.Machine

/-! ## What is seen of a state -/

theorem lenOf_observable (s : State) (sp : Space) : lenOf (observable s) sp = lenOf s sp := by cases sp <;> rfl

theorem bufOf_observable (s : State) {sp : Space} (h : sp ≠ .dout) : bufOf (observable s) sp = bufOf s sp := by
  cases sp
  case dout => exact absurd rfl h
  all_goals rfl

/-- A context with a key is seen, one without is replaced by the one after reset, which has none either. -/
theorem sameContext_observable {s : State} {u : CipherUnit} (h : keyedFlag s u = true) : SameContext u s (observable s) := by
  cases u <;> exact (if_pos h).symm

theorem keyedFlag_observable (s : State) (u : CipherUnit) : keyedFlag (observable s) u = keyedFlag s u := by
  cases hk : keyedFlag s u with
  | true => rw [(sameContext_observable hk).keyedFlag_eq, hk]
  | false => cases u <;> simp_all [keyedFlag, observable, State.reset]

theorem statusWord_observable (s : State) : statusWord (observable s) = statusWord s := by
  simp only [statusWord, keyedBits, keyedFlag_observable]
  rfl

theorem registerValue_observable (s : State) (r : Register) : registerValue (observable s) r = registerValue s r := by
  cases r
  case status => exact statusWord_observable s
  all_goals rfl

theorem observable_withContextOf (u : CipherUnit) (x s : State) :
    observable (withContextOf u x s) = withContextOf u (observable x) (observable s) := by
  cases u <;> rfl

/-! ## Observable equality -/

/-- Observably equal states whose `DOUTBUF` is in canonical form, so that what is written to it is what is read from it. -/
def Alike (s s' : State) : Prop := s.doutBuf.wf ∧ s'.doutBuf.wf ∧ ObservablyEqual s s'

/-- An update f that leaves `DOUT` and of which no more than the effect g on the observable part is observable keeps states alike. -/
theorem Alike.map_via (f g : State → State) (hobs : ∀ s, observable (f s) = g (observable s))
    (hbuf : ∀ s, (f s).doutBuf = s.doutBuf) (hlen : ∀ s, (f s).doutLen = s.doutLen) {s s' : State} (h : Alike s s') :
    Alike (f s) (f s') := by
  obtain ⟨hw, hw', hsame, hout⟩ := h
  have hdout : ∀ s, operand (f s) .dout = operand s .dout := fun s => by simp [operand, memRead, hbuf, hlen]
  refine ⟨by rwa [hbuf], by rwa [hbuf], by rw [hobs, hobs, hsame], ?_⟩
  rw [hdout, hdout, hout]

/-- An update that leaves `DOUT` and does to the observable part what it does to the whole keeps states alike. -/
theorem Alike.map (f : State → State) (hobs : ∀ s, observable (f s) = f (observable s)) (hbuf : ∀ s, (f s).doutBuf = s.doutBuf)
    (hlen : ∀ s, (f s).doutLen = s.doutLen) {s s' : State} (h : Alike s s') : Alike (f s) (f s') :=
  h.map_via f f hobs hbuf hlen

section
variable {s s' : State}

theorem Alike.lenOf_eq (h : Alike s s') (sp : Space) : lenOf s' sp = lenOf s sp := by
  obtain ⟨-, -, hsame, -⟩ := h
  rw [← lenOf_observable s', ← hsame, lenOf_observable]

theorem Alike.bufOf_eq (h : Alike s s') {sp : Space} (hsp : sp ≠ .dout) : bufOf s' sp = bufOf s sp := by
  obtain ⟨-, -, hsame, -⟩ := h
  rw [← bufOf_observable s' hsp, ← hsame, bufOf_observable s hsp]

theorem Alike.keyedFlag_eq (h : Alike s s') (u : CipherUnit) : keyedFlag s' u = keyedFlag s u := by
  obtain ⟨-, -, hsame, -⟩ := h
  rw [← keyedFlag_observable s', ← hsame, keyedFlag_observable]

theorem Alike.sameContext (h : Alike s s') {u : CipherUnit} (hk : keyedFlag s u = true) : SameContext u s s' := by
  have hk' : keyedFlag s' u = true := by rw [h.keyedFlag_eq, hk]
  obtain ⟨-, -, hsame, -⟩ := h
  exact (sameContext_observable hk).trans (hsame ▸ (sameContext_observable hk').symm)

theorem Alike.registerValue_eq (h : Alike s s') (r : Register) : registerValue s' r = registerValue s r := by
  obtain ⟨-, -, hsame, -⟩ := h
  rw [← registerValue_observable s', ← hsame, registerValue_observable]

theorem Alike.draws_eq (h : Alike s s') : s'.draws = s.draws := by
  obtain ⟨-, -, hsame, -⟩ := h
  exact (congrArg State.draws hsame).symm

theorem Alike.staleReads_eq (h : Alike s s') : s'.staleReads = s.staleReads := by
  obtain ⟨-, -, hsame, -⟩ := h
  exact (congrArg State.staleReads hsame).symm

theorem Alike.pending_eq (h : Alike s s') : s'.pending = s.pending := by
  obtain ⟨-, -, hsame, -⟩ := h
  exact (congrArg State.pending hsame).symm

/-- A byte of `DOUTBUF` below `DOUTLEN` is a byte of the output, which alike states share. -/
theorem Alike.read_dout (h : Alike s s') {o : Nat} (ho : o < s.doutLen) : s'.doutBuf.read o = s.doutBuf.read o := by
  have hlen : s'.doutLen = s.doutLen := h.lenOf_eq .dout
  obtain ⟨-, -, -, hout⟩ := h
  have hbyte : ∀ t : State, t.doutLen = s.doutLen → (operand t .dout)[o]? = some (t.doutBuf.read o) := fun t ht => by
    simp [operand, memRead, Memory.readBytes, ht, ho]
  exact (Option.some.inj (by rw [← hbyte s rfl, ← hbyte s' hlen, hout])).symm

theorem Alike.memWrite (h : Alike s s') {sp : Space} (hsp : sp ≠ .dout) (o : Nat) (v : Bytes) :
    Alike (memWrite s sp o v) (memWrite s' sp o v) := by
  cases sp
  case dout => exact absurd rfl hsp
  all_goals exact h.map (Machine.memWrite · _ o v) (fun _ => rfl) (fun _ => rfl) (fun _ => rfl)

theorem Alike.setLen (h : Alike s s') {sp : Space} (hsp : sp ≠ .dout) (n : Nat) : Alike (setLen s sp n) (setLen s' sp n) := by
  cases sp
  case dout => exact absurd rfl hsp
  all_goals exact h.map (Machine.setLen · _ n) (fun _ => rfl) (fun _ => rfl) (fun _ => rfl)

/-- Whatever `DOUTBUF` held, an output put into it is what `DOUT` holds. -/
theorem Alike.putOutput (h : Alike s s') (v : Bytes) : Alike (putOperand .dout v s) (putOperand .dout v s') := by
  obtain ⟨hw, hw', hsame, -⟩ := h
  refine ⟨Memory.wf_writeBytes hw 0 v, Memory.wf_writeBytes hw' 0 v, ?_, ?_⟩
  · exact congrArg (Machine.setLen · .dout v.length) hsame
  · exact (operand_dout_deliver hw v).trans (operand_dout_deliver hw' v).symm

theorem Alike.putOperand (h : Alike s s') (sp : Space) (v : Bytes) : Alike (putOperand sp v s) (putOperand sp v s') := by
  by_cases hsp : sp = .dout
  · subst hsp
    exact h.putOutput v
  · exact (h.memWrite hsp 0 v).setLen hsp v.length

theorem Alike.dropOutput (h : Alike s s') : Alike { s with doutLen := 0 } { s' with doutLen := 0 } := by
  obtain ⟨hw, hw', hsame, -⟩ := h
  exact ⟨hw, hw', congrArg (fun t : State => { t with doutLen := 0 }) hsame, rfl⟩

theorem Alike.withContextOf (h : Alike s s') (u : CipherUnit) (x : State) : Alike (withContextOf u x s) (withContextOf u x s') :=
  h.map_via (Machine.withContextOf u x) (Machine.withContextOf u (observable x)) (observable_withContextOf u x)
    (fun _ => by cases u <;> rfl) (fun _ => by cases u <;> rfl)

theorem Alike.setPending (h : Alike s s') (rest : List Input) : Alike { s with pending := rest } { s' with pending := rest } :=
  h.map (fun t => { t with pending := rest }) (fun _ => rfl) (fun _ => rfl) (fun _ => rfl)

theorem Alike.setCmd (h : Alike s s') (w : Word) : Alike { s with cmd := w } { s' with cmd := w } :=
  h.map (fun t => { t with cmd := w }) (fun _ => rfl) (fun _ => rfl) (fun _ => rfl)

theorem Alike.setErr (h : Alike s s') (c : BitVec 4) : Alike { s with err := c } { s' with err := c } :=
  h.map (fun t => { t with err := c }) (fun _ => rfl) (fun _ => rfl) (fun _ => rfl)

theorem Alike.setDraws (h : Alike s s') (d : Nat) : Alike { s with draws := d } { s' with draws := d } :=
  h.map (fun t => { t with draws := d }) (fun _ => rfl) (fun _ => rfl) (fun _ => rfl)

theorem Alike.setStaleReads (h : Alike s s') (n : Nat) : Alike { s with staleReads := n } { s' with staleReads := n } :=
  h.map (fun t => { t with staleReads := n }) (fun _ => rfl) (fun _ => rfl) (fun _ => rfl)

theorem Alike.respond (h : Alike s s') (v : Word) : Alike (respond v s) (respond v s') :=
  h.map (Machine.respond v) (fun _ => rfl) (fun _ => rfl) (fun _ => rfl)

theorem Alike.noResponse (h : Alike s s') : Alike (noResponse s) (noResponse s') :=
  h.map Machine.noResponse (fun _ => rfl) (fun _ => rfl) (fun _ => rfl)

end

/-- No command, whatever its unit, tells alike states apart. -/
theorem commandRelation_alike (u : CipherUnit) : CommandRelation u Alike where
  lenOf h sp _ := h.lenOf_eq sp
  bufOf h _ hsp := h.bufOf_eq hsp
  draws h := h.draws_eq
  keyed h := h.keyedFlag_eq u
  context h hk := h.sameContext hk
  setErr c h := h.setErr c
  setDraws d h := h.setDraws d
  dropOutput h := h.dropOutput
  put sp v h := h.putOperand sp v
  load x h := h.withContextOf u x

/-! ## Host accesses and the step -/

section
variable {s s' : State}

theorem Alike.sameEnd_next (h : Alike s s') : SameEnd (.next s) (.next s') := by
  obtain ⟨-, -, hsame⟩ := h
  exact hsame

/-- 10 R32: a byte of `DOUTBUF` at or beyond `DOUTLEN`. -/
theorem readBufferByte_stale {o : Nat} (h : s.doutLen ≤ o) :
    readBufferByte .dout o s =
      respond ((Config.staleByte s.staleReads).setWidth 32) { s with staleReads := s.staleReads + 1 } := if_pos ⟨rfl, h⟩

/-- 10 R32: any other byte. -/
theorem readBufferByte_held {sp : Space} {o : Nat} (h : sp ≠ .dout ∨ o < s.doutLen) :
    readBufferByte sp o s = respond (((bufOf s sp).read o).setWidth 32) s :=
  if_neg fun hstale => h.elim (fun hsp => hsp hstale.1) (Nat.not_lt.2 hstale.2)

/-- A byte at or beyond `DOUTLEN` reads as a free value, any other as what both states hold. -/
theorem Alike.readBufferByte (h : Alike s s') (sp : Space) (o : Nat) : Alike (readBufferByte sp o s) (readBufferByte sp o s') := by
  have hlen : s'.doutLen = s.doutLen := h.lenOf_eq .dout
  by_cases hstale : sp = .dout ∧ s.doutLen ≤ o
  · obtain ⟨rfl, ho⟩ := hstale
    rw [readBufferByte_stale ho, readBufferByte_stale (hlen ▸ ho), h.staleReads_eq]
    exact (h.setStaleReads (s.staleReads + 1)).respond _
  · have hheld : sp ≠ .dout ∨ o < s.doutLen := by rwa [not_and_or, Nat.not_le] at hstale
    have hread : (bufOf s' sp).read o = (bufOf s sp).read o := by
      by_cases hsp : sp = .dout
      · subst hsp
        exact h.read_dout (hheld.resolve_left (not_not_intro rfl))
      · rw [h.bufOf_eq hsp]
    rw [readBufferByte_held hheld, readBufferByte_held (hlen ▸ hheld), hread]
    exact h.respond _

theorem ne_dout_of_hostWritable {sp : Space} (h : hostWritable sp = true) : sp ≠ .dout := by
  rintro rfl
  cases h

theorem Alike.writeBufferByte (h : Alike s s') (sp : Space) (o : Nat) (b : Byte) :
    Alike (writeBufferByte sp o b s) (writeBufferByte sp o b s') := by
  unfold Machine.writeBufferByte
  split
  next hw => exact h.memWrite (ne_dout_of_hostWritable hw) o [b]
  next => exact h

theorem Alike.writeLength (h : Alike s s') (P : Config.Params) (sp : Space) (v : Word) :
    Alike (writeLength P sp v s) (writeLength P sp v s') := by
  unfold Machine.writeLength
  split
  next hw => exact h.setLen (ne_dout_of_hostWritable hw.1) v.toNat
  next => exact h

theorem Alike.exec (h : Alike s s') (i : Instr) : SameEnd (exec i s) (exec i s') := by
  obtain ⟨t, t', ht, ht', hend⟩ := exec_related (commandRelation_alike i.form.unit) h
  rw [ht, ht']
  exact hend.sameEnd_next

theorem Alike.writeCommand (h : Alike s s') (w : Word) : SameEnd (writeCommand w s) (writeCommand w s') := by
  cases hd : decode w with
  | ok i =>
    rw [writeCommand_ok hd, writeCommand_ok hd]
    exact (h.setCmd w).exec i
  | error e =>
    rw [writeCommand_error hd, writeCommand_error hd]
    exact ((commandRelation_alike .fei).raise (h.setCmd w) _).sameEnd_next

theorem Alike.writeRegister (h : Alike s s') (P : Config.Params) (r : Register) (v : Word) :
    SameEnd (writeRegister P r v s) (writeRegister P r v s') := by
  cases r
  case cmd => exact h.writeCommand v
  case status => exact h.sameEnd_next
  all_goals exact (h.writeLength P _ v).sameEnd_next

theorem Alike.hostRead (h : Alike s s') (P : Config.Params) (size : AccessSize) (a : Nat) :
    SameEnd (hostRead P size a s) (hostRead P size a s') := by
  unfold Machine.hostRead
  split
  next r _ => rw [h.registerValue_eq r]; exact (h.respond _).sameEnd_next
  next sp o _ => exact (h.readBufferByte sp o).sameEnd_next
  next => exact (h.respond 0).sameEnd_next
  next => rfl

theorem Alike.hostWrite (h : Alike s s') (P : Config.Params) (size : AccessSize) (a : Nat) (v : Word) :
    SameEnd (hostWrite P size a v s) (hostWrite P size a v s') := by
  have hquiet := h.noResponse
  unfold Machine.hostWrite
  split
  next r _ => exact hquiet.writeRegister P r v
  next sp o _ => exact (hquiet.writeBufferByte sp o _).sameEnd_next
  next => exact hquiet.sameEnd_next
  next => rfl

/-- A reset leaves nothing of the state that is not observable. -/
theorem Alike.applyReset_eq (h : Alike s s') : applyReset s = applyReset s' := by
  rw [applyReset, applyReset, h.pending_eq, h.draws_eq, h.staleReads_eq]

theorem Alike.applyInput (h : Alike s s') (P : Config.Params) (i : Input) : SameEnd (applyInput P i s) (applyInput P i s') := by
  cases i with
  | access a =>
    cases a with
    | read size o => exact h.hostRead P size o
    | write size o v => exact h.hostWrite P size o v
  | reset =>
    rw [Machine.applyInput, Machine.applyInput, h.applyReset_eq]
    exact ⟨rfl, rfl⟩

end

/-- Settles O19: alike states take the same input, and no command and no host access tells them apart. -/
theorem unspecifiedStateIsNeverObservable : Obligations.UnspecifiedStateIsNeverObservable := by
  intro s s' hw hw' hsame
  have h : Alike s s' := ⟨hw, hw', hsame⟩
  cases hp : s.pending with
  | nil =>
    rw [step_nil hp, step_nil (h.pending_eq.trans hp)]
    exact h.sameEnd_next
  | cons i rest =>
    rw [step_cons hp, step_cons (h.pending_eq.trans hp)]
    exact (h.setPending rest).applyInput params i

end Sys2Proof.Machine

/-! PROOFS. Host accesses and the reset (10 R32 to R38, R55; 20 R73; 70 R310): the step each of them makes. -/

namespace Sys2Proof.Machine

/-! ## Reset (10 R55) -/

theorem statusWord_reset : statusWord State.reset = 0 := by decide

theorem statusWord_applyReset (s : State) : statusWord (applyReset s) = 0 := statusWord_reset

theorem keyedFlag_applyReset (s : State) (u : CipherUnit) : keyedFlag (applyReset s) u = false := by cases u <;> rfl

theorem step_reset {s : State} {rest : List Input} (h : s.pending = .reset :: rest) :
    step s = .next (applyReset { s with pending := rest }) := step_cons h

/-- Settles O6: the step of a reset is `applyReset`, and both it and the state at the start have the reset values. -/
theorem resetLeavesTheSpecifiedValues : Obligations.ResetLeavesTheSpecifiedValues := by
  refine ⟨fun s rest h => ?_, rfl, statusWord_reset, rfl, rfl, rfl, rfl, fun _ => ⟨rfl, rfl, rfl⟩⟩
  exact ⟨_, step_reset h, rfl, rfl, statusWord_applyReset _, rfl, rfl, rfl, rfl, keyedFlag_applyReset _, fun _ => ⟨rfl, rfl, rfl⟩⟩

/-- Settles O7: empty memories, lengths of 0 and the code 0. -/
theorem resetMeetsTheInvariant : Obligations.ResetMeetsTheInvariant := ⟨fits_reset, canonical_reset, Nat.zero_le _⟩

/-! ## The fields of `STATUS` (10 R35) -/

/-- `ERR` in 3:0, zeros in 7:4, the six flags from bit 8 on, zeros above. -/
theorem getLsbD_statusWord (s : State) (i : Nat) :
    (statusWord s).getLsbD i = if i < 4 then s.err.getLsbD i else if i < 8 then false else (keyedBits s).getLsbD (i - 8) := by
  have hsub : i - 4 - 4 = i - 8 := by omega
  simp only [statusWord, BitVec.getLsbD_append, BitVec.getLsbD_zero, hsub]
  split
  next => rfl
  next h4 =>
    have h8 : i - 4 < 4 ↔ i < 8 := by omega
    simp only [h8]
    split
    next => rfl
    next =>
      split
      next => rfl
      next h6 => exact (BitVec.getLsbD_of_ge _ _ (Nat.le_of_not_lt h6)).symm

theorem statusWord_err (s : State) : (statusWord s).extractLsb' 0 4 = s.err := by
  refine BitVec.eq_of_getLsbD_eq fun i hi => ?_
  simp [getLsbD_statusWord, hi]

theorem statusWord_reserved_low (s : State) : (statusWord s).extractLsb' 4 4 = 0 := by
  refine BitVec.eq_of_getLsbD_eq fun i hi => ?_
  simp [getLsbD_statusWord, show 4 + i < 8 by omega]

theorem statusWord_reserved_high (s : State) : (statusWord s).extractLsb' 14 18 = 0 := by
  refine BitVec.eq_of_getLsbD_eq fun i hi => ?_
  have hbeyond : (keyedBits s).getLsbD (14 + i - 8) = false := BitVec.getLsbD_of_ge _ _ (by omega)
  simp [getLsbD_statusWord, hbeyond, show ¬ 14 + i < 4 by omega, show ¬ 14 + i < 8 by omega]

/-- `KEYED[u]` is bit u of the six, u numbered as in 30 R102. -/
theorem getLsbD_keyedBits (s : State) (u : CipherUnit) : (keyedBits s).getLsbD u.code.toNat = keyedFlag s u := by
  rw [keyedBits]
  simp only [BitVec.getLsbD_append, BitVec.getLsbD_ofBool]
  cases u <;> rfl

theorem statusWord_keyed (s : State) (u : CipherUnit) : (statusWord s).getLsbD (8 + u.code.toNat) = keyedFlag s u := by
  rw [getLsbD_statusWord, if_neg (by omega), if_neg (by omega), Nat.add_sub_cancel_left, getLsbD_keyedBits]

/-! ## Reads -/

theorem step_readReg {s : State} {r : Register} {rest : List Input} (h : s.pending = readReg r :: rest) :
    step s = .next { s with pending := rest, response := some (registerValue s r) } := by
  rw [step_cons h, applyInput_readReg]
  cases r <;> rfl

/-- Settles O54: the response is `registerValue`, and `STATUS` is read field by field. -/
theorem hostReadsRegisters : Obligations.HostReadsRegisters := by
  intro s r rest h
  refine ⟨_, step_readReg h, ?_⟩
  cases r
  case status =>
    exact ⟨statusWord_err s, statusWord_reserved_low s, statusWord_keyed s .fei, statusWord_keyed s .spn, statusWord_keyed s .tea,
      statusWord_keyed s .xtea, statusWord_keyed s .xxt, statusWord_keyed s .str, statusWord_reserved_high s⟩
  all_goals rfl

theorem step_readByte {s : State} {sp : Space} {o : Nat} {rest : List Input} (ho : o < capOf params sp)
    (h : s.pending = readByte sp o :: rest) : step s = .next (readBufferByte sp o { s with pending := rest }) := by
  rw [step_cons h, applyInput_readByte params sp ho]

/-- Settles O55: the byte held, or a free value beyond `DOUTLEN`. -/
theorem hostReadsBufferBytes : Obligations.HostReadsBufferBytes := by
  intro s sp o rest ho h
  rw [step_readByte ho h]
  constructor
  · intro hheld
    rw [readBufferByte_held (s := { s with pending := rest }) hheld]
    cases sp <;> rfl
  · rintro rfl hstale
    rw [readBufferByte_stale (s := { s with pending := rest }) hstale]
    rfl

/-! ## Writes -/

theorem step_writeReg {s : State} {r : Register} {v : Word} {rest : List Input} (h : s.pending = writeReg r v :: rest) :
    step s = writeRegister params r v { s with pending := rest, response := none } := by
  rw [step_cons h, applyInput_writeReg]
  rfl

/-- A length above the capacity leaves the length there was. -/
theorem writeLength_eq_setLen (P : Config.Params) {sp : Space} (hsp : sp ≠ .dout) (v : Word) (s : State) :
    writeLength P sp v s = setLen s sp (if v.toNat ≤ capOf P sp then v.toNat else lenOf s sp) := by
  have hw : hostWritable sp = true := by
    cases sp
    case dout => exact absurd rfl hsp
    all_goals rfl
  have hkeep : setLen s sp (lenOf s sp) = s := by cases sp <;> rfl
  unfold writeLength
  by_cases hv : v.toNat ≤ capOf P sp
  · rw [if_pos ⟨hw, hv⟩, if_pos hv]
  · rw [if_neg fun h => hv h.2, if_neg hv, hkeep]

/-- Settles O56: the three registers by one equation for a written length. -/
theorem hostWritesLengths : Obligations.HostWritesLengths := by
  intro s v rest
  refine ⟨fun h => ?_, fun h => ?_, fun h => ?_⟩
  all_goals
    rw [step_writeReg h]
    simp only [writeRegister]
    rw [writeLength_eq_setLen params (by decide)]
    rfl

theorem step_writeByte {s : State} {sp : Space} {o : Nat} {b : Byte} {rest : List Input} (ho : o < capOf params sp)
    (h : s.pending = writeByte sp o b :: rest) :
    step s = .next (writeBufferByte sp o b { s with pending := rest, response := none }) := by
  rw [step_cons h, applyInput_writeByte params sp ho]
  rfl

/-- The byte written reads as written, every other byte of every buffer as before. -/
theorem read_memWrite_byte {s : State} (hc : Canonical s) (sp : Space) (o : Nat) (b : Byte) (sp' : Space) (a : Nat) :
    (bufOf (memWrite s sp o [b]) sp').read a = if sp' = sp ∧ a = o then b else (bufOf s sp').read a := by
  rw [bufOf_memWrite]
  by_cases hsp : sp' = sp
  · subst hsp
    have hw := (canonical_iff s).1 hc sp'
    simp only [if_true, true_and]
    exact Memory.read_write hw o a b
  · rw [if_neg hsp, if_neg fun h => hsp h.1]

/-- Settles O57: the write is `memWrite` of one byte. -/
theorem hostWritesBufferBytes : Obligations.HostWritesBufferBytes := by
  intro s sp o b rest hc hsp ho h
  have hc' : Canonical { s with pending := rest, response := none } := hc
  refine ⟨memWrite { s with pending := rest, response := none } sp o [b], ?_, ?_, ?_, ?_⟩
  · rw [step_writeByte ho h]
    cases sp
    case dout => exact absurd rfl hsp
    all_goals rfl
  · cases sp
    case dout => exact absurd rfl hsp
    all_goals rfl
  · rw [read_memWrite_byte hc', if_pos ⟨rfl, rfl⟩]
  · intro sp' a hother
    rw [read_memWrite_byte hc', if_neg (by tauto)]
    cases sp' <;> rfl

/-! ## Read-only and reserved locations -/

theorem step_write_reserved {s : State} {size : AccessSize} {a : Nat} {v : Word} {rest : List Input}
    (ht : targetOf params size a = .reserved) (h : s.pending = .access (.write size a v) :: rest) :
    step s = .next { s with pending := rest, response := none } := by
  simp only [step_cons h, applyInput, hostWrite, ht]
  rfl

theorem step_read_reserved {s : State} {size : AccessSize} {a : Nat} {rest : List Input}
    (ht : targetOf params size a = .reserved) (h : s.pending = .access (.read size a) :: rest) :
    step s = .next { s with pending := rest, response := some 0 } := by
  simp only [step_cons h, applyInput, hostRead, ht]
  rfl

/-- Settles O58: writes to the read-only locations store nothing, and the reserved ranges are the target `reserved`. -/
theorem readOnlyAndReservedLocations : Obligations.ReadOnlyAndReservedLocations := by
  intro s v rest
  constructor
  · rintro i (rfl | rfl | ⟨o, b, ho, rfl⟩) h
    · rw [step_writeReg h]; rfl
    · rw [step_writeReg h]; rfl
    · rw [step_writeByte (sp := .dout) ho h]; rfl
  · intro size a hrange
    have ht : targetOf params size a = .reserved := by
      rcases hrange with hlow | hmid | ⟨rfl, habove⟩
      · exact targetOf_reserved params (.inl hlow)
      · exact targetOf_reserved params (.inr hmid)
      · exact targetOf_aboveBuffer params habove
    exact ⟨step_write_reserved ht, step_read_reserved ht⟩

end Sys2Proof.Machine

/-! PROOFS. What a command leaves as it was (20 R71): the host's side, each operand space, and the draws. -/

namespace Sys2Proof.Machine

/-! ## One operand space after an update -/

/-- The two states hold the same bytes and length in one operand space. -/
def SameSpace (sp : Space) (s t : State) : Prop := bufOf t sp = bufOf s sp ∧ lenOf t sp = lenOf s sp

theorem SameStorage.sameSpace {s t : State} (h : SameStorage s t) (sp : Space) : SameSpace sp s t := h sp

theorem SameSpace.refl (sp : Space) (s : State) : SameSpace sp s s := ⟨rfl, rfl⟩

theorem SameSpace.trans {sp : Space} {s t r : State} (h : SameSpace sp s t) (h' : SameSpace sp t r) : SameSpace sp s r :=
  ⟨h'.1.trans h.1, h'.2.trans h.2⟩

theorem SameSpace.read_eq {sp : Space} {s t : State} (h : SameSpace sp s t) (a : Nat) :
    (bufOf t sp).read a = (bufOf s sp).read a := by rw [h.1]

theorem sameSpace_setLen {sp sp' : Space} (h : sp ≠ sp') (s : State) (n : Nat) : SameSpace sp s (setLen s sp' n) :=
  ⟨bufOf_setLen s sp' n sp, by rw [lenOf_setLen, if_neg h]⟩

theorem sameSpace_memWrite {sp sp' : Space} (h : sp ≠ sp') (s : State) (o : Nat) (v : Bytes) :
    SameSpace sp s (memWrite s sp' o v) :=
  ⟨by rw [bufOf_memWrite, if_neg h], lenOf_memWrite s sp' o v sp⟩

theorem sameSpace_putOperand {sp sp' : Space} (h : sp ≠ sp') (s : State) (v : Bytes) : SameSpace sp s (putOperand sp' v s) :=
  (sameSpace_memWrite h s 0 v).trans (sameSpace_setLen h _ v.length)

theorem sameSpace_resolveOperand {sp sp' : Space} {s : State} (h : sp ≠ sp' ∨ lenOf s sp' ≠ 0) (n : Nat) :
    SameSpace sp s (resolveOperand sp' n s) := by
  by_cases hempty : lenOf s sp' = 0
  · rw [resolveOperand_of_eq n hempty]
    exact ((sameStorage_bookkeeping s).sameSpace sp).trans (sameSpace_putOperand (h.resolve_right (not_not_intro hempty)) _ _)
  · rw [resolveOperand_of_ne n hempty]
    exact .refl sp s

theorem sameSpace_raise {sp : Space} (h : sp ≠ .dout) (e : ErrorKind) (s : State) : SameSpace sp s (raise e s) :=
  (sameSpace_setLen h s 0).trans ((sameStorage_raise e s).sameSpace sp)

theorem sameSpace_deliver {sp : Space} (h : sp ≠ .dout) (out : Bytes) (s : State) : SameSpace sp s (deliver out s) :=
  (sameSpace_putOperand h s out).trans ((sameStorage_deliver out s).sameSpace sp)

/-- How a key load ends: the code 0, and no output. -/
theorem sameSpace_emptyOutput {sp : Space} (h : sp ≠ .dout) (s : State) : SameSpace sp s { s with err := 0, doutLen := 0 } :=
  (sameSpace_setLen h s 0).trans ((sameStorage_bookkeeping (setLen s .dout 0)).sameSpace sp)

/-! ## The operand spaces after a command -/

/-- The command finds no empty `KEY` that it would replace. -/
def KeyGiven (i : Instr) (s : State) : Prop := i.form.op ≠ .init ∨ s.keyLen ≠ 0

/-- The command finds no empty `IV` that it would replace. -/
def IvGiven (i : Instr) (s : State) : Prop := resolvesIv i = false ∨ s.ivLen ≠ 0

theorem KeyGiven.keyLen_ne {i : Instr} {s : State} (h : KeyGiven i s) (hinit : i.form.op = .init) : s.keyLen ≠ 0 :=
  h.resolve_left (not_not_intro hinit)

theorem IvGiven.ivLen_ne {i : Instr} {s : State} (h : IvGiven i s) (hres : resolvesIv i = true) : s.ivLen ≠ 0 :=
  h.resolve_left fun hnot => Bool.noConfusion (hres.symm.trans hnot)

/-- Before its output, a data command stores nothing but an `IV`. -/
theorem Prepared.sameSpace {i : Instr} {s r : State} (h : Prepared i s r) {sp : Space}
    (hiv : sp = .iv → IvGiven i s ∧ i ≠ .spnDecCbc) : SameSpace sp s r := by
  rcases h with rfl | ⟨hres, n, -, rfl⟩ | ⟨hcbc, v, -, rfl⟩ | ⟨-, n, rfl⟩
  · exact .refl sp r
  · refine sameSpace_resolveOperand ?_ n
    by_cases hsp : sp = .iv
    · exact .inr ((hiv hsp).1.ivLen_ne hres)
    · exact .inl hsp
  · exact sameSpace_putOperand (fun hsp => (hiv hsp).2 hcbc) s v
  · exact (sameStorage_withContextOf .str (advanceStr params n s) s).sameSpace sp

/-- Of the spaces other than `DOUT`, a command stores only into an empty `KEY`, an empty `IV`, and the `IV` of `SPN.DEC.CBC`. -/
theorem exec_sameSpace {i : Instr} {s t : State} (ht : exec i s = .next t) {sp : Space} (hdout : sp ≠ .dout)
    (hkey : sp = .key → KeyGiven i s) (hiv : sp = .iv → IvGiven i s ∧ i ≠ .spnDecCbc) : SameSpace sp s t := by
  rcases exec_cases ht with ⟨e, rfl⟩ | ⟨hinit, n, x, -, -, rfl⟩ | ⟨-, -, out, r, -, hr, rfl⟩
  · exact sameSpace_raise hdout e s
  · have hres : SameSpace sp s (resolveOperand .key n s) := by
      refine sameSpace_resolveOperand ?_ n
      by_cases hsp : sp = .key
      · exact .inr ((hkey hsp).keyLen_ne hinit)
      · exact .inl hsp
    exact (hres.trans ((sameStorage_withContextOf i.form.unit x _).sameSpace sp)).trans (sameSpace_emptyOutput hdout _)
  · exact (hr.sameSpace hiv).trans (sameSpace_deliver hdout out r)

/-! ## The host's side and the draws after a command -/

/-- The two states hold the same `CMD`, the same accesses yet to come, the same response and the same count of stale reads. -/
def SameHostSide (s t : State) : Prop :=
  t.cmd = s.cmd ∧ t.pending = s.pending ∧ t.response = s.response ∧ t.staleReads = s.staleReads

theorem SameHostSide.trans {s t r : State} (h : SameHostSide s t) (h' : SameHostSide t r) : SameHostSide s r := by
  obtain ⟨hcmd, hpending, hresponse, hstale⟩ := h
  obtain ⟨hcmd', hpending', hresponse', hstale'⟩ := h'
  exact ⟨hcmd'.trans hcmd, hpending'.trans hpending, hresponse'.trans hresponse, hstale'.trans hstale⟩

theorem sameHostSide_withContextOf (u : CipherUnit) (x s : State) : SameHostSide s (withContextOf u x s) := by
  cases u <;> exact ⟨rfl, rfl, rfl, rfl⟩

theorem sameHostSide_resolveOperand (sp : Space) (n : Nat) (s : State) : SameHostSide s (resolveOperand sp n s) :=
  ⟨resolveOperand_cmd s sp n, resolveOperand_pending s sp n, resolveOperand_response s sp n, resolveOperand_staleReads s sp n⟩

theorem Prepared.sameHostSide {i : Instr} {s r : State} (h : Prepared i s r) : SameHostSide s r := by
  rcases h with rfl | ⟨-, n, -, rfl⟩ | ⟨-, v, -, rfl⟩ | ⟨-, n, rfl⟩
  · exact ⟨rfl, rfl, rfl, rfl⟩
  · exact sameHostSide_resolveOperand .iv n s
  · exact ⟨rfl, rfl, rfl, rfl⟩
  · exact ⟨rfl, rfl, rfl, rfl⟩

theorem exec_sameHostSide {i : Instr} {s t : State} (ht : exec i s = .next t) : SameHostSide s t := by
  rcases exec_cases ht with ⟨e, rfl⟩ | ⟨-, n, x, -, -, rfl⟩ | ⟨-, -, out, r, -, hr, rfl⟩
  · exact ⟨rfl, rfl, rfl, rfl⟩
  · exact (sameHostSide_resolveOperand .key n s).trans (sameHostSide_withContextOf i.form.unit x _)
  · exact hr.sameHostSide

@[simp] theorem withContextOf_draws (u : CipherUnit) (x s : State) : (withContextOf u x s).draws = s.draws := by cases u <;> rfl

theorem Prepared.draws_eq {i : Instr} {s r : State} (h : Prepared i s r) (hiv : IvGiven i s) : r.draws = s.draws := by
  rcases h with rfl | ⟨hres, n, -, rfl⟩ | ⟨-, v, -, rfl⟩ | ⟨-, n, rfl⟩
  · rfl
  · rw [resolveOperand_of_ne (sp := .iv) n (hiv.ivLen_ne hres)]
  · rfl
  · rfl

/-- A command draws only for an empty `KEY` or `IV`. -/
theorem exec_draws {i : Instr} {s t : State} (ht : exec i s = .next t) (hkey : KeyGiven i s) (hiv : IvGiven i s) :
    t.draws = s.draws := by
  rcases exec_cases ht with ⟨e, rfl⟩ | ⟨hinit, n, x, -, -, rfl⟩ | ⟨-, -, out, r, -, hr, rfl⟩
  · rfl
  · rw [resolveOperand_of_ne (sp := .key) n (hkey.keyLen_ne hinit)]
    exact withContextOf_draws i.form.unit x s
  · exact hr.draws_eq hiv

/-- Settles O17: by what a command can do, space by space. -/
theorem commandsTouchOnlyTheirSpaces : Obligations.CommandsTouchOnlyTheirSpaces := by
  intro i s t ht
  obtain ⟨hcmd, hpending, hresponse, hstale⟩ := exec_sameHostSide ht
  have hdin : SameSpace .din s t := exec_sameSpace ht (by decide) nofun nofun
  refine ⟨hcmd, hpending, hresponse, hstale, ⟨hdin.2, hdin.read_eq⟩, fun hkey => ?_, fun hiv hcbc => ?_, exec_draws ht⟩
  · have hkeySpace : SameSpace .key s t := exec_sameSpace ht (by decide) (fun _ => hkey) nofun
    exact ⟨hkeySpace.2, hkeySpace.read_eq⟩
  · have hivSpace : SameSpace .iv s t := exec_sameSpace ht (by decide) nofun fun _ => ⟨hiv, hcbc⟩
    exact ⟨hivSpace.2, hivSpace.read_eq⟩

end Sys2Proof.Machine

/-! PROOFS. Accesses outside the interface (20 R73): a target that is not supported is refused, whether read or written. -/

namespace Sys2Proof.Machine

theorem step_unsupported {s : State} {size : AccessSize} {a : Nat} {v : Word} {x : HostAccess} {rest : List Input}
    (hx : x = .read size a ∨ x = .write size a v) (h : s.pending = .access x :: rest)
    (ht : targetOf params size a = .unsupported) : step s = .refused (.outsideInterface size a) := by
  rcases hx with rfl | rfl
  · simp only [step_cons h, applyInput, hostRead, ht]
  · simp only [step_cons h, applyInput, hostWrite, ht]

/-- Settles O59: each of the three ranges is the target `unsupported`, which a read and a write refuse alike. -/
theorem accessesOutsideTheInterfaceStop : Obligations.AccessesOutsideTheInterfaceStop := by
  intro s size a v x rest hx h
  refine ⟨fun ha hbad => ?_, fun hwide ⟨k, hk, hwindow⟩ => ?_, fun ha => ?_⟩
  · exact step_unsupported hx h (targetOf_register_unsupported params ha hbad)
  · exact step_unsupported hx h (targetOf_wide params hwide ⟨k, hk, hwindow.imp_right And.left⟩)
  · exact step_unsupported hx h (targetOf_outside params size ha)

end Sys2Proof.Machine

/-! PROOFS. The opcode map (30 R105): the four fields of a word determine it, the numbers of a unit, an operation and a mode determine
them, and so a word decodes to a command exactly when it is the command's own word. -/

namespace Sys2Proof

open Machine (opcodeMap)

/-! ## The fields of a word (30 R100) -/

/-- A word is its four fields put together. -/
theorem append_fields (w : Word) : zeroField w ++ unitField w ++ opField w ++ modeField w = w := by
  apply BitVec.eq_of_getLsbD_eq
  intro k hk
  simp only [zeroField, unitField, opField, modeField, BitVec.getLsbD_append, BitVec.getLsbD_extractLsb']
  grind

/-- The fields at bits 7:5, 4:2 and 1:0 weigh 32, 4 and 1. -/
theorem toNat_encodeForm (f : Form) :
    (encodeForm f).toNat = f.unit.code.toNat * 32 + f.op.code.toNat * 4 + f.mode.code.toNat := by
  unfold encodeForm
  rw [BitVec.toNat_append, ← Nat.shiftLeft_add_eq_or_of_lt f.mode.code.isLt, Nat.shiftLeft_eq,
    BitVec.toNat_append, ← Nat.shiftLeft_add_eq_or_of_lt f.op.code.isLt, Nat.shiftLeft_eq,
    BitVec.toNat_append, ← Nat.shiftLeft_add_eq_or_of_lt f.unit.code.isLt, Nat.shiftLeft_eq, BitVec.toNat_ofNat]
  omega

/-! ## The numbers of units, operations and modes (30 R102 to R104) -/

@[simp] theorem decodeUnit_code (u : CipherUnit) : decodeUnit u.code = some u := by cases u <;> rfl

@[simp] theorem decodeOp_code (o : Op) : decodeOp o.code = some o := by cases o <;> rfl

@[simp] theorem decodeMode_code (m : Mode) : decodeMode m.code = m := by cases m <;> rfl

theorem code_eq_of_decodeUnit {b : BitVec 3} {u : CipherUnit} (h : decodeUnit b = some u) : u.code = b := by
  revert b u
  decide

theorem code_eq_of_decodeOp {b : BitVec 3} {o : Op} (h : decodeOp b = some o) : o.code = b := by
  revert b o
  decide

/-- Every number of two bits is that of a mode. -/
@[simp] theorem code_decodeMode (b : BitVec 2) : (decodeMode b).code = b := by
  revert b
  decide

/-! ## The form of a command -/

/-- The laws of each command's encoding, for every command. -/
theorem encoding_statement : ∀ i, Laws.Encoding.Statement i
  | .feiInit => Laws.Encoding.feiInit
  | .feiEncb => Laws.Encoding.feiEncb
  | .feiDecb => Laws.Encoding.feiDecb
  | .feiEncEcb => Laws.Encoding.feiEncEcb
  | .feiEncCbc => Laws.Encoding.feiEncCbc
  | .feiEncCfb => Laws.Encoding.feiEncCfb
  | .feiEncCtr => Laws.Encoding.feiEncCtr
  | .feiDecEcb => Laws.Encoding.feiDecEcb
  | .feiDecCbc => Laws.Encoding.feiDecCbc
  | .feiDecCfb => Laws.Encoding.feiDecCfb
  | .feiDecCtr => Laws.Encoding.feiDecCtr
  | .spnInit => Laws.Encoding.spnInit
  | .spnEncb => Laws.Encoding.spnEncb
  | .spnDecb => Laws.Encoding.spnDecb
  | .spnEncEcb => Laws.Encoding.spnEncEcb
  | .spnEncCbc => Laws.Encoding.spnEncCbc
  | .spnDecEcb => Laws.Encoding.spnDecEcb
  | .spnDecCbc => Laws.Encoding.spnDecCbc
  | .teaInit => Laws.Encoding.teaInit
  | .teaEnc => Laws.Encoding.teaEnc
  | .teaDec => Laws.Encoding.teaDec
  | .xteaInit => Laws.Encoding.xteaInit
  | .xteaEnc => Laws.Encoding.xteaEnc
  | .xteaDec => Laws.Encoding.xteaDec
  | .xxtInit => Laws.Encoding.xxtInit
  | .xxtEnc => Laws.Encoding.xxtEnc
  | .xxtDec => Laws.Encoding.xxtDec
  | .strInit => Laws.Encoding.strInit
  | .strEnc => Laws.Encoding.strEnc
  | .strDec => Laws.Encoding.strDec
  | .strKsb => Laws.Encoding.strKsb

theorem wellFormed_instr (i : Instr) : i.wellFormed = true := (encoding_statement i).1

/-- A form names a command only if it is that command's form. -/
theorem form_eq_of_instrOfForm {f : Form} {i : Instr} (h : instrOfForm f = some i) : i.form = f := by
  obtain ⟨u, o, m⟩ := f
  unfold instrOfForm at h
  split at h
  all_goals cases h
  all_goals simp_all [Instr.form]

/-! ## Decoding and encoding -/

/-- A command's word decodes to the command. -/
theorem decode_encode (i : Instr) : decode (encode i) = .ok i := by
  obtain ⟨hwf, hinstr, hzero, hunit, hop, hmode⟩ := encoding_statement i
  have hexists : i.form.opExists = true := (Bool.and_eq_true_iff.1 hwf).1
  simp [decode, hzero, hunit, hop, hmode, hexists, hinstr]

/-- The four fields of a word that decodes. -/
theorem fields_of_decode {w : Word} {i : Instr} (h : decode w = .ok i) :
    zeroField w = 0 ∧ i.form.unit.code = unitField w ∧ i.form.op.code = opField w ∧ i.form.mode.code = modeField w := by
  unfold decode at h
  split at h
  · cases h
  next hzero =>
    split at h
    · cases h
    · cases h
    next u o hunit hop =>
      simp only at h
      split at h
      · cases h
      · split at h
        · cases h
        next j hinstr =>
          cases h
          rw [form_eq_of_instrOfForm hinstr]
          exact ⟨not_not.1 hzero, code_eq_of_decodeUnit hunit, code_eq_of_decodeOp hop, code_decodeMode _⟩

/-- A word decodes to a command exactly when it is the command's word. -/
theorem decode_eq_ok_iff {w : Word} {i : Instr} : decode w = .ok i ↔ w = encode i := by
  constructor
  · intro h
    obtain ⟨hzero, hunit, hop, hmode⟩ := fields_of_decode h
    calc w = zeroField w ++ unitField w ++ opField w ++ modeField w := (append_fields w).symm
      _ = encode i := by rw [hzero, ← hunit, ← hop, ← hmode]; rfl
  · rintro rfl
    exact decode_encode i

/-! ## The opcode map -/

/-- The word that the map lists for a command is the one the encoder gives. -/
theorem encode_eq_of_mem_opcodeMap : ∀ p ∈ opcodeMap, p.2 = encode p.1 := by decide

/-- The map lists every command. -/
theorem mem_opcodeMap_encode (i : Instr) : (i, encode i) ∈ opcodeMap := by cases i <;> decide

theorem mem_opcodeMap_iff {w : Word} {i : Instr} : (i, w) ∈ opcodeMap ↔ w = encode i :=
  ⟨encode_eq_of_mem_opcodeMap (i, w), fun h => h ▸ mem_opcodeMap_encode i⟩

/-- Settles O1: to decode to a command and to be listed for it both say that the word is the command's own. -/
theorem decodeAndEncodeAgreeWithTheOpcodeMap : Obligations.DecodeAndEncodeAgreeWithTheOpcodeMap :=
  ⟨fun _ _ => decode_eq_ok_iff.trans mem_opcodeMap_iff.symm,
    fun i => ⟨wellFormed_instr i, mem_opcodeMap_encode i, decode_encode i, toNat_encodeForm i.form⟩⟩

/-! ## Sample words -/

theorem decodeTableWord_encode (i : Instr) : decodeTableWord 32 (encode i).toNat = some i := by
  rw [decodeTableWord, Nat.mod_eq_of_lt (encode i).isLt, BitVec.ofNat_toNat, BitVec.setWidth_eq, decode_encode]

/-- Settles O2: the legal words are those of their commands, and the decoder is evaluated at the illegal ones. -/
theorem sampleWordsDecode : Obligations.SampleWordsDecode :=
  ⟨decodeTableWord_encode .feiInit, decodeTableWord_encode .feiEncCbc, decodeTableWord_encode .spnDecCbc,
    decodeTableWord_encode .strKsb, by decide⟩

end Sys2Proof

/-! PROOFS. What the host's software runs (30 R101, R109, R111): the write to `CMD` runs the command it names, the hardware waits, and
`SETKEY`, `SETIV` or `SETDIN` does to the state what `putOperand` does. -/

namespace Sys2Proof.Machine

open Config (Params)

/-! ## The write to `CMD`, and waiting -/

/-- Settles O4: the write to `CMD` is `writeCommand`, which runs the command that the word decodes to. -/
theorem stepRunsTheDecodedCommand : Obligations.StepRunsTheDecodedCommand := by
  intro s w i rest _ hdecode hpending
  rw [step_writeReg hpending]
  exact writeCommand_ok hdecode _

/-- Settles O5: nothing is pending to step on, and a command leaves the host's side as it was. -/
theorem hardwareWaitsForTheHost : Obligations.HardwareWaitsForTheHost := by
  refine ⟨fun s => step_nil, fun i s t ht => ?_⟩
  obtain ⟨-, hpending, -, -⟩ := exec_sameHostSide ht
  exact hpending

/-! ## A byte string written byte by byte -/

theorem writeBufferByte_eq_memWrite {sp : Space} (hsp : sp ≠ .dout) (o : Nat) (b : Byte) (s : State) :
    writeBufferByte sp o b s = memWrite s sp o [b] := by
  cases sp
  case dout => exact absurd rfl hsp
  all_goals rfl

/-- Storing the first byte and then the others is storing them all, the access order and the response apart. -/
theorem memWrite_cons (s : State) (sp : Space) (o : Nat) (b : Byte) (bs : Bytes) {pending : List Input} {response : Option Word} :
    memWrite { memWrite s sp o [b] with pending := pending, response := response } sp (o + 1) bs =
      memWrite { s with pending := pending, response := response } sp o (b :: bs) := by
  cases sp <;> rfl

/-- The writes of a byte string store it; what they leave as response is left open, since an empty string makes no access. -/
theorem run_writeByteString {sp : Space} (hsp : sp ≠ .dout) {b : Bytes} {rest : List Input} {o : Nat} {s : State}
    (hb : o + b.length ≤ capOf params sp) (h : s.pending = writeByteString sp o b ++ rest) :
    ∃ r, core.run b.length s = .next (memWrite { s with pending := rest, response := r } sp o b) := by
  induction b generalizing o s with
  | nil =>
    have hrest : s.pending = rest := h
    refine ⟨s.response, ?_⟩
    subst hrest
    cases sp <;> rfl
  | cons c cs ih =>
    rw [List.length_cons] at hb
    have hstep := step_writeByte (rest := writeByteString sp (o + 1) cs ++ rest) (by omega) h
    rw [writeBufferByte_eq_memWrite hsp] at hstep
    have hnext := memWrite_pending { s with pending := writeByteString sp (o + 1) cs ++ rest, response := none } sp o [c]
    obtain ⟨r, hrun⟩ := ih (by omega) hnext
    refine ⟨r, ?_⟩
    rw [List.length_cons, core_run_next hstep, hrun, memWrite_cons]

/-! ## `SETKEY`, `SETIV`, `SETDIN` -/

/-- A capacity fits in a length register. -/
theorem capOf_lt_two_pow (P : Params) (sp : Space) : capOf P sp < 2 ^ 32 := by
  have hbuf := P.bufCap_le
  cases sp
  all_goals simp only [capOf_key, capOf_iv, capOf_din, capOf_dout]; omega

theorem writeRegister_lengthRegister (P : Params) (sp : Space) (v : Word) (s : State) :
    writeRegister P (lengthRegister sp) v s = .next (writeLength P sp v s) := by cases sp <;> rfl

/-- The write of a length within the capacity sets the length. -/
theorem step_writeReg_lengthRegister {sp : Space} (hsp : sp ≠ .dout) {n : Nat} (hn : n ≤ capOf params sp) {s : State}
    {rest : List Input} (h : s.pending = writeReg (lengthRegister sp) (BitVec.ofNat 32 n) :: rest) :
    step s = .next (setLen { s with pending := rest, response := none } sp n) := by
  have hword : (BitVec.ofNat 32 n).toNat = n := Nat.mod_eq_of_lt (hn.trans_lt (capOf_lt_two_pow params sp))
  rw [step_writeReg h, writeRegister_lengthRegister, writeLength_eq_setLen params hsp, hword, if_pos hn]

/-- 30 R109: the bytes and then the length give the operand register its value. -/
theorem run_setOperandMacro {s : State} {sp : Space} {b : Bytes} {rest : List Input} (hsp : sp ≠ .dout)
    (hb : b.length ≤ capOf params sp) (h : s.pending = setOperandMacro sp b ++ rest) :
    core.run (b.length + 1) s = .next (putOperand sp b { s with pending := rest, response := none }) := by
  have hbytes : s.pending = writeByteString sp 0 b ++
      (writeReg (lengthRegister sp) (BitVec.ofNat 32 b.length) :: rest) := by
    rw [h, setOperandMacro, List.append_assoc, List.singleton_append]
  obtain ⟨r, hrun⟩ := run_writeByteString hsp (by omega) hbytes
  have hnext := memWrite_pending
    { s with pending := writeReg (lengthRegister sp) (BitVec.ofNat 32 b.length) :: rest, response := r } sp 0 b
  have hlength := step_writeReg_lengthRegister hsp hb hnext
  rw [core_run_append _ 1 hrun, core_run_next hlength, core_run_zero]
  cases sp <;> rfl

/-! ## An operand register with a new value -/

theorem operand_putOperand {s : State} {sp : Space} (h : (bufOf s sp).wf) (b : Bytes) : operand (putOperand sp b s) sp = b := by
  rw [operand, memRead, putOperand, lenOf_setLen, if_pos rfl, bufOf_setLen, bufOf_memWrite, if_pos rfl]
  exact Memory.readBytes_writeBytes_self h 0 b

theorem bytesKept_putOperand {s : State} {sp : Space} (h : (bufOf s sp).wf) (b : Bytes) :
    BytesKept (firstBytes sp b.length) s (putOperand sp b s) := by
  intro sp' a ha
  by_cases hsp : sp' = sp
  · subst hsp
    have hout : b.length ≤ a := by rwa [firstBytes, if_pos rfl] at ha
    rw [putOperand, bufOf_setLen, bufOf_memWrite, if_pos rfl, Memory.read_writeBytes h, if_neg (by omega)]
  · exact (sameSpace_putOperand hsp s b).read_eq a

/-- Settles O60: by what `putOperand` does, the access order and the response being no part of what is kept. -/
theorem setOperandMacroSetsTheValue : Obligations.SetOperandMacroSetsTheValue := by
  intro s sp b rest hcanonical hsp hb hpending
  have hstorage : SameStorage s { s with pending := rest, response := none } := sameStorage_bookkeeping s
  have hwf : (bufOf { s with pending := rest, response := none } sp).wf := by
    rw [(hstorage sp).1]
    exact (canonical_iff s).1 hcanonical sp
  refine ⟨_, run_setOperandMacro hsp hb hpending, putOperand_pending _ sp b, operand_putOperand hwf b, fun sp' a ha => ?_,
    fun sp' hsp' => ?_, putOperand_cmd _ sp b, putOperand_err _ sp b, putOperand_draws _ sp b, fun u => ?_⟩
  · rw [bytesKept_putOperand hwf b sp' a ha, (hstorage sp').1]
  · exact (sameSpace_putOperand hsp' _ b).2.trans (hstorage sp').2
  · exact (sameContext_bookkeeping u s).trans (sameContext_putOperand u _ sp b)

end Sys2Proof.Machine

/-! PROOFS. A word of a byte string (20 R72): the packing of either byte order is undone by the unpacking, and reads four bytes. -/

namespace Sys2Proof.Machine

open Config (ByteOrder)

/-- A packing reads no byte beyond the first four. -/
theorem packWord_take (o : ByteOrder) (b : Bytes) : packWord o (b.take 4) = packWord o b := by
  have hbyte : ∀ i < 4, byteAt (b.take 4) i = byteAt b i := fun i hi => by
    simp [byteAt, hi]
  cases o <;> simp [packWord, be32, le32, hbyte]

theorem packWord_unpackWord_append (o : ByteOrder) (w : Word) (b : Bytes) : packWord o (unpackWord o w ++ b) = w := by
  rw [← packWord_take, List.take_left' (length_unpackWord o w)]
  cases o
  · exact be32_toBe32 w
  · exact le32_toLe32 w

theorem unpackWord_packWord (o : ByteOrder) {b : Bytes} (h : 4 ≤ b.length) : unpackWord o (packWord o b) = b.take 4 := by
  match b, h with
  | b0 :: b1 :: b2 :: b3 :: _, _ =>
    rw [← packWord_take]
    cases o
    · exact toBe32_be32 b0 b1 b2 b3
    · exact toLe32_le32 b0 b1 b2 b3

/-- The two words of an 8-byte string, unpacked. -/
theorem unpackWord_wordAt_append (o : ByteOrder) {b : Bytes} (h : b.length = 8) :
    unpackWord o (wordAt o b 0) ++ unpackWord o (wordAt o b 1) = b := by
  rw [wordAt, wordAt, unpackWord_packWord o (by simp [h]), unpackWord_packWord o (by simp [h]),
    List.take_of_length_le (l := b.drop (4 * 1)) (by simp [h])]
  exact List.take_append_drop 4 b

/-- The words of two words unpacked one after the other. -/
theorem wordAt_unpackWord_append (o : ByteOrder) (w w' : Word) :
    wordAt o (unpackWord o w ++ unpackWord o w') 0 = w ∧ wordAt o (unpackWord o w ++ unpackWord o w') 1 = w' := by
  refine ⟨packWord_unpackWord_append o w _, ?_⟩
  rw [wordAt, List.drop_left' (length_unpackWord o w), ← List.append_nil (unpackWord o w'), packWord_unpackWord_append]

/-- Word j of an operand is packed from the four bytes at offset 4j of its buffer. -/
theorem wordAt_operand (o : ByteOrder) {s : State} {sp : Space} {j : Nat} (h : 4 * j + 4 ≤ lenOf s sp) :
    wordAt o (operand s sp) j = packWord o (memRead s sp (4 * j) 4) := by
  rw [wordAt, ← packWord_take, operand_slice s sp _ _ h]

end Sys2Proof.Machine

/-! PROOFS. The block functions of `FEI` (41 R132 to R139): the order of the round keys, and that each round, hence each run of rounds,
is undone by the one of the other direction, whatever the S-boxes. -/

namespace Sys2Proof.Machine

open Config (Params)

/-! ## The round keys (41 R132) -/

theorem feiRoundKey_of_lt (sk : Vector Word 8) {i : Nat} (h : i < 24) : feiRoundKey sk i = sk[i % 8] := by
  simp [feiRoundKey, feiKeyIndex, h]

theorem feiRoundKey_of_ge (sk : Vector Word 8) {i : Nat} (h : 24 ≤ i) : feiRoundKey sk i = sk[7 - i % 8] := by
  simp [feiRoundKey, feiKeyIndex, Nat.not_lt.2 h]

/-- Settles O21: the indices by evaluation, the keys by the two directions of the order. -/
theorem feiRoundKeyOrder : Obligations.FeiRoundKeyOrder := by
  refine ⟨by decide, fun sk i => ?_⟩
  split
  next h => exact feiRoundKey_of_lt sk h
  next h => exact feiRoundKey_of_ge sk (Nat.not_lt.1 h)

/-! ## Rounds undone -/

/-- Steps undone one by one, the last first. -/
theorem foldl_reverse_foldl {α ι : Type} {f g : α → ι → α} (h : ∀ x i, g (f x i) i = x) (l : List ι) (x : α) :
    l.reverse.foldl g (l.foldl f x) = x := by
  induction l generalizing x with
  | nil => rfl
  | cons i l ih => rw [List.reverse_cons, List.foldl_append, List.foldl_cons (f := f), ih, List.foldl_cons, List.foldl_nil, h]

/-- A round adds a function of the half that it keeps, and the other direction adds the same again. -/
theorem feiDecRound_feiEncRound (P : Params) (k : Word) (h : Word × Word) : feiDecRound P k (feiEncRound P k h) = h := by
  simp [feiDecRound, feiEncRound]

theorem feiEncRound_feiDecRound (P : Params) (k : Word) (h : Word × Word) : feiEncRound P k (feiDecRound P k h) = h := by
  simp [feiDecRound, feiEncRound]

/-- 41 R137: decryption takes the round keys of encryption in the reverse order. -/
theorem feiDecRounds_eq_foldl_reverse (P : Params) (sk : Vector Word 8) (h : Word × Word) :
    feiDecRounds P sk h =
      (List.range Config.feiRounds).reverse.foldl (fun h i => feiDecRound P (feiRoundKey sk i) h) h := by
  have hrev : (List.range Config.feiRounds).reverse = (List.range Config.feiRounds).map (31 - ·) := by decide
  rw [hrev, List.foldl_map]
  rfl

theorem feiDecRounds_feiEncRounds (P : Params) (sk : Vector Word 8) (h : Word × Word) :
    feiDecRounds P sk (feiEncRounds P sk h) = h := by
  rw [feiDecRounds_eq_foldl_reverse]
  exact foldl_reverse_foldl (fun h i => feiDecRound_feiEncRound P (feiRoundKey sk i) h) _ h

theorem feiEncRounds_feiDecRounds (P : Params) (sk : Vector Word 8) (h : Word × Word) :
    feiEncRounds P sk (feiDecRounds P sk h) = h := by
  rw [feiDecRounds_eq_foldl_reverse]
  have hundo := foldl_reverse_foldl (f := fun h i => feiDecRound P (feiRoundKey sk i) h)
    (g := fun h i => feiEncRound P (feiRoundKey sk i) h) (fun h i => feiEncRound_feiDecRound P (feiRoundKey sk i) h)
    (List.range Config.feiRounds).reverse h
  rwa [List.reverse_reverse] at hundo

/-! ## Blocks and halves -/

theorem feiSwap_feiSwap (P : Params) (h : Word × Word) : feiSwap P (feiSwap P h) = h := by
  unfold feiSwap
  split <;> rfl

theorem feiSplit_feiJoin (P : Params) (h : Word × Word) : feiSplit P (feiJoin P h) = h :=
  Prod.ext_iff.2 (wordAt_unpackWord_append P.feiHalfOrder h.1 h.2)

theorem feiJoin_feiSplit (P : Params) {b : Bytes} (h : b.length = 8) : feiJoin P (feiSplit P b) = b :=
  unpackWord_wordAt_append P.feiHalfOrder h

theorem feiD_feiE (P : Params) (sk : Vector Word 8) {b : Bytes} (h : b.length = 8) : feiD P sk (feiE P sk b) = b := by
  rw [feiD, feiE, feiSplit_feiJoin, feiSwap_feiSwap, feiDecRounds_feiEncRounds, feiJoin_feiSplit P h]

theorem feiE_feiD (P : Params) (sk : Vector Word 8) {b : Bytes} (h : b.length = 8) : feiE P sk (feiD P sk b) = b := by
  rw [feiE, feiD, feiSplit_feiJoin, feiEncRounds_feiDecRounds, feiSwap_feiSwap, feiJoin_feiSplit P h]

/-- Settles O23: the exchange, the rounds and the packing are undone each in its turn. -/
theorem feiDecryptionInvertsEncryption : Obligations.FeiDecryptionInvertsEncryption :=
  fun P sk _ h => ⟨feiD_feiE P sk h, feiE_feiD P sk h⟩

end Sys2Proof.Machine

/-! PROOFS. The commands of 41_feistel.md (R131, R135, R138): `FEI.INIT`, `FEI.ENCB` and `FEI.DECB`. -/

namespace Sys2Proof.Machine

/-! ## The single-block commands, whatever the block function -/

section
variable {s : State} {B : Nat} (f : Bytes → Bytes)

theorem singleBlock_not_keyed : singleBlock false B f s = raise .notKeyed s := by
  simpa using singleBlock_cases false B f s

theorem singleBlock_misaligned (h : s.dinLen ≠ B) : singleBlock true B f s = raise .blockAlignment s := by
  simpa [h] using singleBlock_cases true B f s

theorem singleBlock_delivers (hw : s.doutBuf.wf) (h : s.dinLen = B) :
    Delivers (f (memRead s .din 0 B)) s (singleBlock true B f s) := by
  have hrun : singleBlock true B f s = deliver (f (memRead s .din 0 B)) s := by simpa [h] using singleBlock_cases true B f s
  rw [hrun]
  exact deliver_delivers hw _

end

/-- Settles O22: both commands are `singleBlock`, each with its block function. -/
theorem feiSingleBlockRules : Obligations.FeiSingleBlockRules := by
  refine ⟨by decide, fun s hc => ?_⟩
  obtain ⟨-, -, -, hdout⟩ := hc
  have henc : exec .feiEncb s = .next (singleBlock s.fei.keyed 8 (feiE params s.fei.sk) s) := rfl
  have hdec : exec .feiDecb s = .next (singleBlock s.fei.keyed 8 (feiD params s.fei.sk) s) := rfl
  rw [henc, hdec]
  refine ⟨fun hk => ?_, fun hk hlen => ?_, fun hk hlen => ?_⟩
  all_goals rw [hk]
  · exact ⟨congrArg _ (singleBlock_not_keyed _), congrArg _ (singleBlock_not_keyed _)⟩
  · rw [singleBlock_misaligned _ hlen, singleBlock_misaligned _ hlen]
    exact ⟨rfl, rfl⟩
  · exact ⟨⟨_, rfl, singleBlock_delivers _ hdout hlen⟩, ⟨_, rfl, singleBlock_delivers _ hdout hlen⟩⟩

/-! ## `FEI.INIT` -/

/-- 41 R131: subkey j is the big-endian word at offset 4j of `KEY`. -/
theorem getElem_feiSchedule_operand {s : State} (h : s.keyLen = 32) (j : Fin 8) :
    (feiSchedule (operand s .key))[j] = be32 (memRead s .key (4 * j.val) 4) := by
  have hfits : 4 * j.val + 4 ≤ lenOf s .key := by rw [lenOf_key, h]; omega
  have hword : (feiSchedule (operand s .key))[j] = wordAt .big (operand s .key) j.val := by
    simp [feiSchedule]
  rw [hword]
  exact wordAt_operand .big hfits

/-- Settles O20: the frame of every `INIT`, with the subkeys read off the resolved key. -/
theorem feiInitRule : Obligations.FeiInitRule := by
  refine ⟨by decide, fun s hc => ⟨fun hlen => ?_, fun hempty hlen => ?_⟩⟩
  · obtain ⟨hkey, -, -, -⟩ := hc
    have haccepted : (s.keyLen = 0 ∧ 32 ∈ [32]) ∨ (s.keyLen ≠ 0 ∧ s.keyLen ∈ [32]) := by
      rw [List.mem_singleton, List.mem_singleton]; omega
    have hresolved : (resolveOperand .key 32 s).keyLen = 32 := by
      rw [resolveOperand_keyLen]; split <;> omega
    exact ⟨resolveOperand .key 32 s, _, keyResolved_resolveOperand hkey 32,
      congrArg Host.Outcome.next (initUnit_ok loadFei haccepted), rfl, rfl, getElem_feiSchedule_operand hresolved⟩
  · exact congrArg Host.Outcome.next (initUnit_bad loadFei hempty (by rwa [List.mem_singleton]))

end Sys2Proof.Machine

/-! PROOFS. What the code and the output of a data command depend on (41 R140, 42 R168, 43 R195): the context of its unit, `IV` and
`DIN`, and nothing else of the state. -/

namespace Sys2Proof.Machine

open Config (Params)

/-! ## What a data command reads, and what is read of its end -/

/-- The two states hold the same `IV` and the same `DIN`, whatever their buffers hold beyond; each `DOUTBUF` is in canonical form, so
that what is written to it is what is read from it. -/
structure SameMessage (s s' : State) : Prop where
  wf : s.doutBuf.wf
  wf' : s'.doutBuf.wf
  iv : operand s .iv = operand s' .iv
  din : operand s .din = operand s' .din

/-- The two states hold the same error code and the same output. -/
def SameResult (t t' : State) : Prop := t.err = t'.err ∧ operand t .dout = operand t' .dout

theorem sameResult_raise (e : ErrorKind) (s s' : State) : SameResult (raise e s) (raise e s') := ⟨rfl, rfl⟩

theorem sameResult_deliver {r r' : State} (hw : r.doutBuf.wf) (hw' : r'.doutBuf.wf) (out : Bytes) :
    SameResult (deliver out r) (deliver out r') :=
  ⟨rfl, (operand_dout_deliver hw out).trans (operand_dout_deliver hw' out).symm⟩

/-- A check that both states pass or both fail. -/
theorem SameResult.check {c c' : Prop} [Decidable c] [Decidable c'] (hc : c ↔ c') {e : ErrorKind} {s s' t t' : State}
    (h : ¬ c → SameResult t t') : SameResult (if c then raise e s else t) (if c' then raise e s' else t') := by
  by_cases hfail : c
  · rw [if_pos hfail, if_pos (hc.1 hfail)]
    exact sameResult_raise e s s'
  · rw [if_neg hfail, if_neg (fun hfail' => hfail (hc.2 hfail'))]
    exact h hfail

/-- The first bytes of an operand are read from its buffer. -/
theorem memRead_eq_take_operand {s : State} {sp : Space} {n : Nat} (h : n ≤ lenOf s sp) :
    memRead s sp 0 n = (operand s sp).take n := by
  rw [← operand_slice s sp 0 n (by omega), List.drop_zero]

namespace SameMessage

variable {s s' : State}

theorem ivLen (h : SameMessage s s') : s'.ivLen = s.ivLen := by
  have hlen := congrArg List.length h.iv
  simpa using hlen.symm

theorem dinLen (h : SameMessage s s') : s'.dinLen = s.dinLen := by
  have hlen := congrArg List.length h.din
  simpa using hlen.symm

theorem memRead_iv (h : SameMessage s s') {n : Nat} (hn : n ≤ s.ivLen) : memRead s' .iv 0 n = memRead s .iv 0 n := by
  rw [memRead_eq_take_operand (s := s) hn, memRead_eq_take_operand (by rwa [lenOf_iv, h.ivLen]), h.iv]

theorem memRead_din (h : SameMessage s s') {n : Nat} (hn : n ≤ s.dinLen) : memRead s' .din 0 n = memRead s .din 0 n := by
  rw [memRead_eq_take_operand (s := s) hn, memRead_eq_take_operand (by rwa [lenOf_din, h.dinLen]), h.din]

theorem deliver (h : SameMessage s s') (out : Bytes) : SameResult (deliver out s) (deliver out s') :=
  sameResult_deliver h.wf h.wf' out

theorem withContextOf (h : SameMessage s s') (u : CipherUnit) (x : State) : SameMessage s (withContextOf u x s') := by
  have hstorage := sameStorage_withContextOf u x s'
  have hoperand : ∀ sp, operand (Machine.withContextOf u x s') sp = operand s' sp := fun sp => by
    rw [operand, operand, memRead, memRead, (hstorage sp).1, (hstorage sp).2]
  refine ⟨h.wf, ?_, h.iv.trans (hoperand .iv).symm, h.din.trans (hoperand .din).symm⟩
  have hdout : (Machine.withContextOf u x s').doutBuf = s'.doutBuf := (hstorage .dout).1
  exact hdout ▸ h.wf'

/-! ## The frames of the commands -/

theorem singleBlock (h : SameMessage s s') (keyed : Bool) (B : Nat) (f : Bytes → Bytes) :
    SameResult (singleBlock keyed B f s) (singleBlock keyed B f s') := by
  unfold Machine.singleBlock
  refine .check .rfl fun _ => .check (by rw [h.dinLen]) fun hlen => ?_
  rw [h.memRead_din (Nat.le_of_eq (not_not.1 hlen).symm)]
  exact h.deliver _

theorem blockwise (h : SameMessage s s') (keyed : Bool) (B : Nat) (f : Bytes → Bytes) :
    SameResult (blockwise keyed B f s) (blockwise keyed B f s') := by
  unfold Machine.blockwise
  refine .check .rfl fun _ => .check (by rw [h.dinLen]) fun _ => ?_
  rw [h.din]
  exact h.deliver _

/-- An IV of the length that the command reads is not empty, so none is drawn. -/
theorem chained (h : SameMessage s s') (keyed aligned : Bool) {ivOk ivOk' : Bool} (hok : ivOk' = ivOk) {n : Nat} (hn : n ≠ 0)
    (hiv : ivOk = true → s.ivLen = n) (B : Nat) (f : Bytes → List Bytes → Bytes) :
    SameResult (chained keyed ivOk aligned n B f s) (chained keyed ivOk' aligned n B f s') := by
  unfold Machine.chained
  refine .check .rfl fun _ => .check (by rw [hok]) fun hpass => .check (by rw [h.dinLen]) fun _ => ?_
  have hlen : s.ivLen = n := hiv (Bool.not_eq_false ivOk ▸ hpass)
  have hlen' : s'.ivLen = n := h.ivLen.trans hlen
  rw [resolveOperand_of_ne (sp := .iv) n (by rwa [lenOf_iv, hlen]),
    resolveOperand_of_ne (sp := .iv) n (by rwa [lenOf_iv, hlen'])]
  simp only [h.memRead_iv hlen.ge, h.din]
  exact h.deliver _

theorem chainedEnc (h : SameMessage s s') (hiv : s.ivLen ≠ 0) (keyed aligned : Bool) {n : Nat} (hn : n ≠ 0) (B : Nat)
    (f : Bytes → List Bytes → Bytes) :
    SameResult (Machine.chained keyed (ivAcceptedEnc n s) aligned n B f s)
      (Machine.chained keyed (ivAcceptedEnc n s') aligned n B f s') :=
  h.chained keyed aligned (by rw [ivAcceptedEnc, ivAcceptedEnc, h.ivLen]) hn (by simp [ivAcceptedEnc, hiv]) B f

theorem chainedDec (h : SameMessage s s') (keyed aligned : Bool) {n : Nat} (hn : n ≠ 0) (B : Nat)
    (f : Bytes → List Bytes → Bytes) :
    SameResult (Machine.chained keyed (ivAcceptedDec n s) aligned n B f s)
      (Machine.chained keyed (ivAcceptedDec n s') aligned n B f s') :=
  h.chained keyed aligned (by rw [ivAcceptedDec, ivAcceptedDec, h.ivLen]) hn (by simp [ivAcceptedDec]) B f

/-! ## The commands with a frame of their own, the context of the unit the same in both states -/

theorem spnEncEcb (h : SameMessage s s') (hc : s.spn = s'.spn) (P : Params) :
    SameResult (spnEncEcb P s) (spnEncEcb P s') := by
  unfold Machine.spnEncEcb
  rw [← hc, h.din]
  exact .check .rfl fun _ => h.deliver _

theorem spnDecEcb (h : SameMessage s s') (hc : s.spn = s'.spn) (P : Params) :
    SameResult (spnDecEcb P s) (spnDecEcb P s') := by
  unfold Machine.spnDecEcb
  rw [← hc, h.din]
  refine .check .rfl fun _ => .check (by rw [h.dinLen]) fun _ => ?_
  split
  next => exact sameResult_raise _ s s'
  next => exact h.deliver _

theorem spnEncCbc (h : SameMessage s s') (hc : s.spn = s'.spn) (hiv : s.ivLen ≠ 0) (P : Params) :
    SameResult (spnEncCbc P s) (spnEncCbc P s') := by
  unfold Machine.spnEncCbc
  rw [← hc]
  refine .check .rfl fun _ => .check (by rw [ivAcceptedEnc, ivAcceptedEnc, h.ivLen]) fun hpass => ?_
  have hlen : s.ivLen = Config.spnIvBytes := by simpa [ivAcceptedEnc, hiv] using hpass
  rw [resolveOperand_of_ne (sp := .iv) _ hiv, resolveOperand_of_ne (sp := .iv) _ (by rwa [lenOf_iv, h.ivLen])]
  simp only [h.memRead_iv hlen.ge, h.din]
  exact h.deliver _

/-- The decrypted message replaces `IV`, which is no part of the result. -/
theorem spnDecCbc (h : SameMessage s s') (hc : s.spn = s'.spn) (P : Params) :
    SameResult (spnDecCbc P s) (spnDecCbc P s') := by
  unfold Machine.spnDecCbc
  rw [← hc, h.din]
  refine .check .rfl fun _ => .check (by rw [h.dinLen]) fun hlen => ?_
  have hread : Config.spnIvBytes ≤ s.dinLen := by simp only [Config.spnIvBytes]; omega
  simp only [h.memRead_din hread]
  split
  next => exact sameResult_raise _ s s'
  next p _ => exact sameResult_deliver (r := putOperand .iv _ s) (r' := putOperand .iv _ s') h.wf h.wf' p

theorem xxtEnc (h : SameMessage s s') (hc : s.xxt = s'.xxt) (P : Params) : SameResult (xxtEnc P s) (xxtEnc P s') := by
  unfold Machine.xxtEnc
  rw [← hc, h.din]
  exact .check .rfl fun _ => h.deliver _

theorem xxtDec (h : SameMessage s s') (hc : s.xxt = s'.xxt) (P : Params) : SameResult (xxtDec P s) (xxtDec P s') := by
  unfold Machine.xxtDec
  rw [← hc, h.din]
  exact .check .rfl fun _ => .check (by rw [h.dinLen]) fun _ => h.deliver _

theorem strKsb (h : SameMessage s s') (hc : s.str = s'.str) (P : Params) : SameResult (strKsb P s) (strKsb P s') := by
  unfold Machine.strKsb
  rw [← hc]
  exact .check .rfl fun _ => sameResult_deliver h.wf h.wf' _

theorem strApply (h : SameMessage s s') (hc : s.str = s'.str) (P : Params) :
    SameResult (strApply P s) (strApply P s') := by
  unfold Machine.strApply
  rw [← hc, h.din]
  exact .check .rfl fun _ => sameResult_deliver h.wf h.wf' _

end SameMessage

/-! ## Every data command -/

/-- A state with the context that another holds is that state with the other's context put in place. -/
theorem SameContext.eq_withContextOf {u : CipherUnit} {s s' : State} (h : SameContext u s s') : s' = withContextOf u s s' := by
  cases u <;> simp_all [SameContext, withContextOf]

/-- The context put in place is, by its form, the one of the first state, so the frames take the same key and the same function. -/
theorem exec_data_sameResult {i : Instr} (hi : i.form.op ≠ .init) {s x : State} (hiv : resolvesIv i = true → s.ivLen ≠ 0)
    (h : SameMessage s (withContextOf i.form.unit s x)) :
    ∃ t t', exec i s = .next t ∧ exec i (withContextOf i.form.unit s x) = .next t' ∧ SameResult t t' := by
  cases i
  case feiInit | spnInit | teaInit | xteaInit | xxtInit | strInit => exact absurd rfl hi
  case feiEncb | feiDecb | spnEncb | spnDecb => exact ⟨_, _, rfl, rfl, h.singleBlock _ _ _⟩
  case feiEncEcb | feiDecEcb | teaEnc | teaDec | xteaEnc | xteaDec => exact ⟨_, _, rfl, rfl, h.blockwise _ _ _⟩
  case feiEncCbc | feiEncCfb | feiEncCtr =>
    exact ⟨_, _, rfl, rfl, h.chainedEnc (hiv rfl) _ _ (by decide) _ _⟩
  case feiDecCbc | feiDecCfb | feiDecCtr => exact ⟨_, _, rfl, rfl, h.chainedDec _ _ (by decide) _ _⟩
  case spnEncEcb => exact ⟨_, _, rfl, rfl, h.spnEncEcb rfl _⟩
  case spnDecEcb => exact ⟨_, _, rfl, rfl, h.spnDecEcb rfl _⟩
  case spnEncCbc => exact ⟨_, _, rfl, rfl, h.spnEncCbc rfl (hiv rfl) _⟩
  case spnDecCbc => exact ⟨_, _, rfl, rfl, h.spnDecCbc rfl _⟩
  case xxtEnc => exact ⟨_, _, rfl, rfl, h.xxtEnc rfl _⟩
  case xxtDec => exact ⟨_, _, rfl, rfl, h.xxtDec rfl _⟩
  case strEnc | strDec => exact ⟨_, _, rfl, rfl, h.strApply rfl _⟩
  case strKsb => exact ⟨_, _, rfl, rfl, h.strKsb rfl _⟩

/-- Settles O18: frame by frame, with the context of the first state put in place in the second, which holds it already. -/
theorem outputDependsOnContextIvAndDinOnly : Obligations.OutputDependsOnContextIvAndDinOnly := by
  intro i s s' hi hw hw' hiv hcontext hivEq hdinEq
  have h : SameMessage s s' := ⟨hw, hw', hivEq, hdinEq⟩
  rw [hcontext.eq_withContextOf]
  exact exec_data_sameResult hi hiv (h.withContextOf i.form.unit s)

end Sys2Proof.Machine

/-! PROOFS. Outputs in blocks (42 R150 to R164): a list of output blocks, each as long as the block of the message in its place, is the
output the machine delivers, and each mode gives such a list. -/

namespace Sys2Proof.Machine

/-! ## Lists of byte strings of the same lengths -/

/-- In each place the two lists hold byte strings of the same length. -/
def SameLengths (os bs : List Bytes) : Prop := os.map List.length = bs.map List.length

namespace SameLengths

variable {os bs : List Bytes}

theorem of_getElem (hlen : os.length = bs.length)
    (h : ∀ i (hi : i < bs.length), (os[i]'(hlen ▸ hi)).length = bs[i].length) : SameLengths os bs :=
  List.ext_getElem (by simpa using hlen) fun i _ hi => by
    simpa using h i (by simpa using hi)

theorem length_eq (h : SameLengths os bs) : os.length = bs.length := by
  simpa using congrArg List.length h

theorem length_getElem (h : SameLengths os bs) (i : Nat) (hi : i < os.length) :
    os[i].length = (bs[i]'(h.length_eq ▸ hi)).length := by
  have hmap : (os.map List.length)[i]'(by simpa using hi) = (bs.map List.length)[i]'(by simpa [← h.length_eq] using hi) :=
    List.getElem_of_eq h _
  rwa [List.getElem_map, List.getElem_map] at hmap

/-- Put together, the blocks are cut again where they were put together. -/
theorem blocks_flatten {B : Nat} (hB : 0 < B) {m : Bytes} (h : SameLengths os (blocks B m)) : blocks B os.flatten = os := by
  have hlen : os.flatten.length = m.length := length_output hB h.length_eq h.length_getElem
  refine List.ext_getElem (by rw [length_blocks, hlen, h.length_eq, length_blocks]) fun i hi hi' => ?_
  rw [getElem_blocks, ← slice_output h.length_eq h.length_getElem i hi', ← hlen, ← List.length_drop, ← List.take_eq_take_min]

end SameLengths

/-! ## The lengths of the output blocks of each mode -/

section
variable {B : Nat} {f : Bytes → Bytes} {os bs : List Bytes}

theorem sameLengths_map (hf : ∀ b, (f b).length = B) (hbs : ∀ b ∈ bs, b.length = B) : SameLengths (bs.map f) bs :=
  .of_getElem (List.length_map f) fun i hi => by
    rw [List.getElem_map, hf, hbs _ (List.getElem_mem hi)]

theorem sameLengths_cbcEncOut (hf : ∀ b, (f b).length = B) (prev : Bytes) (hbs : ∀ b ∈ bs, b.length = B) :
    SameLengths (cbcEncOut f prev bs) bs :=
  .of_getElem (length_cbcEncOut f prev bs) fun i hi => by
    rw [getElem_cbcEncOut f prev bs i hi, hf, hbs _ (List.getElem_mem hi)]

theorem sameLengths_cbcDecOut (hf : ∀ b, (f b).length = B) {prev : Bytes} (hprev : prev.length = B)
    (hbs : ∀ b ∈ bs, b.length = B) : SameLengths (cbcDecOut f prev bs) bs :=
  .of_getElem (length_cbcDecOut f prev bs) fun i hi => by
    rw [getElem_cbcDecOut f prev bs i hi, length_xorBytes, hf, hbs _ (List.getElem_mem hi)]
    split
    next => rw [hprev, min_self]
    next => rw [hbs _ (List.getElem_mem _), min_self]

/-- A mode that combines each block with B bytes of a keystream, whatever they are, keeps its length. -/
theorem sameLengths_of_xorKeystream (hlen : os.length = bs.length) (hbs : ∀ b ∈ bs, b.length ≤ B)
    (hos : ∀ i (hi : i < bs.length), ∃ ks : Bytes, ks.length = B ∧ os[i]'(hlen ▸ hi) = xorKeystream bs[i] ks) :
    SameLengths os bs :=
  .of_getElem hlen fun i hi => by
    obtain ⟨ks, hks, hblock⟩ := hos i hi
    rw [hblock, length_xorKeystream (hks ▸ hbs _ (List.getElem_mem hi))]

theorem sameLengths_cfbEncOut (hf : ∀ b, (f b).length = B) (prev : Bytes) (hbs : ∀ b ∈ bs, b.length ≤ B) :
    SameLengths (cfbEncOut f prev bs) bs :=
  sameLengths_of_xorKeystream (length_cfbEncOut f prev bs) hbs fun i hi => ⟨_, hf _, getElem_cfbEncOut f prev bs i hi⟩

theorem sameLengths_cfbDecOut (hf : ∀ b, (f b).length = B) (prev : Bytes) (hbs : ∀ b ∈ bs, b.length ≤ B) :
    SameLengths (cfbDecOut f prev bs) bs :=
  sameLengths_of_xorKeystream (length_cfbDecOut f prev bs) hbs fun i hi => ⟨_, hf _, getElem_cfbDecOut f prev bs i hi⟩

theorem sameLengths_ctrOut (hf : ∀ b, (f b).length = B) (nonce : Bytes) (ctr : Word) (hbs : ∀ b ∈ bs, b.length ≤ B) :
    SameLengths (ctrOut f nonce ctr bs) bs :=
  sameLengths_of_xorKeystream (length_ctrOut f nonce ctr bs) hbs fun i hi => ⟨_, hf _, getElem_ctrOut f nonce ctr bs i hi⟩

end

/-! ## Full blocks -/

/-- Every block but the last is full. -/
theorem min_blockLength_of_succ_lt {B len i : Nat} (hB : 0 < B) (h : i + 1 < blockCount B len) : min B (len - B * i) = B := by
  rw [blockCount, Nat.lt_iff_add_one_le, Nat.le_div_iff_mul_le hB] at h
  have hsize : (i + 1 + 1) * B = B * i + B + B := by ring
  omega

/-- Every block of a whole number of blocks is full. -/
theorem min_blockLength_of_aligned {B len i : Nat} (h : i < len / B) : min B (len - B * i) = B := by
  rw [Nat.lt_iff_add_one_le, Nat.le_div_iff_mul_le (Nat.pos_of_ne_zero (by rintro rfl; simp at h))] at h
  have hsize : (i + 1) * B = B * i + B := by ring
  omega

theorem length_of_mem_blocks_operand {B : Nat} (hB : 0 < B) {s : State} (h : s.dinLen % B = 0) :
    ∀ b ∈ blocks B (operand s .din), b.length = B :=
  length_of_mem_blocks hB (by rwa [length_operand])

theorem lt_length_blocks_of_aligned {B : Nat} (hB : 0 < B) {s : State} (h : s.dinLen % B = 0) {i : Nat} (hi : i < s.dinLen / B) :
    i < (blocks B (operand s .din)).length := by
  rwa [length_blocks, length_operand, lenOf_din, blockCount_of_dvd hB h]

/-- A block of a message of whole blocks. -/
theorem getElem_blocks_of_aligned {B : Nat} (hB : 0 < B) {s : State} (h : s.dinLen % B = 0) {i : Nat} (hi : i < s.dinLen / B) :
    (blocks B (operand s .din))[i]'(lt_length_blocks_of_aligned hB h hi) = memRead s .din (B * i) B := by
  rw [getElem_blocks_operand, lenOf_din, min_blockLength_of_aligned hi]

/-! ## The blocks delivered -/

section
variable {s r : State} {B : Nat} {os : List Bytes}

theorem outputOnly_deliver_flatten (hw : r.doutBuf.wf) (hB : 0 < B) (h : SameLengths os (blocks B (operand s .din))) :
    OutputOnly s.dinLen r (deliver os.flatten r) := by
  obtain ⟨houtput, -⟩ := deliver_delivers hw os.flatten
  rwa [length_output hB h.length_eq h.length_getElem, length_operand] at houtput

theorem memRead_dout_deliver_flatten (hw : r.doutBuf.wf) (hB : 0 < B) (h : SameLengths os (blocks B (operand s .din))) {i : Nat}
    (hi : i < os.length) : memRead (deliver os.flatten r) .dout (B * i) (min B (s.dinLen - B * i)) = os[i] :=
  memRead_dout_block hw hB h.length_eq h.length_getElem i hi

/-- An output block of a message of whole blocks. -/
theorem memRead_dout_deliver_of_aligned (hw : r.doutBuf.wf) (hB : 0 < B) (h : SameLengths os (blocks B (operand s .din))) {i : Nat}
    (hi : i < s.dinLen / B) (hi' : i < os.length) : memRead (deliver os.flatten r) .dout (B * i) B = os[i] := by
  rw [← memRead_dout_deliver_flatten hw hB h hi', min_blockLength_of_aligned hi]

/-- The output block before block i, which is full because block i follows it. -/
theorem previous_output_eq (hw : r.doutBuf.wf) (hB : 0 < B) (h : SameLengths os (blocks B (operand s .din))) (iv : Bytes)
    {i : Nat} (hi : i < os.length) :
    (if _ : i = 0 then iv else os[i - 1]'(by omega)) =
      if i = 0 then iv else memRead (deliver os.flatten r) .dout (B * (i - 1)) B := by
  cases i with
  | zero => rfl
  | succ j =>
    have hcount : j + 1 < blockCount B s.dinLen := by simpa [h.length_eq] using hi
    have hread := memRead_dout_deliver_flatten hw hB h (i := j) (by omega)
    rw [min_blockLength_of_succ_lt hB hcount] at hread
    exact hread.symm

/-- The block of the message before block i. -/
theorem previous_input_eq (hB : 0 < B) (iv : Bytes) {i : Nat} (hi : i < (blocks B (operand s .din)).length) :
    (if _ : i = 0 then iv else (blocks B (operand s .din))[i - 1]'(by omega)) =
      if i = 0 then iv else memRead s .din (B * (i - 1)) B := by
  cases i with
  | zero => rfl
  | succ j =>
    have hcount : j + 1 < blockCount B s.dinLen := by simpa using hi
    have hread := getElem_blocks_operand s .din B j (by omega)
    rw [lenOf_din, min_blockLength_of_succ_lt hB hcount] at hread
    exact hread

end

/-! ## Each mode block by block

`r` is the state that takes the output: the state before the command, or the one with its IV drawn. -/

section
variable {s r t : State} {B : Nat} {f : Bytes → Bytes}

/-- 42 R152, R153. -/
theorem deliver_ecb_blocks (hw : r.doutBuf.wf) (hB : 0 < B) (hf : ∀ b, (f b).length = B) (haligned : s.dinLen % B = 0)
    (ht : t = deliver (ecb f (blocks B (operand s .din))) r) :
    OutputOnly s.dinLen r t ∧ ∀ i < s.dinLen / B, memRead t .dout (B * i) B = f (memRead s .din (B * i) B) := by
  have hlens := sameLengths_map hf (length_of_mem_blocks_operand hB haligned)
  rw [ecb_eq] at ht
  subst ht
  refine ⟨outputOnly_deliver_flatten hw hB hlens, fun i hi => ?_⟩
  have hi' := lt_length_blocks_of_aligned hB haligned hi
  rw [memRead_dout_deliver_of_aligned hw hB hlens hi (hlens.length_eq ▸ hi'), List.getElem_map,
    getElem_blocks_of_aligned hB haligned hi]

/-- 42 R155. -/
theorem deliver_cbcEnc_blocks (hw : r.doutBuf.wf) (hB : 0 < B) (hf : ∀ b, (f b).length = B) (haligned : s.dinLen % B = 0)
    (iv : Bytes) (ht : t = deliver (cbcEnc f iv (blocks B (operand s .din))) r) :
    OutputOnly s.dinLen r t ∧ ∀ i < s.dinLen / B, memRead t .dout (B * i) B =
      f (xorBytes (memRead s .din (B * i) B) (if i = 0 then iv else memRead t .dout (B * (i - 1)) B)) := by
  have hlens := sameLengths_cbcEncOut hf iv (length_of_mem_blocks_operand hB haligned)
  rw [cbcEnc_eq] at ht
  subst ht
  refine ⟨outputOnly_deliver_flatten hw hB hlens, fun i hi => ?_⟩
  have hi' := lt_length_blocks_of_aligned hB haligned hi
  have hout := hlens.length_eq ▸ hi'
  rw [memRead_dout_deliver_of_aligned hw hB hlens hi hout, getElem_cbcEncOut _ _ _ _ hi', previous_output_eq hw hB hlens iv hout,
    getElem_blocks_of_aligned hB haligned hi]

/-- 42 R156. -/
theorem deliver_cbcDec_blocks (hw : r.doutBuf.wf) (hB : 0 < B) (hf : ∀ b, (f b).length = B) (haligned : s.dinLen % B = 0)
    {iv : Bytes} (hiv : iv.length = B) (ht : t = deliver (cbcDec f iv (blocks B (operand s .din))) r) :
    OutputOnly s.dinLen r t ∧ ∀ i < s.dinLen / B, memRead t .dout (B * i) B =
      xorBytes (f (memRead s .din (B * i) B)) (if i = 0 then iv else memRead s .din (B * (i - 1)) B) := by
  have hlens := sameLengths_cbcDecOut hf hiv (length_of_mem_blocks_operand hB haligned)
  rw [cbcDec_eq] at ht
  subst ht
  refine ⟨outputOnly_deliver_flatten hw hB hlens, fun i hi => ?_⟩
  have hi' := lt_length_blocks_of_aligned hB haligned hi
  rw [memRead_dout_deliver_of_aligned hw hB hlens hi (hlens.length_eq ▸ hi'), getElem_cbcDecOut _ _ _ _ hi',
    previous_input_eq hB iv hi', getElem_blocks_of_aligned hB haligned hi]

/-- 42 R158. -/
theorem deliver_cfbEnc_blocks (hw : r.doutBuf.wf) (hB : 0 < B) (hf : ∀ b, (f b).length = B) (iv : Bytes)
    (ht : t = deliver (cfbEnc f iv (blocks B (operand s .din))) r) :
    OutputOnly s.dinLen r t ∧ ∀ i < blockCount B s.dinLen, memRead t .dout (B * i) (min B (s.dinLen - B * i)) =
      xorBytes (memRead s .din (B * i) (min B (s.dinLen - B * i)))
        ((f (if i = 0 then iv else memRead t .dout (B * (i - 1)) B)).take (min B (s.dinLen - B * i))) := by
  have hlens := sameLengths_cfbEncOut hf iv (length_le_of_mem_blocks (B := B) (m := operand s .din))
  rw [cfbEnc_eq] at ht
  subst ht
  refine ⟨outputOnly_deliver_flatten hw hB hlens, fun i hi => ?_⟩
  have hi' : i < (blocks B (operand s .din)).length := by simpa using hi
  rw [memRead_dout_deliver_flatten hw hB hlens (hlens.length_eq ▸ hi'), getElem_cfbEncOut _ _ _ _ hi',
    previous_output_eq hw hB hlens iv (hlens.length_eq ▸ hi'), xorKeystream, getElem_blocks_operand, lenOf_din, length_memRead]

/-- 42 R159. -/
theorem deliver_cfbDec_blocks (hw : r.doutBuf.wf) (hB : 0 < B) (hf : ∀ b, (f b).length = B) (iv : Bytes)
    (ht : t = deliver (cfbDec f iv (blocks B (operand s .din))) r) :
    OutputOnly s.dinLen r t ∧ ∀ i < blockCount B s.dinLen, memRead t .dout (B * i) (min B (s.dinLen - B * i)) =
      xorBytes (memRead s .din (B * i) (min B (s.dinLen - B * i)))
        ((f (if i = 0 then iv else memRead s .din (B * (i - 1)) B)).take (min B (s.dinLen - B * i))) := by
  have hlens := sameLengths_cfbDecOut hf iv (length_le_of_mem_blocks (B := B) (m := operand s .din))
  rw [cfbDec_eq] at ht
  subst ht
  refine ⟨outputOnly_deliver_flatten hw hB hlens, fun i hi => ?_⟩
  have hi' : i < (blocks B (operand s .din)).length := by simpa using hi
  rw [memRead_dout_deliver_flatten hw hB hlens (hlens.length_eq ▸ hi'), getElem_cfbDecOut _ _ _ _ hi', previous_input_eq hB iv hi',
    xorKeystream, getElem_blocks_operand, lenOf_din, length_memRead]

/-- 42 R160, R163, R164: from the counter 0 on, the counter of block i is i modulo 2^32. -/
theorem deliver_ctrMode_blocks (hw : r.doutBuf.wf) (hB : 0 < B) (hf : ∀ b, (f b).length = B) (nonce : Bytes)
    (ht : t = deliver (ctrMode f nonce 0 (blocks B (operand s .din))) r) :
    OutputOnly s.dinLen r t ∧ ∀ i < blockCount B s.dinLen, memRead t .dout (B * i) (min B (s.dinLen - B * i)) =
      xorBytes (memRead s .din (B * i) (min B (s.dinLen - B * i)))
        ((f (nonce ++ toBe32 (BitVec.ofNat 32 i))).take (min B (s.dinLen - B * i))) := by
  have hlens := sameLengths_ctrOut hf nonce 0 (length_le_of_mem_blocks (B := B) (m := operand s .din))
  rw [ctrMode_eq] at ht
  subst ht
  refine ⟨outputOnly_deliver_flatten hw hB hlens, fun i hi => ?_⟩
  have hi' : i < (blocks B (operand s .din)).length := by simpa using hi
  rw [memRead_dout_deliver_flatten hw hB hlens (hlens.length_eq ▸ hi'), getElem_ctrOut _ _ _ _ _ hi', zero_add, xorKeystream,
    getElem_blocks_operand, lenOf_din, length_memRead]

end

end Sys2Proof.Machine

/-! PROOFS. The chaining commands of 42_feistel_modes.md (R152 to R164): the errors of the two frames and what each mode delivers. -/

namespace Sys2Proof.Machine

/-! ## The frame of the commands without an IV -/

section
variable {s : State} {keyed : Bool} {B : Nat} (f : Bytes → Bytes)

theorem blockwise_not_keyed (hk : keyed = false) : blockwise keyed B f s = raise .notKeyed s := if_pos hk

theorem blockwise_misaligned (hk : keyed = true) (hlen : s.dinLen % B ≠ 0) :
    blockwise keyed B f s = raise .blockAlignment s := by
  simpa [hk, hlen] using blockwise_cases keyed B f s

theorem blockwise_delivers (hk : keyed = true) (hlen : s.dinLen % B = 0) :
    blockwise keyed B f s = deliver (ecb f (blocks B (operand s .din))) s := by
  simpa [hk, hlen] using blockwise_cases keyed B f s

end

/-! ## The frame of the commands with an IV -/

section
variable {s : State} {keyed ivOk aligned : Bool} {n B : Nat} (f : Bytes → List Bytes → Bytes)

theorem ivAcceptedEnc_iff : ivAcceptedEnc n s = true ↔ s.ivLen = 0 ∨ s.ivLen = n := by simp [ivAcceptedEnc]

theorem ivAcceptedDec_iff : ivAcceptedDec n s = true ↔ s.ivLen = n := by simp [ivAcceptedDec]

theorem chained_not_keyed (hk : keyed = false) : chained keyed ivOk aligned n B f s = raise .notKeyed s := if_pos hk

theorem chained_bad_iv (hk : keyed = true) (hiv : ¬ ivOk = true) : chained keyed ivOk aligned n B f s = raise .ivLength s := by
  simpa [hk, hiv] using chained_cases keyed ivOk aligned n B f s

theorem chained_misaligned (hk : keyed = true) (hiv : ivOk = true) (hlen : s.dinLen % B ≠ 0) :
    chained keyed ivOk true n B f s = raise .blockAlignment s := by
  simpa [hk, hiv, hlen] using chained_cases keyed ivOk true n B f s

theorem chained_delivers (hk : keyed = true) (hiv : ivOk = true) (hlen : aligned = true → s.dinLen % B = 0) :
    chained keyed ivOk aligned n B f s =
      deliver (f (memRead (resolveOperand .iv n s) .iv 0 n) (blocks B (operand s .din))) (resolveOperand .iv n s) := by
  rcases chained_cases keyed ivOk aligned n B f s with ⟨hk', -⟩ | ⟨-, hiv', -⟩ | ⟨-, -, ⟨ha, hlen'⟩, -⟩ | ⟨-, -, -, heq⟩
  · exact absurd (hk.symm.trans hk') (by decide)
  · exact absurd (hiv.symm.trans hiv') (by decide)
  · exact absurd (hlen ha) hlen'
  · exact heq

theorem chainedEnc_bad_iv (hk : keyed = true) (hempty : s.ivLen ≠ 0) (hiv : s.ivLen ≠ n) :
    chained keyed (ivAcceptedEnc n s) aligned n B f s = raise .ivLength s :=
  chained_bad_iv f hk fun hok => (ivAcceptedEnc_iff.1 hok).elim hempty hiv

theorem chainedDec_bad_iv (hk : keyed = true) (hiv : s.ivLen ≠ n) :
    chained keyed (ivAcceptedDec n s) aligned n B f s = raise .ivLength s :=
  chained_bad_iv f hk fun hok => hiv (ivAcceptedDec_iff.1 hok)

/-- A decrypting command draws no IV: one it accepts is not empty. -/
theorem chainedDec_delivers (hk : keyed = true) (hn : n ≠ 0) (hiv : s.ivLen = n) (hlen : aligned = true → s.dinLen % B = 0) :
    chained keyed (ivAcceptedDec n s) aligned n B f s =
      deliver (f (memRead s .iv 0 n) (blocks B (operand s .din))) s := by
  rw [chained_delivers f hk (ivAcceptedDec_iff.2 hiv) hlen, resolveOperand_of_ne (sp := .iv) n (by rwa [lenOf_iv, hiv])]

end

/-! ## The four modes -/

theorem wf_doutBuf_resolveOperand_iv {s : State} (h : s.doutBuf.wf) (n : Nat) : (resolveOperand .iv n s).doutBuf.wf := by
  rwa [resolveOperand_iv_doutBuf]

/-- Settles O24: both commands are `blockwise`, each with its block function. -/
theorem feiEcbRules : Obligations.FeiEcbRules := by
  refine ⟨by decide, fun s hc => ?_⟩
  obtain ⟨-, -, -, hdout⟩ := hc
  have henc : exec .feiEncEcb s = .next (blockwise s.fei.keyed 8 (feiE params s.fei.sk) s) := rfl
  have hdec : exec .feiDecEcb s = .next (blockwise s.fei.keyed 8 (feiD params s.fei.sk) s) := rfl
  rw [henc, hdec]
  refine ⟨fun hk => ?_, fun hk hlen => ?_, fun hk hlen => ⟨⟨_, rfl, ?_⟩, _, rfl, ?_⟩⟩
  · exact ⟨congrArg _ (blockwise_not_keyed _ hk), congrArg _ (blockwise_not_keyed _ hk)⟩
  · exact ⟨congrArg _ (blockwise_misaligned _ hk hlen), congrArg _ (blockwise_misaligned _ hk hlen)⟩
  · exact deliver_ecb_blocks hdout (by decide) (length_feiE params _) hlen (blockwise_delivers _ hk hlen)
  · exact deliver_ecb_blocks hdout (by decide) (length_feiD params _) hlen (blockwise_delivers _ hk hlen)

/-- Settles O25: both commands are `chained` on whole blocks, each with its direction of CBC. -/
theorem feiCbcRules : Obligations.FeiCbcRules := by
  refine ⟨by decide, fun s hc => ?_⟩
  obtain ⟨-, hiv, -, hdout⟩ := hc
  have henc : exec .feiEncCbc s =
      .next (chained s.fei.keyed (ivAcceptedEnc 8 s) true 8 8 (cbcEnc (feiE params s.fei.sk)) s) := rfl
  have hdec : exec .feiDecCbc s =
      .next (chained s.fei.keyed (ivAcceptedDec 8 s) true 8 8 (cbcDec (feiD params s.fei.sk)) s) := rfl
  rw [henc, hdec]
  refine ⟨fun hk => congrArg _ (chained_not_keyed _ hk), fun hk h0 h8 => congrArg _ (chainedEnc_bad_iv _ hk h0 h8),
    fun hk hok hlen => congrArg _ (chained_misaligned _ hk (ivAcceptedEnc_iff.2 hok) hlen),
    fun hk hok hlen => ⟨_, _, ivResolved_resolveOperand hiv 8, rfl, ?_⟩,
    fun hk => congrArg _ (chained_not_keyed _ hk), fun hk h8 => congrArg _ (chainedDec_bad_iv _ hk h8),
    fun hk hok hlen => congrArg _ (chained_misaligned _ hk (ivAcceptedDec_iff.2 hok) hlen),
    fun hk hok hlen => ⟨_, rfl, ?_⟩⟩
  · exact deliver_cbcEnc_blocks (wf_doutBuf_resolveOperand_iv hdout 8) (by decide) (length_feiE params _) hlen _
      (chained_delivers _ hk (ivAcceptedEnc_iff.2 hok) fun _ => hlen)
  · exact deliver_cbcDec_blocks hdout (by decide) (length_feiD params _) hlen (length_memRead s .iv 0 8)
      (chainedDec_delivers _ hk (by decide) hok fun _ => hlen)

/-- Settles O26: both commands are `chained` on any length, each with its direction of CFB. -/
theorem feiCfbRules : Obligations.FeiCfbRules := by
  refine ⟨by decide, fun s hc => ?_⟩
  obtain ⟨-, hiv, -, hdout⟩ := hc
  have henc : exec .feiEncCfb s =
      .next (chained s.fei.keyed (ivAcceptedEnc 8 s) false 8 8 (cfbEnc (feiE params s.fei.sk)) s) := rfl
  have hdec : exec .feiDecCfb s =
      .next (chained s.fei.keyed (ivAcceptedDec 8 s) false 8 8 (cfbDec (feiE params s.fei.sk)) s) := rfl
  rw [henc, hdec]
  refine ⟨fun hk => congrArg _ (chained_not_keyed _ hk), fun hk h0 h8 => congrArg _ (chainedEnc_bad_iv _ hk h0 h8),
    fun hk hok => ⟨_, _, ivResolved_resolveOperand hiv 8, rfl, ?_⟩,
    fun hk => congrArg _ (chained_not_keyed _ hk), fun hk h8 => congrArg _ (chainedDec_bad_iv _ hk h8),
    fun hk hok => ⟨_, rfl, ?_⟩⟩
  · exact deliver_cfbEnc_blocks (wf_doutBuf_resolveOperand_iv hdout 8) (by decide) (length_feiE params _) _
      (chained_delivers _ hk (ivAcceptedEnc_iff.2 hok) nofun)
  · exact deliver_cfbDec_blocks hdout (by decide) (length_feiE params _) _ (chainedDec_delivers _ hk (by decide) hok nofun)

/-- Settles O27: both commands are `chained` with the same function, so with a nonce they end in the same state. -/
theorem feiCtrRules : Obligations.FeiCtrRules := by
  refine ⟨by decide, fun s hc => ?_⟩
  obtain ⟨-, hiv, -, hdout⟩ := hc
  have henc : exec .feiEncCtr s =
      .next (chained s.fei.keyed (ivAcceptedEnc 4 s) false 4 8 (ctrMode (feiE params s.fei.sk) · 0 ·) s) := rfl
  have hdec : exec .feiDecCtr s =
      .next (chained s.fei.keyed (ivAcceptedDec 4 s) false 4 8 (ctrMode (feiE params s.fei.sk) · 0 ·) s) := rfl
  rw [henc, hdec]
  refine ⟨fun hk => ⟨congrArg _ (chained_not_keyed _ hk), congrArg _ (chained_not_keyed _ hk)⟩,
    fun hk h0 h4 => congrArg _ (chainedEnc_bad_iv _ hk h0 h4), fun hk h4 => congrArg _ (chainedDec_bad_iv _ hk h4),
    fun hk hok => ⟨_, _, ivResolved_resolveOperand hiv 4, rfl, ?_⟩, fun hk hok => ⟨_, rfl, ?_⟩⟩
  · exact deliver_ctrMode_blocks (wf_doutBuf_resolveOperand_iv hdout 4) (by decide) (length_feiE params _) _
      (chained_delivers _ hk (ivAcceptedEnc_iff.2 hok) nofun)
  · rw [ivAcceptedEnc_iff.2 (.inr hok), ivAcceptedDec_iff.2 hok]

end Sys2Proof.Machine

/-! PROOFS. Every mode undone (42 R165): on lists of blocks, on messages, and through the frames of the commands. -/

namespace Sys2Proof.Machine

/-! ## Lists of blocks -/

section
variable {B : Nat} {e d : Bytes → Bytes} {bs : List Bytes}

theorem cbcDecOut_cbcEncOut (hd : ∀ b, b.length = B → d (e b) = b) (he : ∀ b, (e b).length = B) {prev : Bytes}
    (hprev : prev.length = B) (hbs : ∀ b ∈ bs, b.length = B) : cbcDecOut d prev (cbcEncOut e prev bs) = bs := by
  induction bs generalizing prev with
  | nil => rfl
  | cons b bs ih =>
    obtain ⟨hb, hbs⟩ := List.forall_mem_cons.1 hbs
    rw [cbcEncOut, cbcDecOut, ih (he _) hbs, hd _ (by rw [length_xorBytes, hb, hprev, min_self]),
      xorBytes_cancel (hb.trans hprev.symm).le]

theorem cfbDecOut_cfbEncOut (he : ∀ b, (e b).length = B) (prev : Bytes) (hbs : ∀ b ∈ bs, b.length ≤ B) :
    cfbDecOut e prev (cfbEncOut e prev bs) = bs := by
  induction bs generalizing prev with
  | nil => rfl
  | cons b bs ih =>
    obtain ⟨hb, hbs⟩ := List.forall_mem_cons.1 hbs
    rw [cfbEncOut, cfbDecOut, ih _ hbs, xorKeystream_cancel (by rwa [he])]

/-- The keystream does not depend on the message, so it is taken away by being added again. -/
theorem ctrOut_ctrOut (he : ∀ b, (e b).length = B) (nonce : Bytes) (ctr : Word) (hbs : ∀ b ∈ bs, b.length ≤ B) :
    ctrOut e nonce ctr (ctrOut e nonce ctr bs) = bs := by
  induction bs generalizing ctr with
  | nil => rfl
  | cons b bs ih =>
    obtain ⟨hb, hbs⟩ := List.forall_mem_cons.1 hbs
    rw [ctrOut, ctrOut, ih _ hbs, xorKeystream_cancel (by rwa [he])]

end

/-! ## Messages -/

/-- `g` gives back every message that `f` transforms, and `f` keeps its length; where the mode asks for whole blocks, every such
message. -/
structure UndoneBy (aligned : Bool) (B : Nat) (f g : List Bytes → Bytes) : Prop where
  length_eq : ∀ m : Bytes, (aligned = true → m.length % B = 0) → (f (blocks B m)).length = m.length
  undo : ∀ m : Bytes, (aligned = true → m.length % B = 0) → g (blocks B (f (blocks B m))) = m

section
variable {aligned : Bool} {B : Nat} {e d : Bytes → Bytes}

/-- A mode is undone where its lists of output blocks are. -/
theorem undoneBy_of_blocks (hB : 0 < B) {f g : List Bytes → Bytes} {fOut gOut : List Bytes → List Bytes}
    (hf : ∀ bs, f bs = (fOut bs).flatten) (hg : ∀ bs, g bs = (gOut bs).flatten)
    (hlens : ∀ m : Bytes, (aligned = true → m.length % B = 0) → SameLengths (fOut (blocks B m)) (blocks B m))
    (hundo : ∀ m : Bytes, (aligned = true → m.length % B = 0) → gOut (fOut (blocks B m)) = blocks B m) :
    UndoneBy aligned B f g where
  length_eq m hm := by
    have h := hlens m hm
    rw [hf, length_output hB h.length_eq h.length_getElem]
  undo m hm := by rw [hf, (hlens m hm).blocks_flatten hB, hg, hundo m hm, flatten_blocks hB]

theorem ecb_undoneBy_ecb (hB : 0 < B) (he : ∀ b, (e b).length = B) (hd : ∀ b, b.length = B → d (e b) = b) :
    UndoneBy true B (ecb e) (ecb d) :=
  undoneBy_of_blocks hB (ecb_eq e) (ecb_eq d) (fun _ hm => sameLengths_map he (length_of_mem_blocks hB (hm rfl)))
    fun _ hm => by
      rw [List.map_map]
      exact (List.map_congr_left fun b hb => hd b (length_of_mem_blocks hB (hm rfl) b hb)).trans (List.map_id _)

theorem cbcEnc_undoneBy_cbcDec (hB : 0 < B) (he : ∀ b, (e b).length = B) (hd : ∀ b, b.length = B → d (e b) = b) {iv : Bytes}
    (hiv : iv.length = B) : UndoneBy true B (cbcEnc e iv) (cbcDec d iv) :=
  undoneBy_of_blocks hB (cbcEnc_eq e iv) (cbcDec_eq d iv)
    (fun _ hm => sameLengths_cbcEncOut he iv (length_of_mem_blocks hB (hm rfl)))
    fun _ hm => cbcDecOut_cbcEncOut hd he hiv (length_of_mem_blocks hB (hm rfl))

theorem cfbEnc_undoneBy_cfbDec (hB : 0 < B) (he : ∀ b, (e b).length = B) (iv : Bytes) :
    UndoneBy false B (cfbEnc e iv) (cfbDec e iv) :=
  undoneBy_of_blocks hB (cfbEnc_eq e iv) (cfbDec_eq e iv) (fun _ _ => sameLengths_cfbEncOut he iv length_le_of_mem_blocks)
    fun _ _ => cfbDecOut_cfbEncOut he iv length_le_of_mem_blocks

theorem ctrMode_undoneBy_ctrMode (hB : 0 < B) (he : ∀ b, (e b).length = B) (nonce : Bytes) (ctr : Word) :
    UndoneBy false B (ctrMode e nonce ctr) (ctrMode e nonce ctr) :=
  undoneBy_of_blocks hB (ctrMode_eq e nonce ctr) (ctrMode_eq e nonce ctr)
    (fun _ _ => sameLengths_ctrOut he nonce ctr length_le_of_mem_blocks)
    fun _ _ => ctrOut_ctrOut he nonce ctr length_le_of_mem_blocks

end

/-! ## Commands -/

/-- No error has the code 0. -/
theorem raise_err_ne_zero (k : ErrorKind) (s : State) : (raise k s).err ≠ 0 := by
  cases k <;> simp [errorCode]

section
variable {s s' r t : State} {keyed aligned : Bool} {n B : Nat}

/-- A message delivered transformed, then taken as `DIN`, has the length of the original, and undone it is the original. -/
theorem UndoneBy.operand_deliver {f g : List Bytes → Bytes} (h : UndoneBy aligned B f g) (hw : r.doutBuf.wf) (hw' : s'.doutBuf.wf)
    (hlen : aligned = true → s.dinLen % B = 0)
    (hdin : operand s' .din = operand (deliver (f (blocks B (operand s .din))) r) .dout) :
    s'.dinLen = s.dinLen ∧ operand (deliver (g (blocks B (operand s' .din))) s') .dout = operand s .din := by
  have hm : aligned = true → (operand s .din).length % B = 0 := by rwa [length_operand]
  rw [operand_dout_deliver hw] at hdin
  refine ⟨?_, ?_⟩
  · simpa [h.length_eq _ hm] using congrArg List.length hdin
  · rw [operand_dout_deliver hw', hdin, h.undo _ hm]

theorem blockwise_roundTrip {f g : Bytes → Bytes} (h : UndoneBy true B (ecb f) (ecb g)) (hw : s.doutBuf.wf) (hw' : s'.doutBuf.wf)
    (ht : blockwise keyed B f s = t) (herr : t.err = 0) (hdin : operand s' .din = operand t .dout) :
    (blockwise keyed B g s').err = 0 ∧ operand (blockwise keyed B g s') .dout = operand s .din := by
  rcases blockwise_cases keyed B f s with ⟨-, heq⟩ | ⟨-, -, heq⟩ | ⟨hk, hlen, heq⟩
  case inl | inr.inl => exact absurd (heq ▸ ht ▸ herr) (raise_err_ne_zero _ s)
  case inr.inr =>
    obtain rfl := heq.symm.trans ht
    obtain ⟨hlen', hout⟩ := h.operand_deliver hw hw' (fun _ => hlen) hdin
    rw [blockwise_delivers g hk (hlen'.symm ▸ hlen)]
    exact ⟨rfl, hout⟩

/-- The IV an encrypting command leaves, drawn or not, is accepted by the decrypting one. -/
theorem chained_roundTrip {f g : Bytes → List Bytes → Bytes} (hn : n ≠ 0)
    (h : ∀ iv : Bytes, iv.length = n → UndoneBy aligned B (f iv) (g iv)) (hw : s.doutBuf.wf) (hw' : s'.doutBuf.wf)
    (ht : chained keyed (ivAcceptedEnc n s) aligned n B f s = t) (herr : t.err = 0) (hiv : operand s' .iv = operand t .iv)
    (hdin : operand s' .din = operand t .dout) :
    (chained keyed (ivAcceptedDec n s') aligned n B g s').err = 0 ∧
      operand (chained keyed (ivAcceptedDec n s') aligned n B g s') .dout = operand s .din := by
  rcases chained_cases keyed (ivAcceptedEnc n s) aligned n B f s with
    ⟨-, heq⟩ | ⟨-, -, heq⟩ | ⟨-, -, -, heq⟩ | ⟨hk, hok, hlen, heq⟩
  case inl | inr.inl | inr.inr.inl => exact absurd (heq ▸ ht ▸ herr) (raise_err_ne_zero _ s)
  case inr.inr.inr =>
    obtain rfl := heq.symm.trans ht
    have hresolved : (resolveOperand .iv n s).ivLen = n := by
      have := ivAcceptedEnc_iff.1 hok
      rw [resolveOperand_ivLen]; split <;> omega
    have hiv' : operand s' .iv = operand (resolveOperand .iv n s) .iv := hiv
    have hivLen : s'.ivLen = n := by simpa [hresolved] using congrArg List.length hiv'
    have hread : memRead s' .iv 0 n = memRead (resolveOperand .iv n s) .iv 0 n := by
      rw [memRead_eq_take_operand hivLen.ge, memRead_eq_take_operand hresolved.ge, hiv']
    obtain ⟨hlen', hout⟩ := (h _ (length_memRead _ .iv 0 n)).operand_deliver (wf_doutBuf_resolveOperand_iv hw n) hw' hlen hdin
    rw [chainedDec_delivers g hk hn hivLen (fun ha => hlen'.symm ▸ hlen ha), hread]
    exact ⟨rfl, hout⟩

end

/-- Settles O28: a data command keeps the context, so both commands have the same key, and each mode is undone. -/
theorem feiModesRoundTrip : Obligations.FeiModesRoundTrip := by
  intro e d hmode s s' t hc hc' hexec herr hfei hiv hdin
  obtain ⟨-, -, -, hw⟩ := hc
  obtain ⟨-, -, -, hw'⟩ := hc'
  have hinverse : ∀ b : Bytes, b.length = 8 → feiD params s.fei.sk (feiE params s.fei.sk b) = b :=
    fun _ => feiD_feiE params s.fei.sk
  have hlength := length_feiE params s.fei.sk
  have hcontext : e.form.op ≠ .init → s'.fei = s.fei := fun hop =>
    hfei.trans (commandsKeepContextsOfOtherUnits e s t .fei hexec (.inr ⟨hop, by decide⟩)).symm
  simp only [List.mem_cons, Prod.mk.injEq, List.not_mem_nil, or_false] at hmode
  rcases hmode with ⟨rfl, rfl⟩ | ⟨rfl, rfl⟩ | ⟨rfl, rfl⟩ | ⟨rfl, rfl⟩
  all_goals have hcontext := hcontext (by decide); have ht := Host.Outcome.next.inj hexec; refine ⟨_, rfl, ?_⟩
  · rw [feiDecEcb, hcontext]
    exact blockwise_roundTrip (ecb_undoneBy_ecb (by decide) hlength hinverse) hw hw' ht herr hdin
  · rw [feiDecCbc, hcontext]
    exact chained_roundTrip (by decide) (fun _ => cbcEnc_undoneBy_cbcDec (by decide) hlength hinverse) hw hw' ht herr hiv hdin
  · rw [feiDecCfb, hcontext]
    exact chained_roundTrip (by decide) (fun iv _ => cfbEnc_undoneBy_cfbDec (by decide) hlength iv) hw hw' ht herr hiv hdin
  · rw [feiDecCtr, hcontext]
    exact chained_roundTrip (by decide) (fun nonce _ => ctrMode_undoneBy_ctrMode (by decide) hlength nonce 0) hw hw' ht herr hiv hdin

end Sys2Proof.Machine

/-! PROOFS. The nibbles of a word and the bits of a byte (41 R133, 43 R184, R186): a substitution through eight tables acts on
each nibble alone. -/

namespace Sys2Proof.Machine

/-! ## Nibbles -/

/-- Bit i of a word is bit i mod 4 of its nibble i div 4. -/
theorem getLsbD_eq_getLsbD_nibbleAt (x : Word) (i : Nat) : x.getLsbD i = (nibbleAt x (i / 4)).getLsbD (i % 4) := by
  have hbit : i % 4 < 4 := Nat.mod_lt i (by decide)
  simp [nibbleAt, hbit, Nat.div_add_mod]

theorem eq_of_nibbleAt_eq {x y : Word} (h : ∀ j : Fin 8, nibbleAt x j.val = nibbleAt y j.val) : x = y :=
  BitVec.eq_of_getLsbD_eq fun i hi => by
    rw [getLsbD_eq_getLsbD_nibbleAt x, getLsbD_eq_getLsbD_nibbleAt y, h ⟨i / 4, by omega⟩]

theorem extractLsb'_append_nibble_zero {n : Nat} (x : BitVec n) (v : Nibble) : (x ++ v).extractLsb' 0 4 = v := by
  rw [BitVec.extractLsb'_append_eq_of_add_le (by decide), BitVec.extractLsb'_eq_self]

theorem extractLsb'_append_nibble_add {n : Nat} (x : BitVec n) (v : Nibble) (k : Nat) :
    (x ++ v).extractLsb' (k + 4) 4 = x.extractLsb' k 4 := by
  rw [BitVec.extractLsb'_append_eq_of_le (by omega), Nat.add_sub_cancel]

theorem nibbleAt_subNibbles (t : Fin 8 → Nibble → Nibble) (x : Word) (j : Fin 8) :
    nibbleAt (subNibbles t x) j.val = t j (nibbleAt x j.val) := by
  unfold nibbleAt subNibbles
  fin_cases j
  all_goals simp only [Nat.reduceMul, extractLsb'_append_nibble_zero, extractLsb'_append_nibble_add, BitVec.extractLsb'_eq_self]
  all_goals rfl

theorem subNibbles_subNibbles_cancel {t u : Fin 8 → Nibble → Nibble} (h : ∀ j v, t j (u j v) = v) (x : Word) :
    subNibbles t (subNibbles u x) = x :=
  eq_of_nibbleAt_eq fun j => by rw [nibbleAt_subNibbles, nibbleAt_subNibbles, h]

theorem subNibbles_of_identity {t : Fin 8 → Nibble → Nibble} (h : ∀ j v, t j v = v) (x : Word) : subNibbles t x = x :=
  eq_of_nibbleAt_eq fun j => by rw [nibbleAt_subNibbles, h]

/-! ## Bits of a byte -/

theorem getLsbD_append_ofBool_zero {n : Nat} (x : BitVec n) (b : Bool) : (x ++ BitVec.ofBool b).getLsbD 0 = b := by
  rw [BitVec.getLsbD_append, if_pos (by decide), BitVec.getLsbD_ofBool]
  simp

theorem getLsbD_append_ofBool_succ {n : Nat} (x : BitVec n) (b : Bool) (k : Nat) :
    (x ++ BitVec.ofBool b).getLsbD (k + 1) = x.getLsbD k := by
  simp [BitVec.getLsbD_append]

theorem getLsbD_byteOfBits (f : Fin 8 → Bool) (j : Fin 8) : (byteOfBits f).getLsbD j.val = f j := by
  unfold byteOfBits
  fin_cases j
  all_goals simp only [getLsbD_append_ofBool_zero, getLsbD_append_ofBool_succ, BitVec.getLsbD_ofBool, decide_true, Bool.true_and]
  all_goals rfl

end Sys2Proof.Machine

/-! PROOFS. `SPN_L` (43 R188, R194) as an exclusive or of rotations. Such a map applied twice has its amounts doubled, the mixed
terms standing twice; after five doublings every amount is a whole turn, and a word that `SPN_L` takes to 0 is kept by ever shorter
rotations. -/

namespace Sys2Proof.Machine

/-! ## Rotations of exclusive ors -/

theorem rotl_xor {n : Nat} (x y : BitVec n) (r : Nat) : rotl (x ^^^ y) r = rotl x r ^^^ rotl y r :=
  eq_of_getLsbD_rotated r fun i hi => by
    rw [getLsbD_rotl _ r hi, BitVec.getLsbD_xor, BitVec.getLsbD_xor, getLsbD_rotl _ r hi, getLsbD_rotl _ r hi]

theorem rotl_comm {n : Nat} (x : BitVec n) (r t : Nat) : rotl (rotl x r) t = rotl (rotl x t) r := by
  rw [rotl_rotl, rotl_rotl, add_comm]

theorem rotl_zero_bitVec {n : Nat} (r : Nat) : rotl (0#n) r = 0#n :=
  eq_of_getLsbD_rotated r fun i hi => by rw [getLsbD_rotl _ r hi, BitVec.getLsbD_zero, BitVec.getLsbD_zero]

/-! ## Exclusive ors of rotations -/

/-- The exclusive or of the rotations of a word by the amounts listed. -/
def xorRotations (rs : List Nat) (x : Word) : Word := rs.foldr (fun r y => rotl x r ^^^ y) 0#32

theorem xorRotations_cons (r : Nat) (rs : List Nat) (x : Word) :
    xorRotations (r :: rs) x = rotl x r ^^^ xorRotations rs x := rfl

theorem xorRotations_xor (rs : List Nat) (x y : Word) :
    xorRotations rs (x ^^^ y) = xorRotations rs x ^^^ xorRotations rs y := by
  induction rs with
  | nil => simp [xorRotations]
  | cons r rs ih =>
    simp only [xorRotations_cons, ih, rotl_xor]
    ac_rfl

theorem xorRotations_rotl (rs : List Nat) (x : Word) (r : Nat) : xorRotations rs (rotl x r) = rotl (xorRotations rs x) r := by
  induction rs with
  | nil => exact (rotl_zero_bitVec r).symm
  | cons t rs ih => rw [xorRotations_cons, xorRotations_cons, ih, rotl_xor, rotl_comm]

/-- Squaring: the mixed terms stand twice and vanish. -/
theorem xorRotations_xorRotations (rs : List Nat) (x : Word) :
    xorRotations rs (xorRotations rs x) = xorRotations (rs.map (2 * ·)) x := by
  induction rs with
  | nil => rfl
  | cons r rs ih =>
    calc xorRotations (r :: rs) (xorRotations (r :: rs) x)
        = (rotl (rotl x r) r ^^^ rotl (xorRotations rs x) r) ^^^
            (rotl (xorRotations rs x) r ^^^ xorRotations rs (xorRotations rs x)) := by
          rw [xorRotations_cons, xorRotations_cons, rotl_xor, xorRotations_xor, xorRotations_rotl]
      _ = rotl (rotl x r) r ^^^ xorRotations rs (xorRotations rs x) := by
          rw [BitVec.xor_assoc, ← BitVec.xor_assoc (rotl (xorRotations rs x) r), BitVec.xor_self, BitVec.zero_xor]
      _ = xorRotations ((r :: rs).map (2 * ·)) x := by rw [ih, List.map_cons, xorRotations_cons, rotl_rotl, ← two_mul]

/-- 2^k applications multiply every amount by 2^k. -/
theorem iterate_xorRotations (rs : List Nat) (k : Nat) (x : Word) :
    (xorRotations rs)^[2 ^ k] x = xorRotations (rs.map (2 ^ k * ·)) x := by
  induction k generalizing x with
  | zero => simp
  | succ k ih =>
    have htwice : (xorRotations rs)^[2 ^ (k + 1)] x = (xorRotations rs)^[2 ^ k] ((xorRotations rs)^[2 ^ k] x) := by
      rw [← Function.iterate_add_apply, ← two_mul, pow_succ']
    rw [htwice, ih, ih, xorRotations_xorRotations, List.map_map]
    simp only [Function.comp_def, ← mul_assoc, ← pow_succ']

/-! ## `SPN_L` -/

/-- The amounts of `SPN_L`, the word itself as a rotation by 0. -/
def spnLAmounts : List Nat := [0, 13, 3, 1, 7, 5]

theorem spnL_eq_xorRotations : spnL = xorRotations spnLAmounts := by
  funext x
  have hzero : rotl x 0 = x := rotl_of_mod_eq_zero x (by decide)
  simp only [spnL, spnLAmounts, xorRotations, List.foldr, hzero, BitVec.xor_zero, BitVec.xor_assoc]

theorem spnL_xor (x y : Word) : spnL (x ^^^ y) = spnL x ^^^ spnL y := by
  rw [spnL_eq_xorRotations, xorRotations_xor]

theorem iterate_spnL (k : Nat) (x : Word) : spnL^[2 ^ k] x = xorRotations (spnLAmounts.map (2 ^ k * ·)) x := by
  rw [spnL_eq_xorRotations, iterate_xorRotations]

/-- 32 times any amount is a whole number of turns, and the word stands six times. -/
theorem iterate_spnL_32 (x : Word) : spnL^[32] x = 0 := by
  have hturn : ∀ r, rotl x (2 ^ 5 * r) = x := fun r => rotl_of_mod_eq_zero x (Nat.mul_mod_right 32 r)
  have hsum : spnL^[2 ^ 5] x = x ^^^ (x ^^^ (x ^^^ (x ^^^ (x ^^^ (x ^^^ 0#32))))) := by
    rw [iterate_spnL]
    simp only [spnLAmounts, xorRotations, List.map, List.foldr, hturn]
  simpa using hsum

/-! ## The kernel -/

theorem rotl_of_invariant {n : Nat} {x : BitVec n} {r : Nat} (h : rotl x r = x) (k : Nat) : rotl x (r * k) = x := by
  induction k with
  | zero => exact rotl_of_mod_eq_zero x (Nat.zero_mod n)
  | succ k ih => rw [Nat.mul_succ, ← rotl_rotl, ih, h]

theorem rotl_odd_mul {n : Nat} {x : BitVec n} {m : Nat} (h : rotl x (2 * m) = x) (k : Nat) :
    rotl x (m * (2 * k + 1)) = rotl x m := by
  rw [show m * (2 * k + 1) = 2 * m * k + m by ring, ← rotl_rotl, rotl_of_invariant h]

/-- For a word that a rotation by 2^(k+1) keeps, the five odd amounts all count as one, and four of the five cancel. -/
theorem iterate_spnL_of_invariant {x : Word} {k : Nat} (h : rotl x (2 ^ (k + 1)) = x) :
    spnL^[2 ^ k] x = x ^^^ rotl x (2 ^ k) := by
  have hodd : ∀ t, rotl x (2 ^ k * (2 * t + 1)) = rotl x (2 ^ k) := rotl_odd_mul (by rwa [← pow_succ'])
  have hzero : rotl x 0 = x := rotl_of_mod_eq_zero x rfl
  rw [iterate_spnL]
  simp [spnLAmounts, xorRotations, hzero, hodd 6, hodd 1, hodd 3, hodd 2]

/-- From a whole turn down: each rotation that keeps the word gives the one by half its amount. -/
theorem rotl_pow_of_spnL_eq_zero {x : Word} (h : spnL x = 0) {k : Nat} (hk : k ≤ 5) : rotl x (2 ^ k) = x := by
  induction hk using Nat.decreasingInduction with
  | self => exact rotl_of_mod_eq_zero x rfl
  | of_succ k hk ih =>
    have hiterate : spnL^[2 ^ k] x = 0 := by
      have hfix : spnL 0 = 0 := by decide
      obtain ⟨m, hm⟩ := Nat.exists_eq_succ_of_ne_zero (Nat.two_pow_pos k).ne'
      rw [hm, Function.iterate_succ_apply, h, Function.iterate_fixed hfix]
    rw [iterate_spnL_of_invariant ih] at hiterate
    exact (BitVec.xor_eq_zero_iff.1 hiterate).symm

/-- Where a rotation by one place keeps a word, all its bits are the same. -/
theorem eq_zero_or_allOnes_of_rotl_one {n : Nat} {x : BitVec n} (h : rotl x 1 = x) : x = 0 ∨ x = BitVec.allOnes n := by
  have hbits : ∀ i < n, x.getLsbD i = x.getLsbD 0 := by
    intro i
    induction i with
    | zero => exact fun _ => rfl
    | succ i ih =>
      intro hi
      have hmove := getLsbD_rotl x 1 (i := i) (by omega)
      rw [h, Nat.mod_eq_of_lt hi] at hmove
      rw [hmove, ih (by omega)]
  cases h0 : x.getLsbD 0
  case false => exact .inl (BitVec.eq_of_getLsbD_eq fun i hi => by rw [hbits i hi, h0]; simp)
  case true => exact .inr (BitVec.eq_of_getLsbD_eq fun i hi => by rw [hbits i hi, h0]; simp [hi])

theorem spnL_eq_zero_iff (x : Word) : spnL x = 0 ↔ x = 0 ∨ x = 0xFFFFFFFF#32 := by
  constructor
  · exact fun h => eq_zero_or_allOnes_of_rotl_one (rotl_pow_of_spnL_eq_zero h (k := 0) (by decide))
  · rintro (rfl | rfl)
    · decide
    · decide

end Sys2Proof.Machine

/-! PROOFS. The block functions of `SPN` (43 R186 to R192): the bit permutations and the packing undone, and what the kernel of
`SPN_L` makes of `SPN_E` (R194). -/

namespace Sys2Proof.Machine

open Config (Params ByteOrder)

/-! ## The bits of a block (43 R186) -/

/-- 43 R186. -/
theorem blockBit_permBits (t : Fin 128 → Fin 128) (b : Bytes) (i : Fin 128) :
    blockBit (permBits t b) i.val = blockBit b (t i).val := by
  have hbyte : byteAt (permBits t b) (i.val / 8) =
      byteOfBits fun j => blockBit b (t ⟨8 * (i.val / 8) + j.val, by omega⟩).val := by
    have hin : i.val / 8 < (permBits t b).length := by rw [length_permBits]; omega
    rw [byteAt, List.getD_eq_getElem _ _ hin]
    simp [permBits]
  have hindex : (⟨8 * (i.val / 8) + i.val % 8, by omega⟩ : Fin 128) = i := Fin.ext (Nat.div_add_mod i.val 8)
  rw [blockBit, hbyte]
  exact (getLsbD_byteOfBits _ ⟨i.val % 8, Nat.mod_lt _ (by decide)⟩).trans (by rw [hindex])

theorem eq_of_blockBit_eq {a b : Bytes} (ha : a.length = 16) (hb : b.length = 16)
    (h : ∀ i : Fin 128, blockBit a i.val = blockBit b i.val) : a = b := by
  refine List.ext_getElem (ha.trans hb.symm) fun k hka hkb => BitVec.eq_of_getLsbD_eq fun j hj => ?_
  have hbit := h ⟨8 * k + j, by omega⟩
  rw [blockBit, blockBit, show (8 * k + j) / 8 = k by omega, show (8 * k + j) % 8 = j by omega, byteAt, byteAt,
    List.getD_eq_getElem _ _ hka, List.getD_eq_getElem _ _ hkb] at hbit
  exact hbit

theorem permBits_permBits_cancel {t u : Fin 128 → Fin 128} (h : ∀ i, t (u i) = i) {b : Bytes} (hb : b.length = 16) :
    permBits u (permBits t b) = b :=
  eq_of_blockBit_eq (length_permBits _ _) hb fun i => by rw [blockBit_permBits, blockBit_permBits, h]

/-- Settles O31: bit i of the permuted block is bit T[i], so the two tables applied one after the other give bit i. -/
theorem spnPermutationsAreInverse : Obligations.SpnPermutationsAreInverse := fun P _ hb =>
  ⟨permBits_permBits_cancel P.spnIp.apply_symm_apply hb, permBits_permBits_cancel P.spnIp.symm_apply_apply hb⟩

/-! ## The words of a block -/

theorem drop_wordsToBytes (o : ByteOrder) (ws : List Word) (j : Nat) :
    (wordsToBytes o ws).drop (4 * j) = wordsToBytes o (ws.drop j) := by
  induction j generalizing ws with
  | zero => rfl
  | succ j ih =>
    cases ws with
    | nil => simp [wordsToBytes]
    | cons w ws =>
      rw [List.drop_succ_cons, ← ih, wordsToBytes, List.flatMap_cons, ← wordsToBytes, mul_add, mul_one, add_comm,
        ← List.drop_drop, List.drop_left' (length_unpackWord o w)]

theorem wordAt_wordsToBytes (o : ByteOrder) {ws : List Word} {j : Nat} (h : j < ws.length) :
    wordAt o (wordsToBytes o ws) j = ws[j] := by
  rw [wordAt, drop_wordsToBytes, List.drop_eq_getElem_cons h]
  exact packWord_unpackWord_append o _ _

theorem spnSplit_spnJoin (P : Params) (x : Vector Word 4) : spnSplit P (spnJoin P x) = x :=
  Vector.ext fun j hj => by
    rw [spnSplit, Vector.getElem_ofFn, spnJoin, wordAt_wordsToBytes _ (by simpa using hj)]
    simp

theorem getElem_addRoundKey (k x : Vector Word 4) {j : Nat} (hj : j < 4) : (addRoundKey k x)[j] = x[j] ^^^ k[j] := by
  simp [addRoundKey]

theorem getElem_mapWords (f : Word → Word) (x : Vector Word 4) {j : Nat} (hj : j < 4) : (mapWords f x)[j] = f x[j] := by
  simp [mapWords]

theorem addRoundKey_addRoundKey (k x : Vector Word 4) : addRoundKey k (addRoundKey k x) = x :=
  Vector.ext fun j hj => by
    rw [getElem_addRoundKey _ _ hj, getElem_addRoundKey _ _ hj, BitVec.xor_assoc, BitVec.xor_self, BitVec.xor_zero]

theorem mapWords_mapWords_cancel {f g : Word → Word} (h : ∀ w, f (g w) = w) (x : Vector Word 4) :
    mapWords f (mapWords g x) = x :=
  Vector.ext fun j hj => by rw [getElem_mapWords _ _ hj, getElem_mapWords _ _ hj, h]

theorem spnNib_spnNibInv (P : Params) (s : Fin 8) (x : Word) : spnNib P s (spnNibInv P s x) = x :=
  subNibbles_subNibbles_cancel (fun _ => (P.spnSbox s).apply_symm_apply) x

/-! ## Two blocks with the same encryption -/

/-- The four words of a block before `SPN_L` in round 0 (43 R189). -/
def spnBeforeL (P : Params) (rk : Vector (Vector Word 4) 33) (b : Bytes) : Vector Word 4 :=
  mapWords (spnNib P (spnTable 0)) (addRoundKey (spnRoundKey rk 0) (spnSplit P (permBits P.spnIp b)))

/-- What comes before `SPN_L` can be undone, so any four words come before it, of some block. -/
theorem exists_block_spnBeforeL (P : Params) (rk : Vector (Vector Word 4) 33) (y : Vector Word 4) :
    ∃ b : Bytes, b.length = 16 ∧ spnBeforeL P rk b = y := by
  refine ⟨permBits P.spnIp.symm (spnJoin P (addRoundKey (spnRoundKey rk 0) (mapWords (spnNibInv P (spnTable 0)) y))),
    length_permBits _ _, ?_⟩
  have hjoin (x : Vector Word 4) : (spnJoin P x).length = 16 := by simp [spnJoin]
  rw [spnBeforeL, permBits_permBits_cancel P.spnIp.symm_apply_apply (hjoin _), spnSplit_spnJoin, addRoundKey_addRoundKey,
    mapWords_mapWords_cancel (spnNib_spnNibInv P _)]

theorem foldl_range_succ_congr {α : Type} {f : α → Nat → α} {x x' : α} (h : f x 0 = f x' 0) (n : Nat) :
    (List.range (n + 1)).foldl f x = (List.range (n + 1)).foldl f x' := by
  rw [List.range_succ_eq_map, List.foldl_cons, List.foldl_cons, h]

/-- The block enters the later rounds only through the words after the first `SPN_L`. -/
theorem spnE_eq_of_mapWords_spnL_eq {P : Params} {rk : Vector (Vector Word 4) 33} {b b' : Bytes}
    (h : mapWords spnL (spnBeforeL P rk b) = mapWords spnL (spnBeforeL P rk b')) : spnE P rk b = spnE P rk b' := by
  have hrounds := foldl_range_succ_congr (f := fun x r => spnEncRound P rk r x) h 31
  exact congrArg (fun x => permBits P.spnIp.symm (spnJoin P (addRoundKey (spnRoundKey rk 32) x))) hrounds

theorem exists_spnE_collision (P : Params) (rk : Vector (Vector Word 4) 33) :
    ∃ b b' : Bytes, b.length = 16 ∧ b'.length = 16 ∧ b ≠ b' ∧ spnE P rk b = spnE P rk b' := by
  obtain ⟨b, hb, hzero⟩ := exists_block_spnBeforeL P rk (Vector.replicate 4 0#32)
  obtain ⟨b', hb', hones⟩ := exists_block_spnBeforeL P rk (Vector.replicate 4 0xFFFFFFFF#32)
  refine ⟨b, b', hb, hb', ?_, spnE_eq_of_mapWords_spnL_eq ?_⟩
  · rintro rfl
    exact absurd (hzero.symm.trans hones) (by decide)
  · rw [hzero, hones]
    decide

/-- Settles O32: `SPN_L` through its amounts; the two blocks are those that stand before the first `SPN_L` as four words 0 and as
four words 0xFFFFFFFF, which `SPN_L` takes to the same words. -/
theorem spnEncryptionIsNotInjective : Obligations.SpnEncryptionIsNotInjective :=
  ⟨spnL_xor, spnL_eq_zero_iff, iterate_spnL_32, exists_spnE_collision⟩

/-! ## Identity S-boxes -/

section
variable {P : Params} (hid : ∀ n v, P.spnSbox n v = v)
include hid

theorem spnNib_of_identity (s : Fin 8) (x : Word) : spnNib P s x = x := subNibbles_of_identity (fun _ => hid s) x

/-- Without S-boxes a round is affine: of the difference of two states only `SPN_L` remains. -/
theorem getElem_spnEncRound_xor (rk : Vector (Vector Word 4) 33) (r : Nat) (x x' : Vector Word 4) {j : Nat} (hj : j < 4) :
    (spnEncRound P rk r x)[j] ^^^ (spnEncRound P rk r x')[j] = spnL (x[j] ^^^ x'[j]) := by
  simp only [spnEncRound, getElem_mapWords _ _ hj, getElem_addRoundKey _ _ hj, spnNib_of_identity hid, ← spnL_xor]
  congr 1
  rw [BitVec.xor_comm x'[j], BitVec.xor_assoc, ← BitVec.xor_assoc _ _ x'[j], BitVec.xor_self, BitVec.zero_xor]

theorem getElem_foldl_spnEncRound_xor (rk : Vector (Vector Word 4) 33) (n : Nat) (x x' : Vector Word 4) {j : Nat} (hj : j < 4) :
    ((List.range n).foldl (fun x r => spnEncRound P rk r x) x)[j] ^^^
      ((List.range n).foldl (fun x r => spnEncRound P rk r x) x')[j] = spnL^[n] (x[j] ^^^ x'[j]) := by
  induction n with
  | zero => rfl
  | succ n ih =>
    simp only [List.range_succ, List.foldl_append, List.foldl_cons, List.foldl_nil]
    rw [getElem_spnEncRound_xor hid rk n _ _ hj, ih, Function.iterate_succ_apply']

theorem spnEncWords_eq_of_identity (rk : Vector (Vector Word 4) 33) (x x' : Vector Word 4) :
    spnEncWords P rk x = spnEncWords P rk x' := by
  refine congrArg (addRoundKey _) (Vector.ext fun j hj => BitVec.xor_eq_zero_iff.1 ?_)
  exact (getElem_foldl_spnEncRound_xor hid rk 32 x x' hj).trans (iterate_spnL_32 _)

end

/-- Settles O33: the difference of two blocks goes through `SPN_L` once a round, and 32 rounds make it 0. -/
theorem spnWithIdentitySboxesIgnoresTheBlock : Obligations.SpnWithIdentitySboxesIgnoresTheBlock := fun P rk _ _ hid =>
  congrArg (fun x => permBits P.spnIp.symm (spnJoin P x)) (spnEncWords_eq_of_identity hid rk _ _)

end Sys2Proof.Machine

/-! PROOFS. The padding of `SPN` (43 R200): `UNPAD16` says yes to what `PAD16` makes and to nothing else. -/

namespace Sys2Proof.Machine

theorem padCount_pos (n : Nat) : 1 ≤ padCount n := by unfold padCount; omega

theorem padCount_le (n : Nat) : padCount n ≤ 16 := Nat.sub_le 16 _

/-- The number of padding bytes, as the last byte of the message says it (43 R200). -/
def lastByte (m : Bytes) : Nat := (byteAt m (m.length - 1)).toNat

theorem unpad16_eq_some_iff (m p : Bytes) :
    unpad16 m = some p ↔ 1 ≤ lastByte m ∧ lastByte m ≤ 16 ∧
      (∀ b ∈ m.drop (m.length - lastByte m), b.toNat = lastByte m) ∧ m.take (m.length - lastByte m) = p := by
  have hunpad : unpad16 m =
      if lastByte m = 0 ∨ 16 < lastByte m ∨ (m.drop (m.length - lastByte m)).any (fun b => b.toNat ≠ lastByte m) then none
      else some (m.take (m.length - lastByte m)) := rfl
  rw [hunpad]
  split
  next hbad =>
    refine ⟨nofun, fun ⟨hpos, hle, hall, _⟩ => ?_⟩
    rcases hbad with hzero | hlarge | hany
    · omega
    · omega
    · obtain ⟨b, hb, hne⟩ := List.any_eq_true.1 hany
      exact absurd (hall b hb) (by simpa using hne)
  next hok =>
    simp only [not_or, List.any_eq_true, not_exists, not_and, decide_eq_true_eq, not_not] at hok
    obtain ⟨hpos, hle, hall⟩ := hok
    rw [Option.some.injEq]
    exact ⟨fun h => ⟨by omega, by omega, hall, h⟩, fun ⟨_, _, _, h⟩ => h⟩

/-- A message of whole blocks whose last bytes are valid padding is the rest of it, padded. -/
theorem eq_pad16_of_unpad16 {m p : Bytes} (hne : m ≠ []) (hlen : m.length % 16 = 0) (h : unpad16 m = some p) : m = pad16 p := by
  obtain ⟨hpos, hle, hall, rfl⟩ := (unpad16_eq_some_iff m p).1 h
  have hm : 0 < m.length := List.length_pos_iff.2 hne
  have hcount : padCount (m.take (m.length - lastByte m)).length = lastByte m := by
    rw [List.length_take, padCount]; omega
  have hpadding : m.drop (m.length - lastByte m) = List.replicate (lastByte m) (BitVec.ofNat 8 (lastByte m)) := by
    refine List.eq_replicate_iff.2 ⟨by rw [List.length_drop]; omega, fun b hb => ?_⟩
    rw [← hall b hb, BitVec.ofNat_toNat, BitVec.setWidth_eq]
  rw [pad16, hcount, ← hpadding, List.take_append_drop]

theorem lastByte_pad16 (p : Bytes) : lastByte (pad16 p) = padCount p.length := by
  have hpos := padCount_pos p.length
  have hle := padCount_le p.length
  have hlength : (pad16 p).length = p.length + padCount p.length := by simp [pad16]
  rw [lastByte, hlength, byteAt, pad16, List.getD_append_right _ _ _ _ (by omega),
    List.getD_eq_getElem _ _ (by rw [List.length_replicate]; omega), List.getElem_replicate, BitVec.toNat_ofNat]
  omega

theorem unpad16_pad16 (p : Bytes) : unpad16 (pad16 p) = some p := by
  have hpos := padCount_pos p.length
  have hle := padCount_le p.length
  have hstart : (pad16 p).length - padCount p.length = p.length := by simp [pad16]
  rw [unpad16_eq_some_iff, lastByte_pad16, hstart]
  refine ⟨hpos, hle, fun b hb => ?_, List.take_left⟩
  rw [pad16, List.drop_left] at hb
  rw [List.eq_of_mem_replicate hb, BitVec.toNat_ofNat]
  omega

/-- Settles O34: on whole blocks the last byte of valid padding is the count that `PAD16` takes for the rest. -/
theorem unpaddingUndoesExactlyPadding : Obligations.UnpaddingUndoesExactlyPadding :=
  ⟨fun m => ⟨padCount m.length, padCount_pos _, padCount_le _, rfl, length_pad16_mod m⟩,
    fun _ p hne hlen => ⟨eq_pad16_of_unpad16 hne hlen, fun h => h ▸ unpad16_pad16 p⟩⟩

end Sys2Proof.Machine

/-! PROOFS. The key schedule of `SPN` (43 R181 to R185), and the commands without a mode: `SPN.INIT`, `SPN.ENCB` and `SPN.DECB`. -/

namespace Sys2Proof.Machine

open Config (Params)

/-! ## The prekey words (43 R182) -/

/-- The eight prekey words of a padded key, and n more after them. -/
def spnPrekeysAfter (padded : Bytes) (n : Nat) : List Word :=
  (List.range n).foldl (fun w i => w ++ [spnNextPrekey w (i + 8)]) ((List.range 8).map fun j => wordAt .little padded j)

theorem spnPrekeys_eq (padded : Bytes) : spnPrekeys padded = spnPrekeysAfter padded 132 := rfl

theorem spnPrekeysAfter_succ (padded : Bytes) (n : Nat) :
    spnPrekeysAfter padded (n + 1) = spnPrekeysAfter padded n ++ [spnNextPrekey (spnPrekeysAfter padded n) (n + 8)] := by
  rw [spnPrekeysAfter, List.range_succ (n := n), List.foldl_append, List.foldl_cons, List.foldl_nil, ← spnPrekeysAfter]

theorem length_spnPrekeysAfter (padded : Bytes) (n : Nat) : (spnPrekeysAfter padded n).length = n + 8 := by
  induction n with
  | zero => rfl
  | succ n ih => rw [spnPrekeysAfter_succ, List.length_append, ih, List.length_singleton, Nat.add_right_comm]

/-- A prekey word is not changed once it is there. -/
theorem getD_spnPrekeysAfter {padded : Bytes} {i m n : Nat} (hi : i < m + 8) (hmn : m ≤ n) :
    (spnPrekeysAfter padded n).getD i 0 = (spnPrekeysAfter padded m).getD i 0 := by
  induction n, hmn using Nat.le_induction with
  | base => rfl
  | succ n hmn ih => rw [spnPrekeysAfter_succ, List.getD_append _ _ _ _ (by rw [length_spnPrekeysAfter]; omega), ih]

theorem getD_spnPrekeys_key (padded : Bytes) {i : Nat} (hi : i < 8) :
    (spnPrekeys padded).getD i 0 = le32 (padded.drop (4 * i)) := by
  rw [spnPrekeys_eq, getD_spnPrekeysAfter (m := 0) (by omega) (by omega), spnPrekeysAfter, List.range_zero, List.foldl_nil,
    List.getD_eq_getElem _ _ (by simpa using hi)]
  simp [wordAt, packWord]

/-- 43 R182: the recurrence, over the finished list: it reads only words that were there before. -/
theorem getD_spnPrekeys_next (padded : Bytes) {i : Nat} (hlow : 8 ≤ i) (hhigh : i < 140) :
    (spnPrekeys padded).getD i 0 = spnNextPrekey (spnPrekeys padded) i := by
  obtain ⟨n, rfl⟩ := Nat.exists_eq_add_of_le' hlow
  have hlast : (spnPrekeys padded).getD (n + 8) 0 = spnNextPrekey (spnPrekeysAfter padded n) (n + 8) := by
    rw [spnPrekeys_eq, getD_spnPrekeysAfter (m := n + 1) (by omega) (by omega), spnPrekeysAfter_succ,
      List.getD_append_right _ _ _ _ (length_spnPrekeysAfter padded n).le, length_spnPrekeysAfter, Nat.sub_self]
    rfl
  have hbefore : ∀ k < n + 8, (spnPrekeysAfter padded n).getD k 0 = (spnPrekeys padded).getD k 0 := fun k hk =>
    (getD_spnPrekeysAfter (n := 132) hk (by omega)).symm
  rw [hlast, spnNextPrekey, hbefore _ (by omega), hbefore _ (by omega), hbefore _ (by omega), hbefore _ (by omega), ← spnNextPrekey]

/-! ## The commands -/

/-- 43 R181: the padded key, of the bytes of `KEY`. -/
theorem spnPadKey_operand (r : State) : spnPadKey (operand r .key) =
    if r.keyLen = 32 then memRead r .key 0 32
    else memRead r .key 0 r.keyLen ++ [0x01#8] ++ List.replicate (31 - r.keyLen) 0 := by
  rw [spnPadKey, length_operand, lenOf_key]
  split
  next h => rw [operand, lenOf_key, h]
  next => rfl

/-- 43 R185. -/
theorem getElem_spnSchedule (P : Params) (key : Bytes) (n : Fin 33) (j : Fin 4) :
    (spnSchedule P key)[n][j] = spnNib P (spnTable n.val) ((spnPrekeys (spnPadKey key)).getD (8 + 4 * n.val + j.val) 0) := by
  simp [spnSchedule]

/-- Settles O29: the frame of every `INIT`, the round keys through the prekey words of the resolved key. -/
theorem spnInitRule : Obligations.SpnInitRule := by
  refine ⟨by decide, fun s hc => ⟨fun hlen => ?_, fun hempty h16 h24 h32 => ?_⟩⟩
  · obtain ⟨hkey, -, -, -⟩ := hc
    have haccepted : (s.keyLen = 0 ∧ 32 ∈ [16, 24, 32]) ∨ (s.keyLen ≠ 0 ∧ s.keyLen ∈ [16, 24, 32]) := by
      by_cases hempty : s.keyLen = 0
      · exact .inl ⟨hempty, by decide⟩
      · exact .inr ⟨hempty, by simpa [hempty] using hlen⟩
    let r := resolveOperand .key 32 s
    exact ⟨r, _, spnPadKey (operand r .key), fun i => (spnPrekeys (spnPadKey (operand r .key))).getD i 0,
      keyResolved_resolveOperand hkey 32, congrArg Host.Outcome.next (initUnit_ok (loadSpn params) haccepted), rfl, rfl,
      spnPadKey_operand r, fun i hi => getD_spnPrekeys_key _ hi, fun i hlow hhigh => getD_spnPrekeys_next _ hlow hhigh,
      getElem_spnSchedule params (operand r .key)⟩
  · exact congrArg Host.Outcome.next (initUnit_bad (loadSpn params) hempty (by simp [h16, h24, h32]))

/-- The three ways a single-block command ends, by the key and the length of the message (43 R190, R193). -/
theorem singleBlock_rules {s : State} (hw : s.doutBuf.wf) (keyed : Bool) (B : Nat) (f : Bytes → Bytes) :
    (keyed = false → singleBlock keyed B f s = rejected 5 s) ∧
    (keyed = true → s.dinLen ≠ B → singleBlock keyed B f s = rejected 2 s) ∧
    (keyed = true → s.dinLen = B → Delivers (f (memRead s .din 0 B)) s (singleBlock keyed B f s)) := by
  refine ⟨?_, ?_, ?_⟩
  · rintro rfl; exact singleBlock_not_keyed f
  · rintro rfl; exact singleBlock_misaligned f
  · rintro rfl; exact singleBlock_delivers f hw

/-- Settles O30: both commands are `singleBlock`, each with its block function. -/
theorem spnSingleBlockRules : Obligations.SpnSingleBlockRules := by
  refine ⟨by decide, fun s hc => ?_⟩
  obtain ⟨-, -, -, hdout⟩ := hc
  obtain ⟨henc5, henc2, henc⟩ := singleBlock_rules hdout s.spn.keyed 16 (spnE params s.spn.rk)
  obtain ⟨hdec5, hdec2, hdec⟩ := singleBlock_rules hdout s.spn.keyed 16 (spnD params s.spn.rk)
  exact ⟨fun hk => ⟨congrArg Host.Outcome.next (henc5 hk), congrArg Host.Outcome.next (hdec5 hk)⟩,
    fun hk hlen => ⟨congrArg Host.Outcome.next (henc2 hk hlen), congrArg Host.Outcome.next (hdec2 hk hlen)⟩,
    fun hk hlen => ⟨⟨_, rfl, henc hk hlen⟩, _, rfl, hdec hk hlen⟩⟩

end Sys2Proof.Machine

/-! PROOFS. Outputs of any message of whole blocks: the blocks of what ECB and CBC make of it (43 R201 to R205), where the message is
not `DIN` itself but padded, or a part of it. -/

namespace Sys2Proof.Machine

section
variable {B : Nat} {f : Bytes → Bytes} {m : Bytes}

theorem mul_length_blocks (hB : 0 < B) (hm : m.length % B = 0) : B * (blocks B m).length = m.length := by
  rw [length_blocks, blockCount_of_dvd hB hm, Nat.mul_div_cancel' (Nat.dvd_of_mod_eq_zero hm)]

/-- 43 R201, R202. -/
theorem blocks_ecb (hB : 0 < B) (hf : ∀ b, (f b).length = B) (hm : m.length % B = 0) :
    blocks B (ecb f (blocks B m)) = (blocks B m).map f := by
  rw [ecb_eq, (sameLengths_map hf (length_of_mem_blocks hB hm)).blocks_flatten hB]

theorem blocks_cbcEnc (hB : 0 < B) (hf : ∀ b, (f b).length = B) (hm : m.length % B = 0) (iv : Bytes) :
    blocks B (cbcEnc f iv (blocks B m)) = cbcEncOut f iv (blocks B m) := by
  rw [cbcEnc_eq, (sameLengths_cbcEncOut hf iv (length_of_mem_blocks hB hm)).blocks_flatten hB]

theorem blocks_cbcDec (hB : 0 < B) (hf : ∀ b, (f b).length = B) (hm : m.length % B = 0) {iv : Bytes} (hiv : iv.length = B) :
    blocks B (cbcDec f iv (blocks B m)) = cbcDecOut f iv (blocks B m) := by
  rw [cbcDec_eq, (sameLengths_cbcDecOut hf hiv (length_of_mem_blocks hB hm)).blocks_flatten hB]

theorem length_ecb_blocks (hB : 0 < B) (hf : ∀ b, (f b).length = B) (hm : m.length % B = 0) :
    (ecb f (blocks B m)).length = m.length := by
  rw [length_ecb hf, mul_length_blocks hB hm]

theorem length_cbcEnc_blocks (hB : 0 < B) (hf : ∀ b, (f b).length = B) (hm : m.length % B = 0) (iv : Bytes) :
    (cbcEnc f iv (blocks B m)).length = m.length := by
  rw [length_cbcEnc hf, mul_length_blocks hB hm]

theorem length_cbcDec_blocks (hB : 0 < B) (hf : ∀ b, (f b).length = B) (hm : m.length % B = 0) {iv : Bytes} (hiv : iv.length = B) :
    (cbcDec f iv (blocks B m)).length = m.length := by
  rw [length_cbcDec hf iv _ hiv (length_of_mem_blocks hB hm), mul_length_blocks hB hm]

/-- Part i of a byte string whose blocks are known. -/
theorem slice_of_blocks_eq {os : List Bytes} (h : blocks B m = os) {i : Nat} (hi : i < os.length) :
    (m.drop (B * i)).take B = os[i] := by
  subst h
  rw [getElem_blocks]

theorem blocks_append_left {iv : Bytes} (hB : 0 < B) (hiv : iv.length = B) (m : Bytes) : blocks B (iv ++ m) = iv :: blocks B m := by
  have hne : iv ++ m ≠ [] := List.append_ne_nil_of_left_ne_nil (List.ne_nil_of_length_pos (by omega)) m
  rw [blocks_eq_cons hB hne, List.take_left' hiv, List.drop_left' hiv]

/-- 43 R204: with the IV before them, the output blocks hold `PREV` of block i in place i. -/
theorem getElem_cbcEncOut_cons (prev : Bytes) {bs : List Bytes} {i : Nat} (hi : i < bs.length) :
    (cbcEncOut f prev bs)[i]'(by simpa using hi) =
      f (xorBytes bs[i] ((prev :: cbcEncOut f prev bs)[i]'(by simp; omega))) := by
  rw [getElem_cbcEncOut f prev bs i hi]
  cases i <;> rfl

/-- 43 R205: with the IV before them, the input blocks hold `PREV` of block i in place i. -/
theorem getElem_cbcDecOut_cons (prev : Bytes) {bs : List Bytes} {i : Nat} (hi : i < bs.length) :
    (cbcDecOut f prev bs)[i]'(by simpa using hi) = xorBytes (f bs[i]) ((prev :: bs)[i]'(by simp; omega)) := by
  rw [getElem_cbcDecOut f prev bs i hi]
  cases i <;> rfl

/-- An output of whole blocks, read block by block. -/
theorem memRead_dout_deliver_of_blocks_eq {r : State} (hw : r.doutBuf.wf) (hB : 0 < B) (hm : m.length % B = 0) {os : List Bytes}
    (h : blocks B m = os) {i : Nat} (hi : i < os.length) : memRead (deliver m r) .dout (B * i) B = os[i] := by
  have hfits : B * i + B ≤ m.length := by
    rw [← mul_length_blocks hB hm, h, ← Nat.mul_succ]
    exact Nat.mul_le_mul_left B hi
  rw [memRead_dout_deliver hw m _ _ hfits, slice_of_blocks_eq h hi]

end

end Sys2Proof.Machine

/-! PROOFS. The modes of `SPN` (43 R201 to R205): padded and encrypted, or decrypted and unpadded. -/

namespace Sys2Proof.Machine

open Config (Params)

/-! ## `SPN.ENC.ECB` -/

section
variable {s : State} (P : Params)

theorem length_pad16_operand : (pad16 (operand s .din)).length = s.dinLen + 16 - s.dinLen % 16 := by
  rw [length_pad16, length_operand, lenOf_din]

theorem length_blocks_pad16_operand : (blocks 16 (pad16 (operand s .din))).length = s.dinLen / 16 + 1 := by
  have hmul := mul_length_blocks (B := 16) (by decide) (length_pad16_mod (operand s .din))
  rw [length_pad16_operand] at hmul
  omega

theorem spnEncEcb_delivers (hk : s.spn.keyed = true) :
    spnEncEcb P s = deliver (ecb (spnE P s.spn.rk) (blocks 16 (pad16 (operand s .din)))) s :=
  if_neg (ne_false_of_eq_true hk)

theorem spnEncEcb_blocks (hw : s.doutBuf.wf) (hk : s.spn.keyed = true) :
    OutputOnly (s.dinLen + 16 - s.dinLen % 16) s (spnEncEcb P s) ∧
      ∀ i < s.dinLen / 16 + 1, memRead (spnEncEcb P s) .dout (16 * i) 16 =
        spnE P s.spn.rk (((pad16 (operand s .din)).drop (16 * i)).take 16) := by
  have hpad := length_pad16_mod (operand s .din)
  have hf := length_spnE P s.spn.rk
  have hlength := length_ecb_blocks (by decide) hf hpad
  rw [spnEncEcb_delivers P hk]
  refine ⟨?_, fun i hi => ?_⟩
  · obtain ⟨houtput, -⟩ := deliver_delivers hw (ecb (spnE P s.spn.rk) (blocks 16 (pad16 (operand s .din))))
    rwa [hlength, length_pad16_operand] at houtput
  · have hi' : i < (blocks 16 (pad16 (operand s .din))).length := by rwa [length_blocks_pad16_operand]
    rw [memRead_dout_deliver_of_blocks_eq hw (by decide) (hlength ▸ hpad) (blocks_ecb (by decide) hf hpad) (by simpa using hi'),
      List.getElem_map, getElem_blocks]

/-! ## `SPN.DEC.ECB` -/

/-- 43 R202: the message that `SPN.DEC.ECB` unpads. -/
def spnDecEcbMessage (P : Params) (s : State) : Bytes := ecb (spnD P s.spn.rk) (blocks 16 (operand s .din))

theorem spnDecEcb_misaligned (hk : s.spn.keyed = true) (hlen : s.dinLen = 0 ∨ s.dinLen % 16 ≠ 0) :
    spnDecEcb P s = raise .blockAlignment s :=
  (if_neg (ne_false_of_eq_true hk)).trans (if_pos hlen)

theorem spnDecEcb_of_aligned (hk : s.spn.keyed = true) (hne : s.dinLen ≠ 0) (hlen : s.dinLen % 16 = 0) :
    spnDecEcb P s = (unpad16 (spnDecEcbMessage P s)).elim (raise .padding s) (deliver · s) := by
  rw [spnDecEcb, if_neg (ne_false_of_eq_true hk), if_neg (not_or.2 ⟨hne, not_not.2 hlen⟩), ← spnDecEcbMessage]
  cases unpad16 (spnDecEcbMessage P s) <;> rfl

theorem length_spnDecEcbMessage (hlen : s.dinLen % 16 = 0) : (spnDecEcbMessage P s).length = s.dinLen := by
  rw [spnDecEcbMessage, length_ecb_blocks (by decide) (length_spnD P _) (by rwa [length_operand]), length_operand, lenOf_din]

theorem slice_spnDecEcbMessage (hlen : s.dinLen % 16 = 0) {i : Nat} (hi : i < s.dinLen / 16) :
    ((spnDecEcbMessage P s).drop (16 * i)).take 16 = spnD P s.spn.rk (memRead s .din (16 * i) 16) := by
  have hblocks := blocks_ecb (B := 16) (by decide) (length_spnD P s.spn.rk) (m := operand s .din) (by rwa [length_operand])
  have hi' := lt_length_blocks_of_aligned (by decide) hlen hi
  rw [spnDecEcbMessage, slice_of_blocks_eq hblocks (by simpa using hi'), List.getElem_map,
    getElem_blocks_of_aligned (by decide) hlen hi]

/-! ## `SPN.ENC.CBC` -/

theorem spnEncCbc_bad_iv (hk : s.spn.keyed = true) (hempty : s.ivLen ≠ 0) (hiv : s.ivLen ≠ 16) :
    spnEncCbc P s = raise .ivLength s :=
  (if_neg (ne_false_of_eq_true hk)).trans (if_pos (Bool.eq_false_iff.2 fun hok => (ivAcceptedEnc_iff.1 hok).elim hempty hiv))

/-- 43 R204: what `SPN.ENC.CBC` delivers, r being the state with its IV. -/
def spnEncCbcOutput (P : Params) (r : State) : Bytes :=
  memRead r .iv 0 16 ++ cbcEnc (spnE P r.spn.rk) (memRead r .iv 0 16) (blocks 16 (pad16 (operand r .din)))

theorem spnEncCbc_delivers (hk : s.spn.keyed = true) (hiv : s.ivLen = 0 ∨ s.ivLen = 16) :
    spnEncCbc P s = deliver (spnEncCbcOutput P (resolveOperand .iv 16 s)) (resolveOperand .iv 16 s) := by
  rw [spnEncCbc, if_neg (ne_false_of_eq_true hk), if_neg (ne_false_of_eq_true (ivAcceptedEnc_iff.2 hiv)), spnEncCbcOutput,
    resolveOperand_spn]

theorem deliver_spnEncCbcOutput_blocks {r : State} (hw : r.doutBuf.wf) {t : State} (ht : t = deliver (spnEncCbcOutput P r) r) :
    OutputOnly (16 + (r.dinLen + 16 - r.dinLen % 16)) r t ∧ memRead t .dout 0 16 = memRead r .iv 0 16 ∧
      ∀ i < r.dinLen / 16 + 1, memRead t .dout (16 + 16 * i) 16 =
        spnE P r.spn.rk (xorBytes (((pad16 (operand r .din)).drop (16 * i)).take 16) (memRead t .dout (16 * i) 16)) := by
  have hpad := length_pad16_mod (operand r .din)
  have hf := length_spnE P r.spn.rk
  have hiv : (memRead r .iv 0 16).length = 16 := length_memRead _ _ _ _
  have hlength : (spnEncCbcOutput P r).length = 16 + (r.dinLen + 16 - r.dinLen % 16) := by
    rw [spnEncCbcOutput, List.length_append, hiv, length_cbcEnc_blocks (by decide) hf hpad, length_pad16_operand]
  have hblocks : blocks 16 (spnEncCbcOutput P r) =
      memRead r .iv 0 16 :: cbcEncOut (spnE P r.spn.rk) (memRead r .iv 0 16) (blocks 16 (pad16 (operand r .din))) := by
    rw [spnEncCbcOutput, blocks_append_left (by decide) hiv, blocks_cbcEnc (by decide) hf hpad]
  have hread := fun i => memRead_dout_deliver_of_blocks_eq hw (by decide) (by omega) hblocks (i := i)
  simp only [List.length_cons, length_cbcEncOut, length_blocks_pad16_operand] at hread
  subst ht
  refine ⟨?_, hread 0 (by omega), fun i hi => ?_⟩
  · obtain ⟨houtput, -⟩ := deliver_delivers hw (spnEncCbcOutput P r)
    rwa [hlength] at houtput
  · rw [show 16 + 16 * i = 16 * (i + 1) by omega, hread (i + 1) (by omega), hread i (by omega), List.getElem_cons_succ,
      getElem_cbcEncOut_cons _ (by rwa [length_blocks_pad16_operand]), getElem_blocks]

/-! ## `SPN.DEC.CBC` -/

/-- 43 R205: the message that `SPN.DEC.CBC` unpads. -/
def spnDecCbcMessage (P : Params) (s : State) : Bytes :=
  cbcDec (spnD P s.spn.rk) (memRead s .din 0 16) (blocks 16 ((operand s .din).drop 16))

theorem spnDecCbc_misaligned (hk : s.spn.keyed = true) (hlen : s.dinLen < 32 ∨ s.dinLen % 16 ≠ 0) :
    spnDecCbc P s = raise .blockAlignment s :=
  (if_neg (ne_false_of_eq_true hk)).trans (if_pos hlen)

theorem spnDecCbc_of_aligned (hk : s.spn.keyed = true) (hlong : 32 ≤ s.dinLen) (hlen : s.dinLen % 16 = 0) :
    spnDecCbc P s =
      (unpad16 (spnDecCbcMessage P s)).elim (raise .padding s) (deliver · (putOperand .iv (memRead s .din 0 16) s)) := by
  rw [spnDecCbc, if_neg (ne_false_of_eq_true hk), if_neg (not_or.2 ⟨hlong.not_gt, not_not.2 hlen⟩)]
  dsimp only
  rw [← spnDecCbcMessage]
  cases unpad16 (spnDecCbcMessage P s) <;> rfl

/-- The blocks of the input: the IV, then the blocks to decrypt. -/
theorem blocks_operand_eq_cons (hlong : 16 ≤ s.dinLen) :
    blocks 16 (operand s .din) = memRead s .din 0 16 :: blocks 16 ((operand s .din).drop 16) := by
  have hne : operand s .din ≠ [] := List.ne_nil_of_length_pos (by rw [length_operand, lenOf_din]; omega)
  rw [blocks_eq_cons (by decide) hne, memRead_eq_take_operand hlong]

theorem length_drop_operand : ((operand s .din).drop 16).length = s.dinLen - 16 := by
  rw [List.length_drop, length_operand, lenOf_din]

theorem length_spnDecCbcMessage (hlen : s.dinLen % 16 = 0) : (spnDecCbcMessage P s).length = s.dinLen - 16 := by
  rw [spnDecCbcMessage, length_cbcDec_blocks (by decide) (length_spnD P _) (by rw [length_drop_operand]; omega)
    (length_memRead _ _ _ _), length_drop_operand]

theorem slice_spnDecCbcMessage (hlong : 32 ≤ s.dinLen) (hlen : s.dinLen % 16 = 0) {i : Nat} (hi : i < s.dinLen / 16 - 1) :
    ((spnDecCbcMessage P s).drop (16 * i)).take 16 =
      xorBytes (spnD P s.spn.rk (memRead s .din (16 + 16 * i) 16)) (memRead s .din (16 * i) 16) := by
  have hrest : ((operand s .din).drop 16).length % 16 = 0 := by rw [length_drop_operand]; omega
  have hinput := blocks_operand_eq_cons (s := s) (by omega)
  have hcount : i < (blocks 16 ((operand s .din).drop 16)).length := by
    rw [length_blocks, blockCount_of_dvd (by decide) hrest, length_drop_operand]; omega
  have hblock : (blocks 16 ((operand s .din).drop 16))[i] = memRead s .din (16 + 16 * i) 16 := by
    rw [show 16 + 16 * i = 16 * (i + 1) by omega, ← getElem_blocks_of_aligned (by decide) hlen (by omega)]
    simp only [hinput, List.getElem_cons_succ]
  have hprevious : (memRead s .din 0 16 :: blocks 16 ((operand s .din).drop 16))[i]'(Nat.lt_succ_of_lt hcount) =
      memRead s .din (16 * i) 16 := by
    rw [← getElem_blocks_of_aligned (by decide) hlen (by omega)]
    simp only [hinput]
  rw [spnDecCbcMessage, slice_of_blocks_eq (blocks_cbcDec (by decide) (length_spnD P _) hrest (length_memRead _ _ _ _))
    (by simpa using hcount), getElem_cbcDecOut_cons _ hcount, hblock, hprevious]

/-- 43 R205: the IV of a decrypted message goes to `IV`, and nothing else changes. -/
theorem putOperand_iv_frame {v : Bytes} {n : Nat} (h : s.ivBuf.wf) (hv : v.length = n) :
    putOperand .iv v s = { s with ivBuf := (putOperand .iv v s).ivBuf, ivLen := n } ∧
      memRead (putOperand .iv v s) .iv 0 n = v ∧ BytesKept (firstBytes .iv n) s (putOperand .iv v s) := by
  subst hv
  exact ⟨rfl, operand_putOperand (sp := .iv) h v, bytesKept_putOperand (sp := .iv) h v⟩

end

/-! ## The rules -/

/-- Settles O35: the padded message encrypted, and the decrypted message unpadded, by the blocks that ECB makes. -/
theorem spnEcbRules : Obligations.SpnEcbRules := by
  refine ⟨by decide, fun s hc => ?_⟩
  obtain ⟨-, -, -, hdout⟩ := hc
  have henc : exec .spnEncEcb s = .next (spnEncEcb params s) := rfl
  have hdec : exec .spnDecEcb s = .next (spnDecEcb params s) := rfl
  rw [henc, hdec]
  refine ⟨fun hk => congrArg _ (if_pos hk), fun hk => ⟨_, rfl, spnEncEcb_blocks params hdout hk⟩,
    fun hk => congrArg _ (if_pos hk), fun hk hlen => congrArg _ (spnDecEcb_misaligned params hk hlen),
    fun hk hne hlen => ⟨spnDecEcbMessage params s, length_spnDecEcbMessage params hlen,
      fun i hi => slice_spnDecEcbMessage params hlen hi, ?_⟩⟩
  rw [spnDecEcb_of_aligned params hk hne hlen]
  refine ⟨fun hnone => ?_, fun p hsome => ⟨_, rfl, ?_⟩⟩
  · rw [hnone]; rfl
  · rw [hsome]; exact deliver_delivers hdout p

/-- Settles O36: the output with the IV in front is one chain of blocks, each with `PREV` before it. -/
theorem spnEncCbcRule : Obligations.SpnEncCbcRule := by
  refine ⟨by decide, fun s hc => ?_⟩
  obtain ⟨-, hiv, -, hdout⟩ := hc
  refine ⟨fun hk => congrArg Host.Outcome.next (if_pos hk),
    fun hk hempty h16 => congrArg Host.Outcome.next (spnEncCbc_bad_iv params hk hempty h16),
    fun hk hok => ⟨resolveOperand .iv 16 s, spnEncCbc params s, ivResolved_resolveOperand hiv 16, rfl, ?_⟩⟩
  have hblocks := deliver_spnEncCbcOutput_blocks params (wf_doutBuf_resolveOperand_iv hdout 16) (spnEncCbc_delivers params hk hok)
  rwa [operand_din_resolveOperand_iv, resolveOperand_iv_dinLen, resolveOperand_spn] at hblocks

/-- Settles O37: the input with the IV in front is one chain of blocks, each with `PREV` before it. -/
theorem spnDecCbcRule : Obligations.SpnDecCbcRule := by
  refine ⟨by decide, fun s hc => ?_⟩
  obtain ⟨-, hiv, -, hdout⟩ := hc
  have hdec : exec .spnDecCbc s = .next (spnDecCbc params s) := rfl
  rw [hdec]
  refine ⟨fun hk => congrArg _ (if_pos hk), fun hk hlen => congrArg _ (spnDecCbc_misaligned params hk hlen),
    fun hk hlong hlen => ⟨spnDecCbcMessage params s, length_spnDecCbcMessage params hlen,
      fun i hi => slice_spnDecCbcMessage params hlong hlen hi, ?_⟩⟩
  rw [spnDecCbc_of_aligned params hk hlong hlen]
  refine ⟨fun hnone => ?_, fun p hsome => ⟨putOperand .iv (memRead s .din 0 16) s, _, rfl, ?_⟩⟩
  · rw [hnone]; rfl
  · obtain ⟨hstate, hread, hkept⟩ := putOperand_iv_frame hiv (length_memRead s .din 0 16)
    rw [hsome]
    exact ⟨hstate, hread, hkept, deliver_delivers (by rwa [putOperand_iv_doutBuf]) p⟩

end Sys2Proof.Machine

/-! PROOFS. The block functions of `TEA` and `XTEA` (44 R222 to R232): a mix that advances the accumulator by DELTA and undoes each
round makes a block function that is undone, for any round count. -/

namespace Sys2Proof.Machine

open Config (Params ArxState ArxMix)

/-! ## Blocks and halves (44 R223) -/

theorem arxSplit_arxJoin (P : Params) (sum : Word) (s : ArxState) : arxSplit P sum (arxJoin P s) = { s with sum := sum } := by
  obtain ⟨hlow, hhigh⟩ := wordAt_unpackWord_append P.arxHalfOrder s.v0 s.v1
  rw [arxSplit, arxJoin, hlow, hhigh]

theorem arxJoin_arxSplit (P : Params) (sum : Word) {b : Bytes} (h : b.length = 8) : arxJoin P (arxSplit P sum b) = b :=
  unpackWord_wordAt_append P.arxHalfOrder h

/-! ## Rounds undone -/

theorem arxRounds_eq_iterate (f : ArxState → ArxState) (n : Nat) (s : ArxState) : arxRounds f n s = f^[n] s := by
  rw [arxRounds, List.foldl_const, List.length_range]

/-- 44 R232: "each decryption round subtracts exactly what the matching encryption round added, computed from the same half and the
same `sum`". -/
structure ArxUndoes (delta : Word) (dec enc : ArxState → ArxState) : Prop where
  sum_enc : ∀ s, (enc s).sum = s.sum + delta
  dec_enc : ∀ s, dec (enc s) = s

theorem teaRounds_undone (delta : Word) (k : Vector Word 4) :
    ArxUndoes delta (teaMixDefault.dec delta k) (teaMixDefault.enc delta k) where
  sum_enc _ := rfl
  dec_enc s := by simp only [teaMixDefault, teaEncRound, teaDecRound, add_sub_cancel_right]

theorem xteaRounds_undone (delta : Word) (k : Vector Word 4) :
    ArxUndoes delta (xteaMixDefault.dec delta k) (xteaMixDefault.enc delta k) where
  sum_enc _ := rfl
  dec_enc s := by simp only [xteaMixDefault, xteaEncRound, xteaDecRound, add_sub_cancel_right]

section
variable {delta : Word} {dec enc : ArxState → ArxState}

theorem ArxUndoes.sum_arxRounds (h : ArxUndoes delta dec enc) (n : Nat) (s : ArxState) :
    (arxRounds enc n s).sum = s.sum + arxFinalSum delta n := by
  rw [arxRounds_eq_iterate]
  induction n with
  | zero => simp [arxFinalSum]
  | succ n ih =>
    rw [Function.iterate_succ_apply', h.sum_enc, ih, arxFinalSum, arxFinalSum, BitVec.ofNat_add, add_mul, BitVec.one_mul, add_assoc]

theorem ArxUndoes.arxRounds_arxRounds (h : ArxUndoes delta dec enc) (n : Nat) (s : ArxState) :
    arxRounds dec n (arxRounds enc n s) = s := by
  rw [arxRounds_eq_iterate, arxRounds_eq_iterate]
  exact Function.LeftInverse.iterate h.dec_enc n s

/-- Decryption starts from the accumulator that encryption ended with, so its rounds walk back to the block. -/
theorem ArxUndoes.block_undone (h : ArxUndoes delta dec enc) (P : Params) (n : Nat) {b : Bytes} (hb : b.length = 8) :
    arxJoin P (arxRounds dec n (arxSplit P (arxFinalSum delta n) (arxJoin P (arxRounds enc n (arxSplit P 0 b))))) = b := by
  have hsum : (arxRounds enc n (arxSplit P 0 b)).sum = arxFinalSum delta n := by
    rw [h.sum_arxRounds, arxSplit, zero_add]
  rw [arxSplit_arxJoin, ← hsum, h.arxRounds_arxRounds, arxJoin_arxSplit P 0 hb]

end

theorem teaD_teaE {P : Params} (hmix : P.teaMix = teaMixDefault) (k : Vector Word 4) {b : Bytes} (hb : b.length = 8) :
    teaD P k (teaE P k b) = b := by
  rw [teaD, teaE, hmix]
  exact (teaRounds_undone P.teaDelta k).block_undone P P.teaRounds hb

theorem xteaD_xteaE {P : Params} (hmix : P.xteaMix = xteaMixDefault) (k : Vector Word 4) {b : Bytes} (hb : b.length = 8) :
    xteaD P k (xteaE P k b) = b := by
  rw [xteaD, xteaE, hmix]
  exact (xteaRounds_undone P.teaDelta k).block_undone P P.xteaRounds hb

end Sys2Proof.Machine

/-! PROOFS. The commands of 44_arx_fixed.md (R221, R225 to R227, R230 to R232), each a frame around its unit's context. -/

namespace Sys2Proof.Machine

/-! ## `TEA.INIT`, `XTEA.INIT` -/

/-- 44 R221: subkey j is word j of `KEY`. -/
theorem getElem_arxSchedule_operand {s : State} (h : s.keyLen = 16) (j : Fin 4) :
    (arxSchedule (operand s .key))[j] = be32 (memRead s .key (4 * j.val) 4) := by
  have hfits : 4 * j.val + 4 ≤ lenOf s .key := by rw [lenOf_key]; omega
  have hword : (arxSchedule (operand s .key))[j] = wordAt .big (operand s .key) j.val := by
    simp [arxSchedule]
  rw [hword]
  exact wordAt_operand .big hfits

/-- Settles O38: the frame of every `INIT`, with the subkeys read off the resolved key. -/
theorem teaAndXteaInitRules : Obligations.TeaAndXteaInitRules := by
  refine ⟨by decide, fun s hc => ⟨fun hlen => ?_, fun hempty hlen => ?_⟩⟩
  · obtain ⟨hkey, -, -, -⟩ := hc
    have haccepted : (s.keyLen = 0 ∧ 16 ∈ [16]) ∨ (s.keyLen ≠ 0 ∧ s.keyLen ∈ [16]) := by
      rw [List.mem_singleton, List.mem_singleton]; omega
    have hresolved : (resolveOperand .key 16 s).keyLen = 16 := by
      rw [resolveOperand_keyLen]; split <;> omega
    have hwords := getElem_arxSchedule_operand hresolved
    exact ⟨resolveOperand .key 16 s, keyResolved_resolveOperand hkey 16,
      ⟨_, congrArg Host.Outcome.next (initUnit_ok loadTea haccepted), rfl, rfl, hwords⟩,
      _, congrArg Host.Outcome.next (initUnit_ok loadXtea haccepted), rfl, rfl, hwords⟩
  · have hrejected : s.keyLen ∉ [16] := by rwa [List.mem_singleton]
    exact ⟨congrArg Host.Outcome.next (initUnit_bad loadTea hempty hrejected),
      congrArg Host.Outcome.next (initUnit_bad loadXtea hempty hrejected)⟩

/-! ## `TEA.ENC`, `TEA.DEC`, `XTEA.ENC`, `XTEA.DEC` -/

/-- The three ways a command on whole blocks ends, by the key and the length of the message (44 R225). -/
theorem blockwise_rules {s : State} (hw : s.doutBuf.wf) (keyed : Bool) {B : Nat} (hB : 0 < B) {f : Bytes → Bytes}
    (hf : ∀ b, (f b).length = B) :
    (keyed = false → blockwise keyed B f s = rejected 5 s) ∧
    (keyed = true → s.dinLen % B ≠ 0 → blockwise keyed B f s = rejected 2 s) ∧
    (keyed = true → s.dinLen % B = 0 → OutputOnly s.dinLen s (blockwise keyed B f s) ∧
      ∀ i < s.dinLen / B, memRead (blockwise keyed B f s) .dout (B * i) B = f (memRead s .din (B * i) B)) :=
  ⟨fun hk => blockwise_not_keyed f hk, fun hk hlen => blockwise_misaligned f hk hlen,
    fun hk hlen => deliver_ecb_blocks hw hB hf hlen (blockwise_delivers f hk hlen)⟩

/-- Settles O39: the four commands are `blockwise`, each with its block function and the flag of its unit. -/
theorem teaAndXteaRules : Obligations.TeaAndXteaRules := by
  refine ⟨by decide, fun s hc => ?_⟩
  obtain ⟨-, -, -, hdout⟩ := hc
  have hB : 0 < 8 := by decide
  obtain ⟨tenc5, tenc2, tenc⟩ := blockwise_rules hdout s.tea.keyed hB (length_teaE params s.tea.k)
  obtain ⟨tdec5, tdec2, tdec⟩ := blockwise_rules hdout s.tea.keyed hB (length_teaD params s.tea.k)
  obtain ⟨xenc5, xenc2, xenc⟩ := blockwise_rules hdout s.xtea.keyed hB (length_xteaE params s.xtea.k)
  obtain ⟨xdec5, xdec2, xdec⟩ := blockwise_rules hdout s.xtea.keyed hB (length_xteaD params s.xtea.k)
  exact ⟨fun hk => ⟨congrArg Host.Outcome.next (tenc5 hk), congrArg Host.Outcome.next (tdec5 hk)⟩,
    fun hk hlen => ⟨congrArg Host.Outcome.next (tenc2 hk hlen), congrArg Host.Outcome.next (tdec2 hk hlen)⟩,
    fun hk hlen => ⟨⟨_, rfl, tenc hk hlen⟩, _, rfl, tdec hk hlen⟩,
    fun hk => ⟨congrArg Host.Outcome.next (xenc5 hk), congrArg Host.Outcome.next (xdec5 hk)⟩,
    fun hk hlen => ⟨congrArg Host.Outcome.next (xenc2 hk hlen), congrArg Host.Outcome.next (xdec2 hk hlen)⟩,
    fun hk hlen => ⟨⟨_, rfl, xenc hk hlen⟩, _, rfl, xdec hk hlen⟩⟩

/-! ## Decryption after encryption -/

/-- Settles O40: a data command keeps the context, so both commands have the same key, and every block is undone. -/
theorem teaAndXteaRoundTrip : Obligations.TeaAndXteaRoundTrip := by
  refine ⟨fun P k b hb => ⟨fun hmix => teaD_teaE hmix k hb, fun hmix => xteaD_xteaE hmix k hb⟩, ?_⟩
  intro e d hpair s s' t hc hc' hexec herr htea hxtea hdin
  obtain ⟨-, -, -, hw⟩ := hc
  obtain ⟨-, -, -, hw'⟩ := hc'
  have hB : 0 < 8 := by decide
  simp only [List.mem_cons, Prod.mk.injEq, List.not_mem_nil, or_false] at hpair
  rcases hpair with ⟨rfl, rfl⟩ | ⟨rfl, rfl⟩
  · have hcontext : s'.tea = s.tea :=
      htea.trans (commandsKeepContextsOfOtherUnits .teaEnc s t .tea hexec (.inr ⟨by decide, by decide⟩)).symm
    refine ⟨_, rfl, ?_⟩
    rw [teaDec, hcontext]
    exact blockwise_roundTrip (ecb_undoneBy_ecb hB (length_teaE params _) fun _ => teaD_teaE rfl _) hw hw'
      (Host.Outcome.next.inj hexec) herr hdin
  · have hcontext : s'.xtea = s.xtea :=
      hxtea.trans (commandsKeepContextsOfOtherUnits .xteaEnc s t .xtea hexec (.inr ⟨by decide, by decide⟩)).symm
    refine ⟨_, rfl, ?_⟩
    rw [xteaDec, hcontext]
    exact blockwise_roundTrip (ecb_undoneBy_ecb hB (length_xteaE params _) fun _ => xteaD_xteaE rfl _) hw hw'
      (Host.Outcome.next.inj hexec) herr hdin

end Sys2Proof.Machine

/-! PROOFS. The words of a buffer (45 R242): taking a buffer of whole words apart and putting it together again undo each other. -/

namespace Sys2Proof.Machine

open Config (Params)

/-- Word j of a buffer is packed from block j of four bytes. -/
theorem xxtWords_eq_map_blocks (P : Params) {m : Bytes} (h : m.length % 4 = 0) :
    xxtWords P m = (blocks 4 m).map (packWord P.xxtWordOrder) := by
  rw [xxtWords, blocks, blockCount_of_dvd (by decide) h, List.map_map]
  exact List.map_congr_left fun j _ => (packWord_take _ _).symm

theorem wordsToBytes_xxtWords (P : Params) {m : Bytes} (h : m.length % 4 = 0) :
    wordsToBytes P.xxtWordOrder (xxtWords P m) = m := by
  have hunpack : ∀ b ∈ blocks 4 m, (unpackWord P.xxtWordOrder ∘ packWord P.xxtWordOrder) b = b := fun b hb => by
    have hlen : b.length = 4 := length_of_mem_blocks (by decide) h b hb
    rw [Function.comp_apply, unpackWord_packWord _ hlen.ge, List.take_of_length_le hlen.le]
  rw [xxtWords_eq_map_blocks P h, wordsToBytes, List.flatMap, List.map_map, List.map_congr_left hunpack, List.map_id',
    flatten_blocks (by decide)]

theorem xxtWords_wordsToBytes (P : Params) (v : List Word) : xxtWords P (wordsToBytes P.xxtWordOrder v) = v :=
  List.ext_getElem (by simp) fun j _ hj => by
    rw [← wordAt_wordsToBytes P.xxtWordOrder hj]
    simp [xxtWords]

theorem length_xxtPad_mod (m : Bytes) : (xxtPad m).length % 4 = 0 := by rw [length_xxtPad]; omega

end Sys2Proof.Machine

/-! PROOFS. The passes of `XXT` (45 R243, R244): how many there are, and that they are undone by the passes of the other direction,
each step reading two positions other than the one it writes. -/

namespace Sys2Proof.Machine

open Config (Params)

/-- Settles O42: the values by evaluation, the two ranges by the quotient of 52. -/
theorem xxtRoundCounts : Obligations.XxtRoundCounts := by
  refine ⟨fun _ _ => rfl, by decide, by decide, by decide, by decide, by decide, fun n hlow hhigh => ?_, fun n hlow => ?_⟩
  · have hquot : 52 / n = 1 := Nat.div_eq_of_lt_le (by omega) (by omega)
    rw [xxtRoundCount, hquot]
  · rw [xxtRoundCount, Nat.div_eq_of_lt (by omega)]

/-! ## Two folds over the same indices -/

/-- A fold that follows another one, state for state: `c i` turns the state of the one before index i into that of the other. -/
theorem foldl_range_of_commutes {α β : Type} {I : α → Prop} {f : α → Nat → α} {g : β → Nat → β} {c : Nat → α → β} {n : Nat}
    (hI : ∀ u i, I u → I (f u i)) (h : ∀ u, ∀ i < n, I u → g (c i u) i = c (i + 1) (f u i)) {v : α} (hv : I v) :
    (List.range n).foldl g (c 0 v) = c n ((List.range n).foldl f v) ∧ I ((List.range n).foldl f v) := by
  induction n with
  | zero => exact ⟨rfl, hv⟩
  | succ n ih =>
    obtain ⟨hfold, hkept⟩ := ih fun u i hi => h u i (Nat.lt_succ_of_lt hi)
    rw [List.range_succ, List.foldl_append, List.foldl_append, hfold]
    exact ⟨h _ n n.lt_succ_self hkept, hI _ n hkept⟩

/-- Steps undone one by one, the last first, where each one is undone only in the states that satisfy an invariant. -/
theorem foldl_reverse_foldl_of_invariant {α ι : Type} {I : α → Prop} {f g : α → ι → α} (hI : ∀ x i, I x → I (f x i))
    (h : ∀ x i, I x → g (f x i) i = x) (l : List ι) {x : α} (hx : I x) : l.reverse.foldl g (l.foldl f x) = x := by
  induction l generalizing x with
  | nil => rfl
  | cons i l ih =>
    rw [List.reverse_cons, List.foldl_append, List.foldl_cons (f := f), ih (hI x i hx), List.foldl_cons, List.foldl_nil, h x i hx]

theorem foldl_reverse_range {α : Type} (f : α → Nat → α) (n : Nat) (x : α) :
    (List.range n).reverse.foldl f x = (List.range n).foldl (fun x i => f x (n - 1 - i)) x := by
  rw [List.range_eq_range', List.reverse_range', List.foldl_map, List.range_eq_range']
  simp only [Nat.zero_add]

/-! ## One step of a pass -/

/-- 45 R244: the word at position p gains the mix of its neighbours. -/
def xxtEncStep (P : Params) (k : Vector Word 4) (sum : Word) (v : List Word) (p : Nat) : List Word :=
  v.set p (v.getD p 0 + xxtMixAt P k sum v p)

/-- 45 R244: the word at position p loses the mix of its neighbours. -/
def xxtDecStep (P : Params) (k : Vector Word 4) (sum : Word) (v : List Word) (p : Nat) : List Word :=
  v.set p (v.getD p 0 - xxtMixAt P k sum v p)

theorem xxtEncPass_eq (P : Params) (k : Vector Word 4) (sum : Word) (v : List Word) :
    xxtEncPass P k sum v = (List.range v.length).foldl (xxtEncStep P k sum) v := rfl

theorem xxtDecPass_eq (P : Params) (k : Vector Word 4) (sum : Word) (v : List Word) :
    xxtDecPass P k sum v = (List.range v.length).reverse.foldl (xxtDecStep P k sum) v := rfl

@[simp] theorem length_xxtEncStep (P : Params) (k : Vector Word 4) (sum : Word) (v : List Word) (p : Nat) :
    (xxtEncStep P k sum v p).length = v.length := List.length_set

@[simp] theorem length_xxtDecStep (P : Params) (k : Vector Word 4) (sum : Word) (v : List Word) (p : Nat) :
    (xxtDecStep P k sum v p).length = v.length := List.length_set

theorem getD_set_self {v : List Word} {p : Nat} (hp : p < v.length) (x : Word) : (v.set p x).getD p 0 = x := by
  simp [List.getD, hp]

theorem getD_set_of_ne {v : List Word} {p p' : Nat} (h : p' ≠ p) (x : Word) : (v.set p x).getD p' 0 = v.getD p' 0 := by
  simp [List.getD, h.symm]

/-- In an array of at least two words both neighbours of a position are other positions. -/
def NeighboursApart (P : Params) : Prop :=
  ∀ n p, 2 ≤ n → p < n → (P.xxtNeighbours n p).1 ≠ p ∧ (P.xxtNeighbours n p).2 ≠ p

theorem add_mod_ne_self {n p d : Nat} (hd : 0 < d) (hdn : d < n) (hp : p < n) : (p + d) % n ≠ p := by
  by_cases h : p + d < n
  · rw [Nat.mod_eq_of_lt h]; omega
  · rw [Nat.mod_eq_sub_mod (by omega), Nat.mod_eq_of_lt (by omega)]; omega

theorem neighboursApart_params : NeighboursApart params := fun _ _ hn hp =>
  ⟨add_mod_ne_self Nat.one_pos (by omega) hp, add_mod_ne_self (by omega) (by omega) hp⟩

/-- A mix does not read the word it is added to. -/
theorem xxtMixAt_set {P : Params} (hP : NeighboursApart P) (k : Vector Word 4) (sum x : Word) {v : List Word} {p : Nat}
    (hv : 2 ≤ v.length) (hp : p < v.length) : xxtMixAt P k sum (v.set p x) p = xxtMixAt P k sum v p := by
  obtain ⟨hy, hz⟩ := hP v.length p hv hp
  rw [xxtMixAt, List.length_set, getD_set_of_ne hy, getD_set_of_ne hz, ← xxtMixAt]

theorem xxtDecStep_xxtEncStep {P : Params} (hP : NeighboursApart P) (k : Vector Word 4) (sum : Word) {v : List Word}
    (hv : 2 ≤ v.length) (p : Nat) : xxtDecStep P k sum (xxtEncStep P k sum v p) p = v := by
  by_cases hp : p < v.length
  · rw [xxtDecStep, xxtEncStep, getD_set_self hp, xxtMixAt_set hP k sum _ hv hp, add_sub_cancel_right, List.set_set,
      List.getD_eq_getElem _ _ hp, List.set_getElem_self]
  · have hout : v.length ≤ p := Nat.le_of_not_lt hp
    rw [xxtDecStep, xxtEncStep, List.set_eq_of_length_le (by rwa [List.length_set]), List.set_eq_of_length_le hout]

/-! ## One pass undone -/

theorem xxtDecPass_xxtEncPass {P : Params} (hP : NeighboursApart P) (k : Vector Word 4) (sum : Word) {v : List Word}
    (hv : 2 ≤ v.length) : xxtDecPass P k sum (xxtEncPass P k sum v) = v := by
  rw [xxtDecPass_eq, length_xxtEncPass, xxtEncPass_eq]
  exact foldl_reverse_foldl_of_invariant (I := (2 ≤ ·.length)) (fun _ _ h => by rwa [length_xxtEncStep])
    (fun _ p h => xxtDecStep_xxtEncStep hP k sum h p) _ hv

/-! ## The accumulator -/

/-- 45 R244: the accumulator of the pass that is number i, counted from 1. -/
def xxtSum (i : Nat) : Word := BitVec.ofNat 32 i * Config.xxtDelta

theorem xxtSum_succ (i : Nat) : xxtSum (i + 1) = xxtSum i + Config.xxtDelta := by
  rw [xxtSum, xxtSum, BitVec.ofNat_add, add_mul, BitVec.one_mul]

theorem xxtEncWords_eq (P : Params) (k : Vector Word 4) (v : List Word) :
    xxtEncWords P k v = (List.range (xxtRoundCount v.length)).foldl (fun u i => xxtEncPass P k (xxtSum (i + 1)) u) v := by
  have hfold := (foldl_range_of_commutes (I := fun _ => True) (c := fun i u => (xxtSum i, u)) (n := xxtRoundCount v.length)
    (f := fun u i => xxtEncPass P k (xxtSum (i + 1)) u)
    (g := fun st _ => (st.1 + Config.xxtDelta, xxtEncPass P k (st.1 + Config.xxtDelta) st.2)) (v := v) (fun _ _ => id)
    (fun u i _ _ => by rw [xxtSum_succ]) trivial).1
  exact congrArg Prod.snd hfold

theorem xxtDecWords_eq (P : Params) (k : Vector Word 4) (v : List Word) :
    xxtDecWords P k v = (List.range (xxtRoundCount v.length)).foldl
      (fun u i => xxtDecPass P k (xxtSum (xxtRoundCount v.length - i)) u) v := by
  have hfold := (foldl_range_of_commutes (I := fun _ => True) (n := xxtRoundCount v.length)
    (c := fun i u => (xxtSum (xxtRoundCount v.length - i), u))
    (f := fun u i => xxtDecPass P k (xxtSum (xxtRoundCount v.length - i)) u)
    (g := fun st _ => (st.1 - Config.xxtDelta, xxtDecPass P k st.1 st.2)) (v := v) (fun _ _ => id)
    (fun _ i hi _ => by
      have hi : xxtRoundCount v.length - i = xxtRoundCount v.length - (i + 1) + 1 := by omega
      simp only [hi, xxtSum_succ, add_sub_cancel_right]) trivial).1
  exact congrArg Prod.snd hfold

/-- The passes of decryption in the order of those of encryption, reversed. -/
theorem xxtDecWords_eq_foldl_reverse (P : Params) (k : Vector Word 4) (v : List Word) :
    xxtDecWords P k v =
      (List.range (xxtRoundCount v.length)).reverse.foldl (fun u i => xxtDecPass P k (xxtSum (i + 1)) u) v := by
  rw [xxtDecWords_eq, foldl_reverse_range]
  refine List.foldl_ext _ _ _ fun u i hi => ?_
  have hi : i < xxtRoundCount v.length := List.mem_range.1 hi
  rw [show xxtRoundCount v.length - 1 - i + 1 = xxtRoundCount v.length - i by omega]

theorem xxtDecWords_xxtEncWords {P : Params} (hP : NeighboursApart P) (k : Vector Word 4) {v : List Word} (hv : 2 ≤ v.length) :
    xxtDecWords P k (xxtEncWords P k v) = v := by
  rw [xxtDecWords_eq_foldl_reverse, length_xxtEncWords, xxtEncWords_eq]
  exact foldl_reverse_foldl_of_invariant (I := (2 ≤ ·.length)) (fun _ _ h => by rwa [length_xxtEncPass])
    (fun _ i h => xxtDecPass_xxtEncPass hP k (xxtSum (i + 1)) h) _ hv

end Sys2Proof.Machine

/-! PROOFS. The pseudocode of 45 R244: step by step it writes what the model writes, the word it carries being the neighbour that the
model reads from the array. -/

namespace Sys2Proof.Machine

/-! ## The mix of the pseudocode -/

theorem toNat_xxtKeyIndex (p : Nat) (sum : Word) :
    (xxtKeyIndex p (xxtEDefault sum)).toNat = (p &&& 3) ^^^ ((sum >>> 2) &&& 3).toNat := by
  have hmask (x : Nat) : x &&& 3 = x % 4 := Nat.and_two_pow_sub_one_eq_mod x 2
  have hthree : (3 : Word).toNat = 3 := rfl
  rw [xxtKeyIndex, BitVec.toNat_xor, BitVec.toNat_ofNat, xxtEDefault, BitVec.extractLsb'_toNat, BitVec.toNat_and, hthree, hmask,
    hmask]
  rfl

theorem pick4_eq_getD (k : Vector Word 4) (i : BitVec 2) : pick4 k i = k.toList.getD i.toNat 0 := by
  rw [pick4, List.getD_eq_getElem _ _ (by simpa using i.isLt)]
  simp

theorem xxtMixAt_params (k : Vector Word 4) (sum : Word) (v : List Word) (p : Nat) :
    xxtMixAt params k sum v p = mixPseudocode k sum (v.getD ((p + 1) % v.length) 0) (v.getD ((p + (v.length - 1)) % v.length) 0) p
      ((sum >>> 2) &&& 3).toNat := by
  rw [mixPseudocode, ← toNat_xxtKeyIndex, ← pick4_eq_getD]
  rfl

/-! ## The word that the pseudocode carries -/

/-- The array and the word before position p, which the pseudocode of encryption carries as z. -/
def withPrevious (p : Nat) (v : List Word) : List Word × Word := (v, v.getD ((p + (v.length - 1)) % v.length) 0)

/-- The array and the word after position p, which the pseudocode of decryption carries as y. -/
def withNext (p : Nat) (v : List Word) : List Word × Word := (v, v.getD ((p + 1) % v.length) 0)

theorem pred_of_succ_mod {n p q : Nat} (hp : p < n) (hq : (p + 1) % n = q) : q < n ∧ (q + (n - 1)) % n = p := by
  refine ⟨hq ▸ Nat.mod_lt _ (by omega), ?_⟩
  rw [← hq, Nat.mod_add_mod, show p + 1 + (n - 1) = p + n by omega, Nat.add_mod_right, Nat.mod_eq_of_lt hp]

/-- A step of the pseudocode of encryption at position p, with y read at position q: the word written is carried. -/
def encStepPseudocode (k : Vector Word 4) (sum : Word) (q : Nat) (vz : List Word × Word) (p : Nat) : List Word × Word :=
  let x := vz.1.getD p 0 + mixPseudocode k sum (vz.1.getD q 0) vz.2 p ((sum >>> 2) &&& 3).toNat
  (vz.1.set p x, x)

/-- A step of the pseudocode of decryption at position p, with z read at position q: the word written is carried. -/
def decStepPseudocode (k : Vector Word 4) (sum : Word) (q : Nat) (vy : List Word × Word) (p : Nat) : List Word × Word :=
  let x := vy.1.getD p 0 - mixPseudocode k sum vy.2 (vy.1.getD q 0) p ((sum >>> 2) &&& 3).toNat
  (vy.1.set p x, x)

section
variable (k : Vector Word 4) (sum : Word) {v : List Word} {n p q : Nat}

/-- 45 R244: the pass of encryption as steps, the last one with the first word as y. -/
theorem encPassPseudocode_eq {st : List Word × Word} (hn : st.1.length = n + 1) : encPassPseudocode k sum st =
    encStepPseudocode k sum 0 ((List.range n).foldl (fun vz p => encStepPseudocode k sum (p + 1) vz p) st) n := by
  rw [encPassPseudocode, hn]
  rfl

/-- 45 R244: the pass of decryption as steps, the last one with the last word as z. -/
theorem decPassPseudocode_eq {st : List Word × Word} (hn : st.1.length = n + 1) : decPassPseudocode k sum st =
    decStepPseudocode k sum n
      ((List.range n).foldl (fun vy i => decStepPseudocode k sum (n - i - 1) vy (n - i)) st) 0 := by
  rw [decPassPseudocode, hn]
  rfl

theorem encStepPseudocode_withPrevious (hp : p < v.length) (hq : (p + 1) % v.length = q) :
    encStepPseudocode k sum q (withPrevious p v) p = withPrevious q (xxtEncStep params k sum v p) := by
  obtain ⟨-, hprev⟩ := pred_of_succ_mod hp hq
  rw [withPrevious.eq_def q, length_xxtEncStep, hprev, xxtEncStep, getD_set_self hp, xxtMixAt_params, hq]
  rfl

theorem decStepPseudocode_withNext (hq : q < v.length) (hp : (q + 1) % v.length = p) :
    decStepPseudocode k sum q (withNext p v) p = withNext q (xxtDecStep params k sum v p) := by
  obtain ⟨hlt, hprev⟩ := pred_of_succ_mod hq hp
  rw [withNext.eq_def q, length_xxtDecStep, hp, xxtDecStep, getD_set_self hlt, xxtMixAt_params, hprev]
  rfl

theorem encPassPseudocode_withPrevious (hn : v.length = n + 1) :
    encPassPseudocode k sum (withPrevious 0 v) = withPrevious 0 (xxtEncPass params k sum v) := by
  obtain ⟨hinner, hlen⟩ := foldl_range_of_commutes (I := (·.length = n + 1)) (c := withPrevious) (f := xxtEncStep params k sum)
    (g := fun vz p => encStepPseudocode k sum (p + 1) vz p) (n := n) (fun _ _ hu => by rwa [length_xxtEncStep])
    (fun u p hp hu => encStepPseudocode_withPrevious k sum (by omega) (Nat.mod_eq_of_lt (by omega))) hn
  rw [encPassPseudocode_eq k sum hn, hinner, encStepPseudocode_withPrevious k sum (by omega) (by rw [hlen, Nat.mod_self]),
    xxtEncPass_eq, hn, List.range_succ, List.foldl_append, List.foldl_cons, List.foldl_nil]

theorem decPassPseudocode_withNext (hn : v.length = n + 1) :
    decPassPseudocode k sum (withNext n v) = withNext n (xxtDecPass params k sum v) := by
  obtain ⟨hinner, hlen⟩ := foldl_range_of_commutes (I := (·.length = n + 1)) (c := fun i => withNext (n - i))
    (f := fun u i => xxtDecStep params k sum u (n - i))
    (g := fun vy i => decStepPseudocode k sum (n - i - 1) vy (n - i)) (n := n) (fun _ _ hu => by rwa [length_xxtDecStep])
    (fun u i hi hu => decStepPseudocode_withNext k sum (by omega) (by rw [Nat.mod_eq_of_lt (by omega)]; omega)) hn
  rw [Nat.sub_zero, Nat.sub_self] at hinner
  rw [decPassPseudocode_eq k sum hn, hinner, decStepPseudocode_withNext k sum (by omega) (by rw [hlen, Nat.mod_self]),
    xxtDecPass_eq, hn, foldl_reverse_range, List.range_succ, List.foldl_append, List.foldl_cons, List.foldl_nil]
  simp only [Nat.add_sub_cancel, Nat.sub_self]

end

/-! ## The passes of the pseudocode -/

theorem xxtEncWords_eq_pseudocode (k : Vector Word 4) {v : List Word} (hv : 0 < v.length) :
    xxtEncWords params k v = xxtEncPseudocode k v := by
  obtain ⟨n, hn⟩ := Nat.exists_eq_add_one_of_ne_zero hv.ne'
  have hcarried : (v, v.getD (v.length - 1) 0) = withPrevious 0 v := by
    rw [withPrevious, Nat.zero_add, Nat.mod_eq_of_lt (by omega)]
  obtain ⟨hpasses, -⟩ := foldl_range_of_commutes (I := (·.length = n + 1)) (c := fun _ => withPrevious 0)
    (f := fun u i => xxtEncPass params k (xxtSum (i + 1)) u)
    (g := fun st i => encPassPseudocode k (xxtSum (i + 1)) st) (n := xxtRoundCount v.length)
    (fun _ _ hu => by rwa [length_xxtEncPass]) (fun _ i _ hu => encPassPseudocode_withPrevious k (xxtSum (i + 1)) hu) hn
  rw [xxtEncWords_eq, xxtEncPseudocode, hcarried]
  exact (congrArg Prod.fst hpasses).symm

theorem xxtDecWords_eq_pseudocode (k : Vector Word 4) {v : List Word} (hv : 0 < v.length) :
    xxtDecWords params k v = xxtDecPseudocode k v := by
  obtain ⟨n, hn⟩ := Nat.exists_eq_add_one_of_ne_zero hv.ne'
  have hcarried : (v, v.getD 0 0) = withNext n v := by rw [withNext, hn, Nat.mod_self]
  obtain ⟨hpasses, -⟩ := foldl_range_of_commutes (I := (·.length = n + 1)) (c := fun _ => withNext n)
    (f := fun u i => xxtDecPass params k (xxtSum (xxtRoundCount v.length - i)) u)
    (g := fun st i => decPassPseudocode k (xxtSum (xxtRoundCount v.length - i)) st) (n := xxtRoundCount v.length)
    (fun _ _ hu => by rwa [length_xxtDecPass])
    (fun _ i _ hu => decPassPseudocode_withNext k (xxtSum (xxtRoundCount v.length - i)) hu) hn
  rw [xxtDecWords_eq, xxtDecPseudocode, hcarried]
  exact (congrArg Prod.fst hpasses).symm

/-- Settles O43: the carried word is at every step the neighbour that the model reads from the array. -/
theorem xxtPassesFollowThePseudocode : Obligations.XxtPassesFollowThePseudocode := fun k _ hv =>
  ⟨xxtEncWords_eq_pseudocode k (Nat.zero_lt_of_lt hv), xxtDecWords_eq_pseudocode k (Nat.zero_lt_of_lt hv)⟩

end Sys2Proof.Machine

/-! PROOFS. The commands of 45_arx_variable.md (R241, R245, R247, R248): each delivers what the words of the message become. -/

namespace Sys2Proof.Machine

open Config (Params)

/-! ## `XXT.INIT` -/

/-- 45 R241: key word j is word j of `KEY`. -/
theorem getElem_xxtSchedule_operand {s : State} (h : s.keyLen = 16) (j : Fin 4) :
    (xxtSchedule params (operand s .key))[j] = le32 (memRead s .key (4 * j.val) 4) := by
  have hfits : 4 * j.val + 4 ≤ lenOf s .key := by rw [lenOf_key]; omega
  have hword : (xxtSchedule params (operand s .key))[j] = wordAt .little (operand s .key) j.val := by
    simp [xxtSchedule, params]
  rw [hword]
  exact wordAt_operand .little hfits

/-- Settles O41: the frame of every `INIT`, with the key words read off the resolved key. -/
theorem xxtInitRule : Obligations.XxtInitRule := by
  refine ⟨by decide, fun s hc => ⟨fun hlen => ?_, fun hempty hlen => ?_⟩⟩
  · obtain ⟨hkey, -, -, -⟩ := hc
    have haccepted : (s.keyLen = 0 ∧ 16 ∈ [16]) ∨ (s.keyLen ≠ 0 ∧ s.keyLen ∈ [16]) := by
      rw [List.mem_singleton, List.mem_singleton]; omega
    have hresolved : (resolveOperand .key 16 s).keyLen = 16 := by
      rw [resolveOperand_keyLen]; split <;> omega
    exact ⟨resolveOperand .key 16 s, _, keyResolved_resolveOperand hkey 16,
      congrArg Host.Outcome.next (initUnit_ok (loadXxt params) haccepted), rfl, rfl, getElem_xxtSchedule_operand hresolved⟩
  · exact congrArg Host.Outcome.next (initUnit_bad (loadXxt params) hempty (by rwa [List.mem_singleton]))

/-! ## The transformation of a buffer (45 R245, R247) -/

/-- A buffer of at least two words with its array transformed by g; a shorter one as it is. -/
def xxtTransform (P : Params) (g : List Word → List Word) (m : Bytes) : Bytes :=
  wordsToBytes P.xxtWordOrder (if Config.xxtMinWords ≤ (xxtWords P m).length then g (xxtWords P m) else xxtWords P m)

theorem xxtE_eq (P : Params) (k : Vector Word 4) : xxtE P k = xxtTransform P (xxtEncWords P k) := rfl

theorem xxtD_eq (P : Params) (k : Vector Word 4) : xxtD P k = xxtTransform P (xxtDecWords P k) := rfl

theorem xxtMinWords_le_iff (P : Params) (m : Bytes) : Config.xxtMinWords ≤ (xxtWords P m).length ↔ 8 ≤ m.length := by
  rw [length_xxtWords]
  exact Nat.le_div_iff_mul_le (by decide)

section
variable {P : Params} {g e d : List Word → List Word} {m : Bytes}

theorem xxtTransform_of_short (hm : m.length % 4 = 0) (h : m.length < 8) : xxtTransform P g m = m := by
  rw [xxtTransform, if_neg (mt (xxtMinWords_le_iff P m).1 (by omega)), wordsToBytes_xxtWords P hm]

theorem xxtWords_xxtTransform (h : 8 ≤ m.length) : xxtWords P (xxtTransform P g m) = g (xxtWords P m) := by
  rw [xxtTransform, if_pos ((xxtMinWords_le_iff P m).2 h), xxtWords_wordsToBytes]

theorem length_xxtTransform (hg : ∀ v, (g v).length = v.length) (hm : m.length % 4 = 0) :
    (xxtTransform P g m).length = m.length := by
  rw [xxtTransform, length_wordsToBytes, apply_ite List.length, hg, ite_self, length_xxtWords]
  omega

theorem xxtTransform_xxtTransform (he : ∀ v, (e v).length = v.length) (h : ∀ v, 2 ≤ v.length → d (e v) = v)
    (hm : m.length % 4 = 0) : xxtTransform P d (xxtTransform P e m) = m := by
  by_cases hshort : m.length < 8
  · rw [xxtTransform_of_short (g := e) hm hshort, xxtTransform_of_short hm hshort]
  · have hwords : 2 ≤ (xxtWords P m).length := (xxtMinWords_le_iff P m).2 (Nat.le_of_not_lt hshort)
    have hout : Config.xxtMinWords ≤ (xxtWords P (xxtTransform P e m)).length := by
      rw [xxtMinWords_le_iff, length_xxtTransform he hm]; omega
    rw [xxtTransform, if_pos hout, xxtWords_xxtTransform (Nat.le_of_not_lt hshort), h _ hwords, wordsToBytes_xxtWords P hm]

/-- What a command leaves that delivers a transformed buffer of whole words. -/
theorem deliver_xxtTransform {s : State} (hw : s.doutBuf.wf) (hg : ∀ v, (g v).length = v.length) (hm : m.length % 4 = 0) :
    OutputOnly m.length s (deliver (xxtTransform P g m) s) ∧
    (m.length < 8 → operand (deliver (xxtTransform P g m) s) .dout = m) ∧
    (8 ≤ m.length → xxtWords P (operand (deliver (xxtTransform P g m) s) .dout) = g (xxtWords P m)) := by
  rw [operand_dout_deliver hw]
  refine ⟨?_, xxtTransform_of_short hm, xxtWords_xxtTransform⟩
  have hdelivers := (deliver_delivers hw (xxtTransform P g m)).1
  rwa [length_xxtTransform hg hm] at hdelivers

end

/-! ## `XXT.ENC`, `XXT.DEC` -/

section
variable {P : Params} {s : State}

theorem xxtEnc_not_keyed (hk : s.xxt.keyed = false) : xxtEnc P s = raise .notKeyed s := if_pos hk

theorem xxtEnc_delivers (hk : s.xxt.keyed = true) :
    xxtEnc P s = deliver (xxtTransform P (xxtEncWords P s.xxt.k) (xxtPad (operand s .din))) s := by
  rw [xxtEnc, if_neg (by simp [hk]), xxtE_eq]

theorem xxtDec_not_keyed (hk : s.xxt.keyed = false) : xxtDec P s = raise .notKeyed s := if_pos hk

theorem xxtDec_misaligned (hk : s.xxt.keyed = true) (hlen : s.dinLen % 4 ≠ 0) : xxtDec P s = raise .blockAlignment s := by
  rw [xxtDec, if_neg (by simp [hk]), if_pos hlen]

theorem xxtDec_delivers (hk : s.xxt.keyed = true) (hlen : s.dinLen % 4 = 0) :
    xxtDec P s = deliver (xxtTransform P (xxtDecWords P s.xxt.k) (operand s .din)) s := by
  rw [xxtDec, if_neg (by simp [hk]), if_neg (not_not.2 hlen), xxtD_eq]

end

/-- Settles O44: both commands deliver a transformed buffer of whole words, `XXT.ENC` the padded one. -/
theorem xxtRules : Obligations.XxtRules := by
  refine ⟨by decide, fun s hc => ?_⟩
  obtain ⟨-, -, -, hw⟩ := hc
  refine ⟨fun hk => congrArg Host.Outcome.next (xxtEnc_not_keyed hk), fun hk => ?_,
    fun hk => congrArg Host.Outcome.next (xxtDec_not_keyed hk),
    fun hk hlen => congrArg Host.Outcome.next (xxtDec_misaligned hk hlen), fun hk hlen => ?_⟩
  · have hpadded : xxtPad (operand s .din) = operand s .din ++ List.replicate ((4 - s.dinLen % 4) % 4) 0 := by
      rw [xxtPad, length_operand, lenOf_din]
    have hlength : (xxtPad (operand s .din)).length = s.dinLen + (4 - s.dinLen % 4) % 4 := by
      rw [length_xxtPad, length_operand, lenOf_din]
    obtain ⟨honly, hshort, hlong⟩ := deliver_xxtTransform (P := params) hw (length_xxtEncWords params s.xxt.k)
      (length_xxtPad_mod (operand s .din))
    exact ⟨_, _, hpadded, congrArg Host.Outcome.next (xxtEnc_delivers hk), honly, fun h => hshort (by omega),
      fun h => hlong (by omega)⟩
  · have hlength : (operand s .din).length = s.dinLen := length_operand s .din
    obtain ⟨honly, hshort, hlong⟩ := deliver_xxtTransform (P := params) hw (length_xxtDecWords params s.xxt.k)
      (hlength.symm ▸ hlen)
    exact ⟨_, congrArg Host.Outcome.next (xxtDec_delivers hk hlen), hlength ▸ honly, fun h => hshort (by omega),
      fun h => hlong (by omega)⟩

/-- Settles O45: a data command keeps the context, so both commands have the same key, and the passes are undone. -/
theorem xxtRoundTrip : Obligations.XxtRoundTrip := by
  have hundone (k : Vector Word 4) (v : List Word) : 2 ≤ v.length → xxtDecWords params k (xxtEncWords params k v) = v :=
    xxtDecWords_xxtEncWords neighboursApart_params k
  refine ⟨hundone, fun s s' t hc hc' hexec herr hxxt hdin => ?_⟩
  obtain ⟨-, -, -, hw⟩ := hc
  obtain ⟨-, -, -, hw'⟩ := hc'
  have ht : xxtEnc params s = t := Host.Outcome.next.inj hexec
  have hcontext : s'.xxt = s.xxt :=
    hxxt.trans (commandsKeepContextsOfOtherUnits .xxtEnc s t .xxt hexec (.inr ⟨by decide, by decide⟩)).symm
  cases hk : s.xxt.keyed with
  | false => exact absurd (xxtEnc_not_keyed hk ▸ ht ▸ herr) (raise_err_ne_zero _ s)
  | true =>
    have hpad := length_xxtPad_mod (operand s .din)
    rw [← ht, xxtEnc_delivers hk, operand_dout_deliver hw] at hdin
    have hlen : s'.dinLen % 4 = 0 := by
      rw [← lenOf_din, ← length_operand, hdin, length_xxtTransform (length_xxtEncWords params s.xxt.k) hpad, hpad]
    refine ⟨_, congrArg Host.Outcome.next (xxtDec_delivers (hcontext ▸ hk) hlen), rfl, ?_⟩
    rw [operand_dout_deliver hw', hdin, hcontext,
      xxtTransform_xxtTransform (length_xxtEncWords params s.xxt.k) (hundone s.xxt.k) hpad]

end Sys2Proof.Machine

/-! PROOFS. The stream of `STR` (46 R261 to R271), for any functions of the unit: how far each command advances it, and the output
block by block. -/

namespace Sys2Proof.Machine

open Config (Params StreamState)

/-! ## Cycles -/

theorem strCycles_eq_iterate (P : Params) (n : Nat) (s : StreamState) : strCycles P n s = P.strCycle^[n] s := by
  rw [strCycles, List.foldl_const, List.length_range]

/-! ## The output blocks (46 R268) -/

/-- The output blocks of `STR.ENC` and `STR.DEC`. -/
def strCryptOut (P : Params) : StreamState → List Bytes → List Bytes
  | _, [] => []
  | s, b :: bs => xorKeystream b (strKeystream P (P.strCycle s)) :: strCryptOut P (P.strCycle s) bs

section
variable {bs : List Bytes}

theorem strCrypt_eq (P : Params) (s : StreamState) (bs : List Bytes) : strCrypt P s bs = (strCryptOut P s bs).flatten := by
  induction bs generalizing s with
  | nil => rfl
  | cons b bs ih => rw [strCrypt, strCryptOut, List.flatten_cons, ih]

@[simp] theorem length_strCryptOut (P : Params) (s : StreamState) (bs : List Bytes) : (strCryptOut P s bs).length = bs.length := by
  induction bs generalizing s with
  | nil => rfl
  | cons b bs ih => rw [strCryptOut, List.length_cons, List.length_cons, ih]

/-- Output block i uses the keystream of the state i + 1 cycles on. -/
theorem getElem_strCryptOut (P : Params) (s : StreamState) {i : Nat} (h : i < bs.length) :
    (strCryptOut P s bs)[i]'(by simpa using h) = xorKeystream bs[i] (strKeystream P (P.strCycle^[i + 1] s)) := by
  induction bs generalizing s i with
  | nil => exact absurd h (Nat.not_lt_zero i)
  | cons b bs ih =>
    cases i with
    | zero => rfl
    | succ i => exact ih (P.strCycle s) (Nat.lt_of_succ_lt_succ h)

theorem sameLengths_strCryptOut (P : Params) (s : StreamState) (hbs : ∀ b ∈ bs, b.length ≤ 16) :
    SameLengths (strCryptOut P s bs) bs :=
  sameLengths_of_xorKeystream (length_strCryptOut P s bs) hbs fun _ hi =>
    ⟨_, length_strKeystream P _, getElem_strCryptOut P s hi⟩

/-- The keystream does not depend on the message, so it is taken away by being added again. -/
theorem strCryptOut_strCryptOut (P : Params) (s : StreamState) (hbs : ∀ b ∈ bs, b.length ≤ 16) :
    strCryptOut P s (strCryptOut P s bs) = bs := by
  induction bs generalizing s with
  | nil => rfl
  | cons b bs ih =>
    obtain ⟨hb, hbs⟩ := List.forall_mem_cons.1 hbs
    rw [strCryptOut, strCryptOut, ih _ hbs, xorKeystream_cancel (by rwa [length_strKeystream])]

theorem strCrypt_undoneBy_strCrypt (P : Params) (s : StreamState) : UndoneBy false 16 (strCrypt P s) (strCrypt P s) :=
  undoneBy_of_blocks (by decide) (strCrypt_eq P s) (strCrypt_eq P s)
    (fun _ _ => sameLengths_strCryptOut P s length_le_of_mem_blocks)
    fun _ _ => strCryptOut_strCryptOut P s length_le_of_mem_blocks

/-- More blocks are combined with the stream from where the first ones left it. -/
theorem strCrypt_append (P : Params) (s : StreamState) (bs bs' : List Bytes) :
    strCrypt P s (bs ++ bs') = strCrypt P s bs ++ strCrypt P (P.strCycle^[bs.length] s) bs' := by
  induction bs generalizing s with
  | nil => rfl
  | cons b bs ih =>
    rw [List.cons_append, strCrypt, strCrypt, ih, List.append_assoc, List.length_cons, Function.iterate_succ_apply]

end

end Sys2Proof.Machine

/-! PROOFS. The default functions of `STR` (46 R261 to R264): the context that `STR.INIT` leaves, and the counters of one cycle. -/

namespace Sys2Proof.Machine

open Config (Params StreamState)

/-! ## `STR.INIT` -/

/-- 46 R261: the setup cycles are two. -/
theorem strSchedule_eq (P : Params) (key : Bytes) :
    strSchedule P key = P.strSetupFinal (P.strCycle (P.strCycle (P.strSetup key))) := rfl

/-- 46 R263: the final step re-keys the counters and keeps the rest. -/
theorem strSetupFinalDefault_rekeys (s : StreamState) :
    (strSetupFinalDefault s).x = s.x ∧ (strSetupFinalDefault s).a = s.a ∧ (strSetupFinalDefault s).carry = s.carry ∧
    ∀ j : Fin 8, (strSetupFinalDefault s).c[j] = s.c[j] ^^^ s.x[(j.val + 4) % 8]'(Nat.mod_lt _ (by decide)) :=
  ⟨rfl, rfl, rfl, fun j => by simp [strSetupFinalDefault]⟩

/-- Settles O46: the frame of every `INIT`, with the context loaded from the 16 bytes of the resolved key. -/
theorem strInitRule : Obligations.StrInitRule := by
  refine ⟨by decide, fun s hc => ⟨fun hlen => ?_, fun hempty hlen => ?_⟩⟩
  · obtain ⟨hkey, -, -, -⟩ := hc
    have haccepted : (s.keyLen = 0 ∧ 16 ∈ [16]) ∨ (s.keyLen ≠ 0 ∧ s.keyLen ∈ [16]) := by
      rw [List.mem_singleton, List.mem_singleton]; omega
    have hresolved : (resolveOperand .key 16 s).keyLen = 16 := by
      rw [resolveOperand_keyLen]; split <;> omega
    have hread : operand (resolveOperand .key 16 s) .key = memRead (resolveOperand .key 16 s) .key 0 16 := by
      rw [operand, lenOf_key, hresolved]
    have hexec := initUnit_ok (loadStr params) haccepted
    rw [hread, loadStr, strSchedule_eq] at hexec
    exact ⟨resolveOperand .key 16 s, _, _, keyResolved_resolveOperand hkey 16, congrArg Host.Outcome.next hexec, rfl, rfl, rfl,
      strSetupFinalDefault_rekeys _⟩
  · exact congrArg Host.Outcome.next (initUnit_bad (loadStr params) hempty (by rwa [List.mem_singleton]))

/-! ## The counters (46 R264) -/

/-- Digits to base B added in their places, each place passing its overflow on as the carry `c` of the next: the digits that stay and
the last carry are the sum of the digits put in and the first carry. -/
theorem sum_digits_add_carry {B : Nat} {x c : Nat → Nat} (h : ∀ j, c (j + 1) = (x j + c j) / B) (n : Nat) :
    (∑ j ∈ Finset.range n, (x j + c j) % B * B ^ j) + c n * B ^ n = (∑ j ∈ Finset.range n, x j * B ^ j) + c 0 := by
  induction n with
  | zero => simp
  | succ n ih =>
    have hplace : (x n + c n) % B * B ^ n + c (n + 1) * B ^ (n + 1) = x n * B ^ n + c n * B ^ n := by
      calc (x n + c n) % B * B ^ n + c (n + 1) * B ^ (n + 1)
          = ((x n + c n) % B + B * ((x n + c n) / B)) * B ^ n := by rw [h, pow_succ]; ring
        _ = x n * B ^ n + c n * B ^ n := by rw [Nat.mod_add_div, add_mul]
    rw [Finset.sum_range_succ, Finset.sum_range_succ]
    omega

/-- What is added in place j of the counters, but for the carry. -/
def strAddends (s : StreamState) (j : Nat) : Nat := s.c[j % 8].toNat + s.a[j % 8].toNat

theorem strCarryInto_succ (s : StreamState) (j : Nat) : strCarryInto s (j + 1) = (strAddends s j + strCarryInto s j) / 2 ^ 32 := rfl

/-- The carry out of a counter is one bit. -/
theorem strCarryInto_lt_two (s : StreamState) (j : Nat) : strCarryInto s j < 2 := by
  induction j with
  | zero => exact s.carry.isLt
  | succ j ih =>
    have hc := s.c[j % 8].isLt
    have ha := s.a[j % 8].isLt
    rw [strCarryInto_succ, strAddends]
    omega

theorem toNat_strCycleDefault_carry (s : StreamState) : (strCycleDefault s).carry.toNat = strCarryInto s 8 :=
  (BitVec.toNat_ofNat _ _).trans (Nat.mod_eq_of_lt (strCarryInto_lt_two s 8))

theorem toNat_getElem_strCycleDefault_c (s : StreamState) (j : Fin 8) :
    (strCycleDefault s).c[j].toNat = (strAddends s j.val + strCarryInto s j.val) % 2 ^ 32 := by
  have hj : j.val % 8 = j.val := Nat.mod_eq_of_lt j.isLt
  simp [strCycleDefault, strNextC, strCounterSum, strAddends, hj]

/-- Settles O47: the counters are eight digits to base 2^32, added with the carry passed on. -/
theorem strCountersAddWithCarry : Obligations.StrCountersAddWithCarry := by
  intro s
  have hsum := sum_digits_add_carry (strCarryInto_succ s) 8
  have haddends (j : Fin 8) : strAddends s j.val = s.c[j].toNat + s.a[j].toNat := by
    simp [strAddends, Nat.mod_eq_of_lt j.isLt]
  rw [Finset.sum_range, Finset.sum_range] at hsum
  simp only [← toNat_getElem_strCycleDefault_c, ← pow_mul] at hsum
  simp only [haddends, add_mul, Finset.sum_add_distrib] at hsum
  rw [toNat_strCycleDefault_carry]
  exact hsum

end Sys2Proof.Machine

/-! PROOFS. The data commands of 46_stream.md (R267 to R271): each delivers its bytes from the advanced context. -/

namespace Sys2Proof.Machine

open Config (Params StreamState)

/-! ## `STR.KSB` -/

section
variable {P : Params} {s : State}

theorem strKsb_not_keyed (hk : s.str.keyed = false) : strKsb P s = raise .notKeyed s := if_pos hk

theorem strKsb_delivers (hk : s.str.keyed = true) :
    strKsb P s = deliver (strKeystream P (P.strCycle s.str.st)) (advanceStr P 1 s) := by
  rw [strKsb, if_neg (by simp [hk])]
  rfl

end

/-- Settles O48: the keystream block is delivered from the state advanced by one cycle. -/
theorem strKsbRule : Obligations.StrKsbRule := by
  refine ⟨by decide, fun s hc => ⟨fun hk => congrArg Host.Outcome.next (strKsb_not_keyed hk), fun hk => ?_⟩⟩
  obtain ⟨-, -, -, hw⟩ := hc
  exact ⟨advanceStr params 1 s, _, rfl, congrArg Host.Outcome.next (strKsb_delivers hk),
    deliver_delivers (s := advanceStr params 1 s) hw _, length_strKeystream params _⟩

/-! ## `STR.ENC`, `STR.DEC`

Both commands are `strApply`, so what it does is said once. -/

section
variable {P : Params} {s : State}

theorem strApply_not_keyed (hk : s.str.keyed = false) : strApply P s = raise .notKeyed s := if_pos hk

theorem strApply_delivers (hk : s.str.keyed = true) :
    strApply P s = deliver (strCrypt P s.str.st (blocks 16 (operand s .din))) (advanceStr P (blockCount 16 s.dinLen) s) := by
  rw [strApply, if_neg (by simp [hk])]

/-- The output of either command. -/
theorem operand_dout_strApply (hw : s.doutBuf.wf) (hk : s.str.keyed = true) :
    operand (strApply P s) .dout = strCrypt P s.str.st (blocks 16 (operand s .din)) := by
  rw [strApply_delivers hk]
  exact operand_dout_deliver hw _

/-- The context either command leaves. -/
theorem strApply_str (hk : s.str.keyed = true) :
    (strApply P s).str = { s.str with st := P.strCycle^[blockCount 16 s.dinLen] s.str.st } := by
  rw [strApply_delivers hk, deliver_str, advanceStr_str, strCycles_eq_iterate]

/-- 46 R268, R269: the output of the command block by block, from the state `r` that takes it. -/
theorem deliver_strCrypt_blocks {r t : State} (hw : r.doutBuf.wf) (st : StreamState)
    (ht : t = deliver (strCrypt P st (blocks 16 (operand s .din))) r) :
    OutputOnly s.dinLen r t ∧ ∀ i < blockCount 16 s.dinLen, memRead t .dout (16 * i) (min 16 (s.dinLen - 16 * i)) =
      xorBytes (memRead s .din (16 * i) (min 16 (s.dinLen - 16 * i)))
        ((strKeystream P (P.strCycle^[i + 1] st)).take (min 16 (s.dinLen - 16 * i))) := by
  have hlens := sameLengths_strCryptOut P st (length_le_of_mem_blocks (B := 16) (m := operand s .din))
  have hB : 0 < 16 := by decide
  rw [strCrypt_eq] at ht
  subst ht
  refine ⟨outputOnly_deliver_flatten hw hB hlens, fun i hi => ?_⟩
  have hi' : i < (blocks 16 (operand s .din)).length := by simpa using hi
  rw [memRead_dout_deliver_flatten hw hB hlens (hlens.length_eq ▸ hi'), getElem_strCryptOut P st hi', xorKeystream,
    getElem_blocks_operand, lenOf_din, length_memRead]

end

/-- Settles O49: the output block by block, delivered from the state advanced by one cycle a block. -/
theorem strEncAndDecRules : Obligations.StrEncAndDecRules := by
  refine ⟨by decide, fun s hc => ⟨fun hk => congrArg Host.Outcome.next (strApply_not_keyed hk), fun hk => ?_, _, rfl, rfl⟩⟩
  obtain ⟨-, -, -, hw⟩ := hc
  refine ⟨advanceStr params (blockCount 16 s.dinLen) s, _, ?_, congrArg Host.Outcome.next (strApply_delivers hk),
    deliver_strCrypt_blocks (r := advanceStr params _ s) hw s.str.st rfl⟩
  rw [advanceStr, strCycles_eq_iterate]
  rfl

/-- Settles O50: the same stream is combined with the message twice. -/
theorem strRoundTripFromTheSameState : Obligations.StrRoundTripFromTheSameState := by
  refine ⟨fun _ => ⟨rfl, rfl⟩, fun P s s' hw hw' hk hstr hdin => ?_⟩
  have hback : operand (strApply P s') .dout = operand s .din := by
    rw [operand_dout_strApply hw' (hstr ▸ hk), hdin, strEnc, operand_dout_strApply hw hk, hstr]
    exact (strCrypt_undoneBy_strCrypt P s.str.st).undo (operand s .din) (by simp)
  exact ⟨hback, hback⟩

/-- Settles O51: the blocks of the whole are those of the first part and then those of the rest, and so are the cycles. -/
theorem strSplitAtWholeBlocksIsSeamless : Obligations.StrSplitAtWholeBlocksIsSeamless := by
  intro s s1 s2 t t1 hc hc1 hc2 hk hstr1 haligned hdin hexec hexec1 hstr2
  obtain ⟨-, -, -, hw⟩ := hc
  obtain ⟨-, -, -, hw1⟩ := hc1
  obtain ⟨-, -, -, hw2⟩ := hc2
  obtain rfl : strApply params s = t := Host.Outcome.next.inj hexec
  obtain rfl : strApply params s1 = t1 := Host.Outcome.next.inj hexec1
  have hk1 : s1.str.keyed = true := hstr1 ▸ hk
  rw [strApply_str hk1, hstr1] at hstr2
  have hk2 : s2.str.keyed = true := hstr2 ▸ hk
  have hblocks : blocks 16 (operand s .din) = blocks 16 (operand s1 .din) ++ blocks 16 (operand s2 .din) := by
    rw [hdin, blocks_append (by decide) (by rwa [length_operand])]
  have hcount : blockCount 16 s.dinLen = blockCount 16 s1.dinLen + blockCount 16 s2.dinLen := by
    simpa using congrArg List.length hblocks
  refine ⟨strApply params s2, rfl, ?_, ?_⟩
  · rw [operand_dout_strApply hw hk, operand_dout_strApply hw1 hk1, operand_dout_strApply hw2 hk2, hblocks, strCrypt_append,
      hstr1, hstr2, length_blocks, length_operand, lenOf_din]
  · rw [strApply_str hk, strApply_str hk2, hstr2, hcount, add_comm, Function.iterate_add_apply]

end Sys2Proof.Machine

/-! PROOFS. Errors (60 R280 to R292): every command makes the checks of the tables in one order and then runs its body, a command that
raised changed two registers, and no other access raises anything. -/

namespace Sys2Proof.Machine

/-! ## The error codes (60 R281) -/

theorem errorCode_le_six (e : ErrorKind) : (errorCode e).toNat ≤ 6 := by cases e <;> decide

theorem exec_legalErr {i : Instr} {s t : State} (ht : exec i s = .next t) : LegalErr t := by
  rcases exec_cases ht with ⟨e, rfl⟩ | ⟨-, n, x, -, -, rfl⟩ | ⟨-, -, out, r, -, -, rfl⟩
  · exact errorCode_le_six e
  · exact Nat.zero_le _
  · exact Nat.zero_le _

/-- Of the host accesses, only the write to `CMD` sets the code. -/
theorem access_legalErr {a : HostAccess} {s t : State} (ht : AccessEnds a s t) (hs : LegalErr s) : LegalErr t := by
  rcases ht with ⟨v, n, rfl⟩ | rfl | ⟨sp, n, -, -, rfl⟩ | ⟨sp, o, b, -, -, rfl⟩ | ⟨w, -, ⟨_, _, rfl⟩ | ⟨i, _, hexec⟩⟩
  · exact hs
  · exact hs
  · rwa [LegalErr, setLen_err]
  · rwa [LegalErr, memWrite_err]
  · exact errorCode_le_six _
  · exact exec_legalErr hexec

/-- Settles O10: of what a step can do, a reset and a command set the code, a reset to 0. -/
theorem everyStepKeepsErrorCodesLegal : Obligations.EveryStepKeepsErrorCodesLegal := by
  intro s t hs ht
  rcases step_cases ht with ⟨_, rfl⟩ | ⟨rest, _, rfl⟩ | ⟨rest, a, _, ha⟩
  · exact hs
  · exact Nat.zero_le _
  · exact access_legalErr ha hs

/-! ## What an error leaves as it was (60 R284) -/

/-- Settles O12: a command that did not raise ends with the code 0. -/
theorem failedCommandChangesOnlyErrAndDoutLen : Obligations.FailedCommandChangesOnlyErrAndDoutLen := by
  intro i s t ht herr
  rcases exec_cases ht with ⟨e, rfl⟩ | ⟨-, n, x, -, -, rfl⟩ | ⟨-, -, out, r, -, -, rfl⟩
  · exact raise_eq e s
  · exact absurd rfl herr
  · exact absurd (deliver_err out r) herr

/-! ## A word that is no command (60 R288) -/

theorem decode_eq_error_of_notMem {w : Word} (h : ∀ i, (i, w) ∉ opcodeMap) : ∃ e, decode w = .error e := by
  cases hdecode : decode w with
  | error e => exact ⟨e, rfl⟩
  | ok i => exact absurd (mem_opcodeMap_iff.2 (decode_eq_ok_iff.1 hdecode)) (h i)

/-- Settles O3: such a word does not decode, and the write to `CMD` of it raises. -/
theorem illegalWordRaisesIllegalCommand : Obligations.IllegalWordRaisesIllegalCommand := by
  intro s w rest hillegal hpending
  obtain ⟨e, he⟩ := decode_eq_error_of_notMem hillegal
  rw [step_writeReg hpending]
  exact writeCommand_error he _

/-! ## Accesses that are no write to `CMD` (60 R280, 10 R38) -/

/-- The two states agree on `CMD`, on `STATUS.ERR`, on the output, on every context and on the draws. -/
structure NothingExecuted (s t : State) : Prop where
  cmd : t.cmd = s.cmd
  err : t.err = s.err
  dout : SameSpace .dout s t
  draws : t.draws = s.draws
  context : ∀ u, SameContext u s t

theorem NothingExecuted.trans {s t r : State} (h : NothingExecuted s t) (h' : NothingExecuted t r) : NothingExecuted s r where
  cmd := h'.cmd.trans h.cmd
  err := h'.err.trans h.err
  dout := h.dout.trans h'.dout
  draws := h'.draws.trans h.draws
  context u := (h.context u).trans (h'.context u)

theorem nothingExecuted_bookkeeping (s : State) {pending : List Input} {response : Option Word} {stale : Nat} :
    NothingExecuted s { s with pending := pending, response := response, staleReads := stale } :=
  ⟨rfl, rfl, ⟨rfl, rfl⟩, rfl, fun u => sameContext_bookkeeping u s⟩

theorem nothingExecuted_setLen {sp : Space} (hsp : sp ≠ .dout) (s : State) (n : Nat) : NothingExecuted s (setLen s sp n) :=
  ⟨setLen_cmd s sp n, setLen_err s sp n, sameSpace_setLen hsp.symm s n, setLen_draws s sp n, fun u => sameContext_setLen u s sp n⟩

theorem nothingExecuted_memWrite {sp : Space} (hsp : sp ≠ .dout) (s : State) (o : Nat) (v : Bytes) :
    NothingExecuted s (memWrite s sp o v) :=
  ⟨memWrite_cmd s sp o v, memWrite_err s sp o v, sameSpace_memWrite hsp.symm s o v, memWrite_draws s sp o v,
    fun u => sameContext_memWrite u s sp o v⟩

theorem access_nothingExecuted {a : HostAccess} {s t : State} (ht : AccessEnds a s t) (ha : ∀ size v, a ≠ .write size 0 v) :
    NothingExecuted s t := by
  have hquiet : NothingExecuted s (noResponse s) := nothingExecuted_bookkeeping s
  rcases ht with ⟨v, n, rfl⟩ | rfl | ⟨sp, n, hsp, -, rfl⟩ | ⟨sp, o, b, hsp, -, rfl⟩ | ⟨w, hcmd, -⟩
  · exact nothingExecuted_bookkeeping s
  · exact hquiet
  · exact hquiet.trans (nothingExecuted_setLen hsp _ n)
  · exact hquiet.trans (nothingExecuted_memWrite hsp _ o [b])
  · exact absurd hcmd (ha .word w)

/-- Settles O14: of what an access can do, only the write to `CMD` sets more than a response, a length or a byte. -/
theorem onlyAWriteToCmdExecutes : Obligations.OnlyAWriteToCmdExecutes := by
  intro s t a rest hpending ha ht
  rcases step_cases ht with ⟨hp, _⟩ | ⟨rest', hp, _⟩ | ⟨rest', a', hp, hends⟩
  · exact absurd (hpending.symm.trans hp) nofun
  · exact absurd (hpending.symm.trans hp) nofun
  · obtain ⟨⟨⟩, -⟩ := List.cons.inj (hpending.symm.trans hp)
    obtain ⟨hcmd, herr, ⟨hbuf, hlen⟩, hdraws, hcontext⟩ :=
      (nothingExecuted_bookkeeping s).trans (access_nothingExecuted hends ha)
    exact ⟨hcmd, herr, hlen, hbuf, hdraws, hcontext⟩

/-! ## The order of the checks (60 R292) -/

/-- The checks of the tables of 60 R282 to R289 in the order of R292, and then t, what the command does where none applies. -/
def checked (i : Instr) (s t : State) : State :=
  if notKeyedApplies i s then raise .notKeyed s
  else if keyLengthApplies i s then raise .keyLength s
  else if ivLengthApplies i s then raise .ivLength s
  else if blockAlignmentApplies i s then raise .blockAlignment s
  else t

theorem checked_err (i : Instr) (s t : State) :
    (checked i s t).err = if firstErrorCode i s = 0 then t.err else firstErrorCode i s := by
  unfold checked firstErrorCode
  split
  · rfl
  split
  · rfl
  split
  · rfl
  split <;> rfl

/-- What the body of a command may end with: the code 0, or `PaddingError` where the command removes padding. -/
def BodyEnds (i : Instr) (t : State) : Prop := t.err = 0 ∨ (checksPadding i = true ∧ t.err = 6)

theorem notKeyedApplies_data {i : Instr} (hi : i.form.op ≠ .init) (s : State) :
    notKeyedApplies i s = !keyedFlag s i.form.unit := by
  rw [notKeyedApplies, bne_iff_ne.2 hi, Bool.true_and]

theorem keyLengthApplies_data {i : Instr} (hi : i.form.op ≠ .init) (s : State) : keyLengthApplies i s = false := by
  cases i
  case feiInit | spnInit | teaInit | xteaInit | xxtInit | strInit => exact absurd rfl hi
  all_goals rfl

/-- A data command checks the `KEYED` flag of its unit, then the length of its IV, then the length of its message. -/
theorem checked_data {i : Instr} (hi : i.form.op ≠ .init) (s t : State) :
    checked i s t =
      if keyedFlag s i.form.unit = false then raise .notKeyed s
      else if ivLengthApplies i s then raise .ivLength s
      else if blockAlignmentApplies i s then raise .blockAlignment s
      else t := by
  simp [checked, notKeyedApplies_data hi, keyLengthApplies_data hi]

/-- An `INIT` checks the length of its key and nothing else. -/
theorem checked_init {i : Instr} (hi : i.form.op = .init) (s t : State) :
    checked i s t = if keyLengthApplies i s then raise .keyLength s else t := by
  cases i
  case feiInit | spnInit | teaInit | xteaInit | xxtInit | strInit => rfl
  all_goals cases hi

/-! ## Each frame as its checks and its body, where the tables say what the frame checks -/

section
variable {i : Instr} {s : State}

theorem initUnit_eq_checked (hi : i.form.op = .init) {n : Nat} {lengths : List Nat} (hn : n ∈ lengths) (load : Bytes → State → State)
    (hkey : keyLengthApplies i s = true ↔ s.keyLen ≠ 0 ∧ s.keyLen ∉ lengths) :
    initUnit n lengths load s = checked i s
      { load (operand (resolveOperand .key n s) .key) (resolveOperand .key n s) with err := 0, doutLen := 0 } := by
  by_cases hbad : s.keyLen ≠ 0 ∧ s.keyLen ∉ lengths
  · rw [checked_init hi, if_pos (hkey.2 hbad), initUnit_bad load hbad.1 hbad.2]
  · rw [checked_init hi, if_neg (fun happlies => hbad (hkey.1 happlies)), initUnit_ok load (by tauto)]

theorem singleBlock_eq_checked (hi : i.form.op ≠ .init) {B : Nat} (f : Bytes → Bytes) (hiv : ivLengthApplies i s = false)
    (hdin : blockAlignmentApplies i s = (s.dinLen != B)) :
    singleBlock (keyedFlag s i.form.unit) B f s = checked i s (deliver (f (memRead s .din 0 B)) s) := by
  simp [singleBlock, checked_data hi, hiv, hdin]

theorem blockwise_eq_checked (hi : i.form.op ≠ .init) {B : Nat} (f : Bytes → Bytes) (hiv : ivLengthApplies i s = false)
    (hdin : blockAlignmentApplies i s = (s.dinLen % B != 0)) :
    blockwise (keyedFlag s i.form.unit) B f s = checked i s (deliver (ecb f (blocks B (operand s .din))) s) := by
  simp [blockwise, checked_data hi, hiv, hdin]

theorem chained_eq_checked (hi : i.form.op ≠ .init) {ivOk aligned : Bool} {n B : Nat} (f : Bytes → List Bytes → Bytes)
    (hiv : ivLengthApplies i s = !ivOk) (hdin : blockAlignmentApplies i s = (aligned && s.dinLen % B != 0)) :
    chained (keyedFlag s i.form.unit) ivOk aligned n B f s = checked i s
      (deliver (f (memRead (resolveOperand .iv n s) .iv 0 n) (blocks B (operand s .din))) (resolveOperand .iv n s)) := by
  simp [chained, checked_data hi, hiv, hdin]

end

/-- 42 R151: the IV of an encrypting command is not accepted where it is neither empty nor of the length n. -/
theorem not_ivAcceptedEnc (n : Nat) (s : State) : (!ivAcceptedEnc n s) = (s.ivLen != 0 && s.ivLen != n) := Bool.not_or _ _

/-! ## The commands with a frame of their own -/

section
variable (P : Config.Params) (s : State)

theorem spnEncEcb_eq_checked : spnEncEcb P s =
    checked .spnEncEcb s (deliver (ecb (spnE P s.spn.rk) (blocks 16 (pad16 (operand s .din)))) s) := by
  rw [checked_data (by decide)]
  rfl

theorem spnEncCbc_eq_checked : spnEncCbc P s =
    checked .spnEncCbc s (deliver (spnEncCbcOutput P (resolveOperand .iv 16 s)) (resolveOperand .iv 16 s)) := by
  rw [checked_data (by decide), spnEncCbcOutput, resolveOperand_spn]
  simp only [ivLengthApplies, ← not_ivAcceptedEnc, Bool.not_eq_true']
  rfl

theorem spnDecEcb_eq_checked : spnDecEcb P s =
    checked .spnDecEcb s ((unpad16 (spnDecEcbMessage P s)).elim (raise .padding s) (deliver · s)) := by
  rw [checked_data (by decide), spnDecEcb, ← spnDecEcbMessage]
  simp only [blockAlignmentApplies, Bool.or_eq_true, beq_iff_eq, bne_iff_ne]
  cases unpad16 (spnDecEcbMessage P s) <;> rfl

theorem spnDecCbc_eq_checked : spnDecCbc P s =
    checked .spnDecCbc s
      ((unpad16 (spnDecCbcMessage P s)).elim (raise .padding s) (deliver · (putOperand .iv (memRead s .din 0 16) s))) := by
  rw [checked_data (by decide), spnDecCbc]
  dsimp only
  rw [← spnDecCbcMessage]
  simp only [blockAlignmentApplies, Bool.or_eq_true, decide_eq_true_eq, bne_iff_ne]
  cases unpad16 (spnDecCbcMessage P s) <;> rfl

theorem xxtEnc_eq_checked : xxtEnc P s = checked .xxtEnc s (deliver (xxtE P s.xxt.k (xxtPad (operand s .din))) s) := by
  rw [checked_data (by decide)]
  rfl

theorem xxtDec_eq_checked : xxtDec P s = checked .xxtDec s (deliver (xxtD P s.xxt.k (operand s .din)) s) := by
  rw [checked_data (by decide)]
  simp only [blockAlignmentApplies, bne_iff_ne]
  rfl

theorem strKsb_eq_checked : strKsb P s =
    checked .strKsb s (deliver (strKeystream P (strCycles P 1 s.str.st)) (advanceStr P 1 s)) := by
  rw [checked_data (by decide)]
  rfl

/-- `STR.ENC` and `STR.DEC`: any length is accepted. -/
theorem strApply_eq_checked {i : Instr} (hi : i = .strEnc ∨ i = .strDec) : strApply P s =
    checked i s (deliver (strCrypt P s.str.st (blocks 16 (operand s .din))) (advanceStr P (blockCount 16 s.dinLen) s)) := by
  rcases hi with rfl | rfl
  all_goals
    rw [checked_data (by decide)]
    rfl

end

/-! ## Every command -/

/-- Valid padding is removed, and padding that is not raises `PaddingError`. -/
theorem bodyEnds_unpadded {i : Instr} (hi : checksPadding i = true) (message : Option Bytes) (s r : State) :
    BodyEnds i (message.elim (raise .padding s) (deliver · r)) := by
  cases message with
  | none => exact .inr ⟨hi, rfl⟩
  | some p => exact .inl rfl

/-- A command that makes the checks and then, where none applies, always completes. -/
theorem exec_checked_of_eq {i : Instr} {s u t : State} (hexec : exec i s = .next u) (hu : u = checked i s t) (ht : t.err = 0) :
    ∃ t, exec i s = .next (checked i s t) ∧ BodyEnds i t :=
  ⟨t, hu ▸ hexec, .inl ht⟩

/-- 60 R282: a key length refused by a unit that accepts one length. -/
theorem keyLengthRefused_iff {k n : Nat} : (k != 0 && k != n) = true ↔ k ≠ 0 ∧ k ∉ [n] := by simp

/-- 60 R282: a key length refused by `SPN`, which accepts three. -/
theorem spnKeyLengthRefused_iff {k : Nat} : (k != 0 && k != 16 && k != 24 && k != 32) = true ↔ k ≠ 0 ∧ k ∉ Config.spnKeyBytes := by
  simp [Config.spnKeyBytes, and_assoc]

theorem exec_init_checked {i : Instr} (hi : i.form.op = .init) (s : State) :
    ∃ t, exec i s = .next (checked i s t) ∧ BodyEnds i t := by
  cases i
  case feiInit => exact exec_checked_of_eq rfl (initUnit_eq_checked rfl (by decide) loadFei keyLengthRefused_iff) rfl
  case spnInit => exact exec_checked_of_eq rfl (initUnit_eq_checked rfl (by decide) (loadSpn params) spnKeyLengthRefused_iff) rfl
  case teaInit => exact exec_checked_of_eq rfl (initUnit_eq_checked rfl (by decide) loadTea keyLengthRefused_iff) rfl
  case xteaInit => exact exec_checked_of_eq rfl (initUnit_eq_checked rfl (by decide) loadXtea keyLengthRefused_iff) rfl
  case xxtInit => exact exec_checked_of_eq rfl (initUnit_eq_checked rfl (by decide) (loadXxt params) keyLengthRefused_iff) rfl
  case strInit => exact exec_checked_of_eq rfl (initUnit_eq_checked rfl (by decide) (loadStr params) keyLengthRefused_iff) rfl
  all_goals cases hi

theorem exec_data_checked {i : Instr} (hi : i.form.op ≠ .init) (s : State) :
    ∃ t, exec i s = .next (checked i s t) ∧ BodyEnds i t := by
  cases i
  case feiInit | spnInit | teaInit | xteaInit | xxtInit | strInit => exact absurd rfl hi
  case feiEncb | feiDecb | spnEncb | spnDecb => exact exec_checked_of_eq rfl (singleBlock_eq_checked hi _ rfl rfl) rfl
  case feiEncEcb | feiDecEcb | teaEnc | teaDec | xteaEnc | xteaDec =>
    exact exec_checked_of_eq rfl (blockwise_eq_checked hi _ rfl rfl) rfl
  case feiEncCbc | feiEncCfb | feiEncCtr =>
    exact exec_checked_of_eq rfl (chained_eq_checked hi _ (not_ivAcceptedEnc _ s).symm rfl) rfl
  case feiDecCbc | feiDecCfb | feiDecCtr => exact exec_checked_of_eq rfl (chained_eq_checked hi _ rfl rfl) rfl
  case spnEncEcb => exact exec_checked_of_eq rfl (spnEncEcb_eq_checked params s) rfl
  case spnEncCbc => exact exec_checked_of_eq rfl (spnEncCbc_eq_checked params s) rfl
  case spnDecEcb => exact ⟨_, congrArg _ (spnDecEcb_eq_checked params s), bodyEnds_unpadded rfl _ s _⟩
  case spnDecCbc => exact ⟨_, congrArg _ (spnDecCbc_eq_checked params s), bodyEnds_unpadded rfl _ s _⟩
  case xxtEnc => exact exec_checked_of_eq rfl (xxtEnc_eq_checked params s) rfl
  case xxtDec => exact exec_checked_of_eq rfl (xxtDec_eq_checked params s) rfl
  case strEnc => exact exec_checked_of_eq rfl (strApply_eq_checked params s (.inl rfl)) rfl
  case strDec => exact exec_checked_of_eq rfl (strApply_eq_checked params s (.inr rfl)) rfl
  case strKsb => exact exec_checked_of_eq rfl (strKsb_eq_checked params s) rfl

/-- Every command makes the checks of the tables in the order of 60 R292, and what it does after them ends as the body may. -/
theorem exec_checked (i : Instr) (s : State) : ∃ t, exec i s = .next (checked i s t) ∧ BodyEnds i t := by
  by_cases hi : i.form.op = .init
  · exact exec_init_checked hi s
  · exact exec_data_checked hi s

/-- Settles O13: the first check that applies gives the code, and where none applies the body does. -/
theorem errorReportedIsTheFirstInPriority : Obligations.ErrorReportedIsTheFirstInPriority := by
  intro i s
  obtain ⟨t, hexec, hend⟩ := exec_checked i s
  refine ⟨checked i s t, hexec, fun herr => ?_, fun hnone hpadding => ?_, fun hnone _ => ?_⟩
  · rw [checked_err, if_neg herr]
  · rw [checked_err, if_pos hnone]
    exact hend.resolve_right fun ⟨hcan, _⟩ => Bool.false_ne_true (hpadding.symm.trans hcan)
  · rw [checked_err, if_pos hnone]
    exact hend.imp_right And.right

end Sys2Proof.Machine
